-- ==== Sys2Proof/Word.lean ====
section
/-! DEFINITION. The widths of the machine: bytes, quads, addresses, register numbers and the four operand sizes
(00_scope.md R8, R10, R12). A "word" of this hardware is 16 bits, so no type is called Word. -/

namespace Sys2Proof

/-- A byte of memory or of the program text, 8 bits (R8). -/
abbrev Byte := BitVec 8

/-- A quad, 64 bits: what one general purpose or floating point register holds (R8, R20, R24). -/
abbrev Quad := BitVec 64

/-- A 64-bit address; its arithmetic is modulo 2^64 (R13, R50). -/
abbrev Addr := BitVec 64

/-- A register number, 0 to 15, of either register file (R20, R24). -/
abbrev Reg := Fin 16

/-- The operand sizes (R12): `.b`, `.w`, `.l`, `.q` of the integer suffixes; a single (`.s`) has size `l`
and a double (`.d`) has size `q`. -/
inductive Size where
  | b
  | w
  | l
  | q
  deriving DecidableEq, Repr, Inhabited

/-- The size in bytes, the `n` of the spec's pseudocode (R12). -/
@[reducible] def Size.bytes : Size → Nat
  | .b => 1
  | .w => 2
  | .l => 4
  | .q => 8

/-- The size in bits, `8n` (R12). -/
@[reducible] def Size.bits : Size → Nat
  | .b => 8
  | .w => 16
  | .l => 32
  | .q => 64

end Sys2Proof
end

