-- ==== Sys2Proof/Syntax.lean ====
section
/-! DEFINITION. The instructions: the nine shapes of a decoded effective address (30_encoding.md R77) and one
constructor for each of the 32 rows of the opcode map (R87). Operands stand in byte-stream order, the destination
before the source (R73). -/

namespace Sys2Proof

/-- A decoded effective address, one of nine shapes (R77). `i` is a register number. -/
inductive EADesc where
  /-- `r<i>`: general purpose register `i` itself. -/
  | gReg (i : Reg)
  /-- `fp<i>`: floating point register `i` itself. -/
  | fReg (i : Reg)
  /-- `(r<i>)`: memory at the address in `r[i]`. -/
  | ind (i : Reg)
  /-- `(r<i>)+`: memory at `r[i]`, which then steps up. -/
  | postInc (i : Reg)
  /-- `(r<i>)-`: memory at `r[i]`, which then steps down. -/
  | postDec (i : Reg)
  /-- `+(r<i>)`: `r[i]` steps up, then memory at the new `r[i]`. -/
  | preInc (i : Reg)
  /-- `-(r<i>)`: `r[i]` steps down, then memory at the new `r[i]`. -/
  | preDec (i : Reg)
  /-- `<d>(r<i>)`: memory at `r[i] + d`; `d` is a signed 64-bit constant. -/
  | indDisp (i : Reg) (d : BitVec 64)
  /-- `#<v>`: the 64-bit constant `v`; a source only. -/
  | imm (v : BitVec 64)
  deriving DecidableEq, Repr, Inhabited

/-- What an effective-address codec says of the bytes at one place (R76). `extra` counts the extension bytes
consumed after the first byte, so the length is `1 + extra`; the first byte itself is the `b` of `Unmodelled(b)`. -/
inductive CodecAnswer where
  | ok (ea : EADesc) (extra : Nat)
  | invalid
  | unmodelled
  deriving DecidableEq, Repr, Inhabited

/-- What a codec does once it has fetched some bytes of an effective address (R76): fetch the next one, or answer. -/
inductive CodecMove where
  | fetch
  | answer (a : CodecAnswer)
  deriving DecidableEq, Repr, Inhabited

/-- The 32 instructions of the Data Movement Group, in the order of the opcode map (R87). -/
inductive Instr where
  -- 0x4D to 0x50, 40_move.md
  | moveB (d s : EADesc)
  | moveW (d s : EADesc)
  | moveL (d s : EADesc)
  | moveQ (d s : EADesc)
  -- 0x51, 0x52, 41_savem_loadm.md
  | savem (ea : EADesc) (mask : BitVec 16)
  | loadm (ea : EADesc) (mask : BitVec 16)
  -- 0x53 to 0x60, 42_fmove_convert.md
  | fmovebS (d s : EADesc)
  | fmovebD (d s : EADesc)
  | fmovewS (d s : EADesc)
  | fmovewD (d s : EADesc)
  | fmovelS (d s : EADesc)
  | fmovelD (d s : EADesc)
  | fmoveqS (d s : EADesc)
  | fmoveqD (d s : EADesc)
  | fmovesL (d s : EADesc)
  | fmovesQ (d s : EADesc)
  | fmovesD (d s : EADesc)
  | fmovedL (d s : EADesc)
  | fmovedQ (d s : EADesc)
  | fmovedS (d s : EADesc)
  -- 0x61, 0x62, 43_fsavem_floadm.md
  | fsavem (ea : EADesc) (mask : BitVec 16)
  | floadm (ea : EADesc) (mask : BitVec 16)
  -- 0x63 to 0x66, 44_clr.md
  | clrB (ea : EADesc)
  | clrW (ea : EADesc)
  | clrL (ea : EADesc)
  | clrQ (ea : EADesc)
  -- 0x67 to 0x6A, 45_exg_fexg_swap.md
  | exg (s d : Reg)
  | fexg (s d : Reg)
  | swap (n : Reg)
  | swapL (n : Reg)
  -- 0x6B, 0x6C, 46_link_unlk.md
  | link (n : Reg) (disp : BitVec 32)
  | unlk (n : Reg)
  deriving DecidableEq, Repr, Inhabited

end Sys2Proof
end

