-- ==== Sys2Proof/Config.lean ====
section
/-! DEFINITION. The parameters the source leaves open (00_scope.md R9) and the free values (42_fmove_convert.md R132).
The record `Config` is plain data: a codec or a numerics other than the reference one is an index into an opaque
family, so that a statement about every `Config` is a statement about every instance of the hardware. -/

namespace Sys2Proof

/-- `BYTE_ORDER` (R40): one order for instruction fields and data alike. -/
inductive ByteOrder where
  | little
  | big
  deriving DecidableEq, Repr, Inhabited

/-- `ALIGN_POLICY` (R43): what a data access at an address that is not a multiple of its size does. -/
inductive AlignPolicy where
  | permit
  | fault
  deriving DecidableEq, Repr, Inhabited

/-- `EA_CODEC` (R76): the reference codec `RefEA` (R79), or any other one, known by an index only. -/
inductive Codec where
  | ref
  | other (id : Nat)
  deriving DecidableEq, Repr, Inhabited

/-- `NUMERICS` (R131): the reference numerics (R132), or any other one that obeys the laws of R148,
known by an index only. -/
inductive Numerics where
  | ref
  | other (id : Nat)
  deriving DecidableEq, Repr, Inhabited

/-- The record of the parameters the source leaves open (R9). `FLEN` is fixed at 64 by the spec and is
`Config.flen`. -/
structure Config where
  byteOrder : ByteOrder
  spIndex : Reg
  eaCodec : Codec
  alignPolicy : AlignPolicy
  numerics : Numerics
  deriving DecidableEq, Repr, Inhabited

/-- `FLEN` (R9, R24): the width of a floating point register. -/
abbrev Config.flen : Nat := 64

/-- `RefConfig` (R9): the record of all reference values. -/
def refConfig : Config where
  byteOrder := .little
  spIndex := 15
  eaCodec := .ref
  alignPolicy := .permit
  numerics := .ref

/-- What codec number `id` does once it has fetched the first byte of an effective address and the extension bytes
`ext` after it, and no other (R76): the real format is on a page that is not among the sources (N2). DESIGN CHOICE, log
entry 3. -/
opaque Config.otherCodec : (id : Nat) → (first : Byte) → (ext : List Byte) → CodecMove

/-- `OOR(N, s)` (R132) for a single `s` that is a NaN, infinite or out of range: a free value. -/
opaque Config.oorSingle : (N : Nat) → BitVec 32 → BitVec N

/-- `OOR(N, d)` (R132) for a double `d` that is a NaN, infinite or out of range: a free value. -/
opaque Config.oorDouble : (N : Nat) → BitVec 64 → BitVec N

/-- The sign bit of `NANMAP_SD(s)` (R132): a free value. -/
opaque Config.nanSignSD : BitVec 32 → Bool

/-- The fraction `NANMAP_SD(s)` takes before the all-zero fraction is ruled out (R132): a free value. -/
opaque Config.nanFracSD : BitVec 32 → BitVec 52

/-- The sign bit of `NANMAP_DS(d)` (R132): a free value. -/
opaque Config.nanSignDS : BitVec 64 → Bool

/-- The fraction `NANMAP_DS(d)` takes before the all-zero fraction is ruled out (R132): a free value. -/
opaque Config.nanFracDS : BitVec 64 → BitVec 23

/-- `I2S(x)` of numerics number `id` where no law of R148 fixes it: a free value. -/
opaque Config.otherI2S : (id : Nat) → Int → BitVec 32

/-- `I2D(x)` of numerics number `id` where no law of R148 fixes it: a free value. -/
opaque Config.otherI2D : (id : Nat) → Int → BitVec 64

/-- `S2I(N, s)` of numerics number `id` where no law of R148 fixes it: a free value. -/
opaque Config.otherS2I : (id N : Nat) → BitVec 32 → BitVec N

/-- `D2I(N, d)` of numerics number `id` where no law of R148 fixes it: a free value. -/
opaque Config.otherD2I : (id N : Nat) → BitVec 64 → BitVec N

/-- `S2D(s)` of numerics number `id` for a NaN `s`, where no law of R148 fixes it: a free value. -/
opaque Config.otherS2D : (id : Nat) → BitVec 32 → BitVec 64

/-- `D2S(d)` of numerics number `id` where no law of R148 fixes it: a free value. -/
opaque Config.otherD2S : (id : Nat) → BitVec 64 → BitVec 32

end Sys2Proof
end

