-- ==== Sys2Proof/Machine/Bytes.lean ====
section
/-! DEFINITION. Bytes to value and back under a byte order (20_memory.md R41), for data in memory and for the
multi-byte fields of instructions alike (R40, R72), and the nibbles of a byte (00_scope.md R10). -/

namespace Sys2Proof

/-- Bits 7:4 of a byte as a register number, the `H` of `0xHL` (R10). -/
def highNibble (b : Byte) : Reg := (b.extractLsb' 4 4).toFin

/-- Bits 3:0 of a byte as a register number, the `L` of `0xHL` (R10). -/
def lowNibble (b : Byte) : Reg := (b.extractLsb' 0 4).toFin

end Sys2Proof

namespace Sys2Proof.Machine

/-- The natural number whose base-256 digits, least significant first, are the bytes. -/
def leValue : List Byte → Nat
  | [] => 0
  | b :: bs => b.toNat + 256 * leValue bs

/-- The `n` low base-256 digits of `v`, least significant first. -/
def leDigits : Nat → Nat → List Byte
  | 0, _ => []
  | n + 1, v => BitVec.ofNat 8 v :: leDigits n (v / 256)

/-- Bytes in address order, read with the least significant byte first. -/
def leOrder (o : ByteOrder) (bs : List Byte) : List Byte :=
  match o with
  | .little => bs
  | .big => bs.reverse

/-- `FromBytes` (R41): the value of bytes given in address order. -/
def fromBytes (o : ByteOrder) (bs : List Byte) : Nat := leValue (leOrder o bs)

/-- `ToBytes` (R41): the `n` bytes of a value, in address order. -/
def toBytes (o : ByteOrder) (n v : Nat) : List Byte := leOrder o (leDigits n v)

end Sys2Proof.Machine
end

