-- ==== Sys2Proof/WellFormed.lean ====
section
/-! DEFINITION. Which effective-address shapes each operand allows (30_encoding.md R89), and which operands the
reference codec can spell (R79). -/

namespace Sys2Proof

/-- Whether the shape is `Imm`, which no destination may be (R89). -/
def EADesc.isImm : EADesc → Bool
  | .imm _ => true
  | .gReg _ | .fReg _ | .ind _ | .postInc _ | .postDec _ | .preInc _ | .preDec _ | .indDisp _ _ => false

/-- Whether the shape is one of the four stepping modes, the only ones `savem`, `loadm`, `fsavem` and `floadm`
allow (R89, R120). -/
def EADesc.isStepping : EADesc → Bool
  | .postInc _ | .postDec _ | .preInc _ | .preDec _ => true
  | .gReg _ | .fReg _ | .ind _ | .indDisp _ _ | .imm _ => false

/-- The shape checks of R89, per instruction. -/
def Instr.wellFormed : Instr → Bool
  | .moveB d _ | .moveW d _ | .moveL d _ | .moveQ d _ => !d.isImm
  | .savem ea _ | .loadm ea _ => ea.isStepping
  | .fmovebS d _ | .fmovebD d _ | .fmovewS d _ | .fmovewD d _ => !d.isImm
  | .fmovelS d _ | .fmovelD d _ | .fmoveqS d _ | .fmoveqD d _ => !d.isImm
  | .fmovesL d _ | .fmovesQ d _ | .fmovesD d _ => !d.isImm
  | .fmovedL d _ | .fmovedQ d _ | .fmovedS d _ => !d.isImm
  | .fsavem ea _ | .floadm ea _ => ea.isStepping
  | .clrB ea | .clrW ea | .clrL ea | .clrQ ea => !ea.isImm
  | .exg _ _ | .fexg _ _ | .swap _ | .swapL _ | .link _ _ | .unlk _ => true

/-- Whether `RefEA` has a spelling for the shape (R79): it never produces `Imm`, and its displacements are
sign-extended from 32 bits. -/
def EADesc.refEncodable : EADesc → Bool
  | .imm _ => false
  | .indDisp _ d => (d.setWidth 32).signExtend 64 == d
  | .gReg _ | .fReg _ | .ind _ | .postInc _ | .postDec _ | .preInc _ | .preDec _ => true

/-- Whether every effective address of the instruction has a spelling under `RefEA` (R79). -/
def Instr.refEncodable : Instr → Bool
  | .moveB d s | .moveW d s | .moveL d s | .moveQ d s => d.refEncodable && s.refEncodable
  | .savem ea _ | .loadm ea _ => ea.refEncodable
  | .fmovebS d s | .fmovebD d s | .fmovewS d s | .fmovewD d s => d.refEncodable && s.refEncodable
  | .fmovelS d s | .fmovelD d s | .fmoveqS d s | .fmoveqD d s => d.refEncodable && s.refEncodable
  | .fmovesL d s | .fmovesQ d s | .fmovesD d s => d.refEncodable && s.refEncodable
  | .fmovedL d s | .fmovedQ d s | .fmovedS d s => d.refEncodable && s.refEncodable
  | .fsavem ea _ | .floadm ea _ => ea.refEncodable
  | .clrB ea | .clrW ea | .clrL ea | .clrQ ea => ea.refEncodable
  | .exg _ _ | .fexg _ _ | .swap _ | .swapL _ | .link _ _ | .unlk _ => true

end Sys2Proof
end

