-- ==== Sys2Proof/Decode.lean ====
section
/-! DEFINITION. The decoder (30_encoding.md R90), total on any bytes and rejecting by name, and after it the encoder
of the reference codec, written from the same tables (R74, R79, R87). The decoder works on the program text from the
opcode byte onward; places are byte offsets from the opcode byte, which `Machine/Fetch.lean` turns into addresses. -/

namespace Sys2Proof

open Sys2Proof.Machine (fromBytes toBytes)

/-- Why bytes decode to no instruction. `off` is a byte offset from the opcode byte. -/
inductive DecodeError where
  /-- The byte at `off` lies outside the program text (R71). -/
  | pastEnd (off : Nat)
  /-- The opcode byte is below 0x4D or above 0x6C (R88 (a)). -/
  | opcodeOutOfGroup (op : Byte)
  /-- The bytes at `off` spell no effective address (R76). -/
  | invalidEA (off : Nat)
  /-- The bytes at `off`, the first of which is `b`, spell a mode without a meaning (R78). -/
  | unmodelledEA (off : Nat) (b : Byte)
  /-- The register byte `b` has a non-zero high nibble (R86). -/
  | reservedBits (b : Byte)
  /-- The destination is an immediate (R89). -/
  | immediateDestination
  /-- The operand of a multi-register transfer is not a stepping mode (R89). -/
  | illegalEAMode
  deriving DecidableEq, Repr, Inhabited

/-! ## Effective addresses -/

/-- The reference codec `RefEA` (R79), on the first byte and the text after it. The four displacement bytes of row
0x6 are read in the machine's byte order (R72); that they are there is checked by `takeEA`. -/
def refEA (o : ByteOrder) (first : Byte) (ext : List Byte) : CodecAnswer :=
  let i := lowNibble first
  match (highNibble first).val with
  | 0 => .ok (.gReg i) 0
  | 1 => .ok (.ind i) 0
  | 2 => .ok (.postInc i) 0
  | 3 => .ok (.postDec i) 0
  | 4 => .ok (.preInc i) 0
  | 5 => .ok (.preDec i) 0
  | 6 => .ok (.indDisp i ((BitVec.ofNat 32 (fromBytes o (ext.take 4))).signExtend 64)) 4
  | 7 => .ok (.fReg i) 0
  | _ => .unmodelled

/-- The answer of a codec that fetches one byte after another (R76), where `ext` are the extension bytes it has fetched
and `rest` is the text after them: it decides on the bytes it has fetched alone. `none` where it fetches past the end of
the text (R71). -/
def readCodec (codec : List Byte → CodecMove) (ext : List Byte) : List Byte → Option CodecAnswer
  | [] =>
    match codec ext with
    | .answer a => some a
    | .fetch => none
  | b :: rest =>
    match codec ext with
    | .answer a => some a
    | .fetch => readCodec codec (ext ++ [b]) rest

/-- The answer of the codec of the configuration (R76) on the first byte of an effective address and the text after it;
`none` where it fetches past the end of the text. -/
def codecAnswer (c : Config) (first : Byte) (text : List Byte) : Option CodecAnswer :=
  match c.eaCodec with
  | .ref => some (refEA c.byteOrder first text)
  | .other id => readCodec (Config.otherCodec id first) [] text

/-- `DecodeEA` at offset `off`, where `bs` is the text from there on (R76, R90): the address and its length. Every byte of
the address is fetched, so one that runs off the text is a fetch past its end. -/
def takeEA (c : Config) (off : Nat) (bs : List Byte) : Except DecodeError (EADesc × Nat) :=
  match bs with
  | [] => .error (.pastEnd off)
  | first :: ext =>
    match codecAnswer c first ext with
    | none => .error (.pastEnd (off + 1 + ext.length))
    | some (.ok ea extra) =>
      if extra ≤ ext.length then .ok (ea, 1 + extra) else .error (.pastEnd (off + 1 + ext.length))
    | some .invalid => .error (.invalidEA off)
    | some .unmodelled => .error (.unmodelledEA off first)

/-! ## Fixed fields -/

/-- `Fetch` of one byte at offset `off`, where `bs` is the text from there on (R71). -/
def takeByte (off : Nat) (bs : List Byte) : Except DecodeError Byte :=
  match bs with
  | [] => .error (.pastEnd off)
  | b :: _ => .ok b

/-- `FetchN(_, k)` at offset `off`, where `bs` is the text from there on (R72): the field's value. -/
def takeField (c : Config) (off k : Nat) (bs : List Byte) : Except DecodeError Nat :=
  if k ≤ bs.length then .ok (fromBytes c.byteOrder (bs.take k)) else .error (.pastEnd (off + bs.length))

/-- The register byte `0x0(N)` (R86): the register number, or the fault of a non-zero high nibble. -/
def takeReg (off : Nat) (bs : List Byte) : Except DecodeError Reg := do
  let b ← takeByte off bs
  if highNibble b ≠ 0 then .error (.reservedBits b) else .ok (lowNibble b)

/-! ## Formats and the opcode map -/

/-- The six formats (R74), each with the instruction it builds from its operands in byte-stream order. -/
inductive Format where
  | ds (mk : EADesc → EADesc → Instr)
  | e (mk : EADesc → Instr)
  | em (mk : EADesc → BitVec 16 → Instr)
  | rr (mk : Reg → Reg → Instr)
  | r (mk : Reg → Instr)
  | rd (mk : Reg → BitVec 32 → Instr)

/-- The opcode map (R87): the format of an opcode byte, `none` outside the group (R88 (a)). -/
def formatOf (op : Byte) : Option Format :=
  match op.toNat with
  | 0x4D => some (.ds .moveB)
  | 0x4E => some (.ds .moveW)
  | 0x4F => some (.ds .moveL)
  | 0x50 => some (.ds .moveQ)
  | 0x51 => some (.em .savem)
  | 0x52 => some (.em .loadm)
  | 0x53 => some (.ds .fmovebS)
  | 0x54 => some (.ds .fmovebD)
  | 0x55 => some (.ds .fmovewS)
  | 0x56 => some (.ds .fmovewD)
  | 0x57 => some (.ds .fmovelS)
  | 0x58 => some (.ds .fmovelD)
  | 0x59 => some (.ds .fmoveqS)
  | 0x5A => some (.ds .fmoveqD)
  | 0x5B => some (.ds .fmovesL)
  | 0x5C => some (.ds .fmovesQ)
  | 0x5D => some (.ds .fmovesD)
  | 0x5E => some (.ds .fmovedL)
  | 0x5F => some (.ds .fmovedQ)
  | 0x60 => some (.ds .fmovedS)
  | 0x61 => some (.em .fsavem)
  | 0x62 => some (.em .floadm)
  | 0x63 => some (.e .clrB)
  | 0x64 => some (.e .clrW)
  | 0x65 => some (.e .clrL)
  | 0x66 => some (.e .clrQ)
  | 0x67 => some (.rr .exg)
  | 0x68 => some (.rr .fexg)
  | 0x69 => some (.r .swap)
  | 0x6A => some (.r .swapL)
  | 0x6B => some (.rd .link)
  | 0x6C => some (.r .unlk)
  | _ => none

/-- The operands of one format, `bs` being the text after the opcode byte, with the instruction's whole length
(R74, R75), checked in the order R90 gives. -/
def decodeOperands (c : Config) (f : Format) (bs : List Byte) : Except DecodeError (Instr × Nat) :=
  match f with
  | .rr mk => do
    let b ← takeByte 1 bs
    .ok (mk (highNibble b) (lowNibble b), 2)
  | .r mk => do
    let n ← takeReg 1 bs
    .ok (mk n, 2)
  | .rd mk => do
    let n ← takeReg 1 bs
    let d ← takeField c 2 4 (bs.drop 1)
    .ok (mk n (BitVec.ofNat 32 d), 6)
  | .e mk => do
    let p ← takeEA c 1 bs
    if p.1.isImm then .error .immediateDestination else .ok (mk p.1, 1 + p.2)
  | .em mk => do
    let p ← takeEA c 1 bs
    if !p.1.isStepping then .error .illegalEAMode else do
      let m ← takeField c (1 + p.2) 2 (bs.drop p.2)
      .ok (mk p.1 (BitVec.ofNat 16 m), 3 + p.2)
  | .ds mk => do
    let d ← takeEA c 1 bs
    let s ← takeEA c (1 + d.2) (bs.drop d.2)
    if d.1.isImm then .error .immediateDestination else .ok (mk d.1 s.1, 1 + d.2 + s.2)

/-- `Decode` (R90): the instruction at the head of the text and its length in bytes. -/
def decode (c : Config) (bs : List Byte) : Except DecodeError (Instr × Nat) :=
  match bs with
  | [] => .error (.pastEnd 0)
  | op :: rest =>
    match formatOf op with
    | none => .error (.opcodeOutOfGroup op)
    | some f => decodeOperands c f rest

/-! ## The encoder of the reference codec -/

/-- The byte `0xHL` with high nibble `hi` and low nibble `lo` (R10). -/
def nibbles (hi lo : Reg) : Byte := BitVec.ofNat 8 (16 * hi.val + lo.val)

/-- The bytes `RefEA` reads as a shape (R79); `none` for a shape it never produces. -/
def encodeEA (o : ByteOrder) (ea : EADesc) : Option (List Byte) :=
  match ea with
  | .gReg i => some [nibbles 0 i]
  | .ind i => some [nibbles 1 i]
  | .postInc i => some [nibbles 2 i]
  | .postDec i => some [nibbles 3 i]
  | .preInc i => some [nibbles 4 i]
  | .preDec i => some [nibbles 5 i]
  | .indDisp i d =>
    if (d.setWidth 32).signExtend 64 = d then some (nibbles 6 i :: toBytes o 4 (d.setWidth 32).toNat) else none
  | .fReg i => some [nibbles 7 i]
  | .imm _ => none

/-- Format `DS` (R74). -/
def encodeDS (o : ByteOrder) (op : Byte) (d s : EADesc) : Option (List Byte) := do
  let db ← encodeEA o d
  let sb ← encodeEA o s
  some (op :: db ++ sb)

/-- Format `E` (R74). -/
def encodeE (o : ByteOrder) (op : Byte) (ea : EADesc) : Option (List Byte) := do
  let eb ← encodeEA o ea
  some (op :: eb)

/-- Format `EM` (R74, R83). -/
def encodeEM (o : ByteOrder) (op : Byte) (ea : EADesc) (m : BitVec 16) : Option (List Byte) := do
  let eb ← encodeEA o ea
  some (op :: eb ++ toBytes o 2 m.toNat)

/-- The bytes of a well-formed instruction under the reference codec (R74, R79, R87); `none` where an operand has
no spelling in it. -/
def encode (o : ByteOrder) (i : Instr) : Option (List Byte) :=
  match i with
  | .moveB d s => encodeDS o 0x4D d s
  | .moveW d s => encodeDS o 0x4E d s
  | .moveL d s => encodeDS o 0x4F d s
  | .moveQ d s => encodeDS o 0x50 d s
  | .savem ea m => encodeEM o 0x51 ea m
  | .loadm ea m => encodeEM o 0x52 ea m
  | .fmovebS d s => encodeDS o 0x53 d s
  | .fmovebD d s => encodeDS o 0x54 d s
  | .fmovewS d s => encodeDS o 0x55 d s
  | .fmovewD d s => encodeDS o 0x56 d s
  | .fmovelS d s => encodeDS o 0x57 d s
  | .fmovelD d s => encodeDS o 0x58 d s
  | .fmoveqS d s => encodeDS o 0x59 d s
  | .fmoveqD d s => encodeDS o 0x5A d s
  | .fmovesL d s => encodeDS o 0x5B d s
  | .fmovesQ d s => encodeDS o 0x5C d s
  | .fmovesD d s => encodeDS o 0x5D d s
  | .fmovedL d s => encodeDS o 0x5E d s
  | .fmovedQ d s => encodeDS o 0x5F d s
  | .fmovedS d s => encodeDS o 0x60 d s
  | .fsavem ea m => encodeEM o 0x61 ea m
  | .floadm ea m => encodeEM o 0x62 ea m
  | .clrB ea => encodeE o 0x63 ea
  | .clrW ea => encodeE o 0x64 ea
  | .clrL ea => encodeE o 0x65 ea
  | .clrQ ea => encodeE o 0x66 ea
  | .exg s d => some [0x67, nibbles s d]
  | .fexg s d => some [0x68, nibbles s d]
  | .swap n => some [0x69, nibbles 0 n]
  | .swapL n => some [0x6A, nibbles 0 n]
  | .link n d => some (0x6B :: nibbles 0 n :: toBytes o 4 d.toNat)
  | .unlk n => some [0x6C, nibbles 0 n]

/-! ## The opcode table's words -/

/-- The longest instruction under `RefEA` (R75): `DS` with two displacement modes. -/
def longestInstr : Nat := 11

/-- The bytes of an instruction whose bits are the low `nbits` of `w`, bit 0 the least significant bit of the first
byte, with zero bytes after them up to the longest instruction. -/
def tableBytes (nbits w : Nat) : List Byte :=
  (List.range (max (nbits / 8) longestInstr)).map fun k => BitVec.ofNat 8 ((w % 2 ^ nbits) >>> (8 * k))

/-- The instruction the decoder reads from a word of the opcode table, under `RefConfig`. -/
def decodeTableWord (nbits w : Nat) : Option Instr :=
  match decode refConfig (tableBytes nbits w) with
  | .ok p => some p.1
  | .error _ => none

end Sys2Proof
end

