-- ==== Sys2Proof/Machine/State.lean ====
section
/-! DEFINITION. The state of the machine (10_state.md), the names of its stops (60_exceptions.md) and the state right
after reset. What the spec calls parameters of the step (`Config`, the program text, `CODE_BASE`, `MEM_VALID`, R35)
stands in the record `Launch`, which no step changes. -/

namespace Sys2Proof.Machine

/-- Whether a data access reads or writes (R208). -/
inductive AccessKind where
  | read
  | write
  deriving DecidableEq, Repr, Inhabited

/-- The faults of the spec (R202 to R205, R208 to R210): each ends the run (R200). All are safe: the real machine may
go on where the model stops, and a stopped run satisfies no claim. -/
inductive Fault where
  /-- R202. The codec calls the bytes at `p` no effective address. Raised while decoding formats `DS`, `E`, `EM`. Safe. -/
  | invalidEA (pc p : Addr)
  /-- R203. `savem`, `loadm`, `fsavem`, `floadm` with a shape that is not a stepping mode. Raised while decoding. Safe. -/
  | illegalEAMode (pc : Addr)
  /-- R204. The register byte `b` of `swap`, `swap.l`, `link`, `unlk` has a non-zero high nibble. Raised while
  decoding. Safe. -/
  | reservedBits (pc : Addr) (b : Byte)
  /-- R205. The destination of format `DS` or the operand of `clr` is an immediate. Raised while decoding. Safe. -/
  | immediateDestination (pc : Addr)
  /-- R208. A data access of `n` bytes at `a` that `MEM_VALID` does not admit. Raised by every access to data
  memory. Safe. -/
  | memAccess (a : Addr) (n : Nat) (kind : AccessKind)
  /-- R209. A data access of `n` bytes at `a`, not a multiple of `n`, under `ALIGN_POLICY = fault`. Raised by every
  access to data memory. Safe. -/
  | misaligned (a : Addr) (n : Nat)
  /-- R210. A fetch at `a`, outside the program text. Raised while decoding. Safe. -/
  | fetchPastEnd (a : Addr)
  deriving DecidableEq, Repr, Inhabited

/-- The refusals of the spec (R201, R206, R207): bytes that may well be a good instruction of the real machine, whose
meaning no source gives. All are safe: nothing is claimed of a refused run. -/
inductive Refusal where
  /-- Raised by `exec` for an instruction that has no meaning in the model yet; no arm uses it. Safe. -/
  | notModelled (mnemonic : String)
  /-- R206. The opcode byte `op` at `pc` belongs to another group. Raised while decoding. Safe. -/
  | opcodeOutOfGroup (pc : Addr) (op : Byte)
  /-- R207. The effective address at `p`, with first byte `b`, is a mode without a meaning. Raised while decoding.
  Safe. -/
  | unmodelledEA (pc p : Addr) (b : Byte)
  deriving DecidableEq, Repr, Inhabited

/-- The outcome of a run so far (R33, R34, R200, R234). -/
inductive RunOutcome where
  | running
  | ended
  | faulted (f : Fault)
  | refused (q : Refusal)
  deriving DecidableEq, Repr, Inhabited

/-- The addresses `first` to `last`, both included. -/
structure AddrRange where
  first : Addr
  last : Addr
  deriving DecidableEq, Repr, Inhabited

/-- What a launch fixes for a whole run (R9, R35, R230, R233): the configuration, the program text `prog` and the
address of its first byte, and the valid data addresses `MEM_VALID` (R46) as a list of ranges. -/
structure Launch where
  config : Config
  prog : List Byte
  codeBase : Addr
  memValid : List AddrRange
  deriving DecidableEq, Repr, Inhabited

/-- Data memory (R32, R42): address and byte pairs in one canonical form, see `Machine/Memory.lean`. -/
abbrev Memory := List Host.Cell

/-- The state of the machine. -/
structure State where
  /-- The general purpose registers `r0` to `r15`, 64 bits each (R20). -/
  r : Vector Quad 16
  /-- The floating point registers `fp0` to `fp15`, 64-bit patterns (R24). -/
  fp : Vector Quad 16
  /-- The program counter (R27). -/
  pc : Addr
  /-- Data memory (R32). -/
  mem : Memory
  /-- The outcome of the run so far (R33). -/
  outcome : RunOutcome
  /-- What the launch fixed (R35). -/
  launch : Launch
  deriving DecidableEq, Repr

/-- The launch the model starts from where nothing is placed. The spec gives a launch no values (R34, R230): the
reference configuration, an empty text at address 0 and every data address valid are the model's (DESIGN CHOICE,
log entries 1 and 5, unsafe). -/
def Launch.reset : Launch where
  config := refConfig
  prog := []
  codeBase := 0
  memValid := [{ first := 0, last := BitVec.allOnes 64 }]

/-- The machine right after reset. `pc` is `CODE_BASE` and the run is running (R34); the registers' zeros are the
model's, the spec stating no value (DESIGN CHOICE, log entry 4, unsafe). -/
def State.reset : State where
  r := Vector.replicate 16 0
  fp := Vector.replicate 16 0
  pc := Launch.reset.codeBase
  mem := []
  outcome := .running
  launch := Launch.reset

end Sys2Proof.Machine
end

