-- ==== Sys2Proof/Machine/Memory.lean ====
section
/-! DEFINITION. Data memory as plain data: one byte read and written at a time, in one canonical form (20_memory.md
R42, R49). -/

namespace Sys2Proof.Machine

/-- What an address that is not listed reads as. The spec gives memory no contents at reset (R34): DESIGN CHOICE, log
entry 4, unsafe. -/
def Memory.fill : Byte := 0

/-- The byte at address `a`. -/
def Memory.get : Memory → Nat → Byte
  | [], _ => Memory.fill
  | (k, v) :: m, a => if a = k then v else Memory.get m a

/-- The memory with the entry `(a, b)` in its place among the rising addresses, instead of any entry for `a`. -/
def Memory.insert : Memory → Nat → Byte → Memory
  | [], a, b => [(a, b)]
  | (k, v) :: m, a, b =>
    if a < k then (a, b) :: (k, v) :: m else if a = k then (k, b) :: m else (k, v) :: Memory.insert m a b

/-- The memory without an entry for address `a`. -/
def Memory.erase (m : Memory) (a : Nat) : Memory := m.filter fun c => c.1 != a

/-- The memory with byte `b` at address `a`; writing the fill byte removes the entry, so the form stays canonical. -/
def Memory.set (m : Memory) (a : Nat) (b : Byte) : Memory := if b = Memory.fill then m.erase a else m.insert a b

/-- The memory with the bytes stored from address `a` upward (the last line of R48). -/
def Memory.store : Memory → Nat → List Byte → Memory
  | m, _, [] => m
  | m, a, b :: bs => Memory.store (Memory.set m a b) (a + 1) bs

/-- The `n` bytes from address `a` upward. -/
def Memory.load (m : Memory) (a n : Nat) : List Byte := (List.range n).map fun k => m.get (a + k)

/-- The canonical form: addresses strictly rising, no entry equal to what an unlisted address reads as. -/
def Memory.wf : Memory → Bool
  | [] => true
  | (k, v) :: m => v != Memory.fill && m.all (fun c => decide (k < c.1)) && Memory.wf m

end Sys2Proof.Machine
end

