-- ==== Sys2Proof/Machine/Ops.lean ====
section
/-! DEFINITION. The named operations over registers and memory: register reads and writes (10_state.md R20 to R25),
`MemRead` and `MemWrite` (20_memory.md R43, R46 to R48), and how a fault ends an instruction (60_exceptions.md R200).
There is no trap entry and no return from one (R213, R214): a fault is a stop. -/

namespace Sys2Proof.Machine

/-! ## Registers -/

/-- `r[i]` (R20). -/
def State.getR (s : State) (i : Reg) : Quad := s.r[i]

/-- `r[i] <- v` (R20): all 64 bits; no register is hardwired. -/
def State.setR (s : State) (i : Reg) (v : Quad) : State := { s with r := s.r.set i v }

/-- `fp[i]` (R24). -/
def State.getFp (s : State) (i : Reg) : Quad := s.fp[i]

/-- `fp[i] <- v` (R24): the pattern as it is. -/
def State.setFp (s : State) (i : Reg) (v : Quad) : State := { s with fp := s.fp.set i v }

/-- `Config.SP_INDEX` (R22). -/
def State.spIndex (s : State) : Reg := s.launch.config.spIndex

/-- `sp`, another name of `r[SP_INDEX]` (R22). -/
def State.sp (s : State) : Quad := s.getR s.spIndex

/-- `sp <- v` (R22). -/
def State.setSp (s : State) (v : Quad) : State := s.setR s.spIndex v

/-- The low bits of a register as an operand of size `sz` reads them (R21, R25). -/
def lowBits (sz : Size) (v : Quad) : BitVec sz.bits := v.setWidth sz.bits

/-- A register after a write of size `sz`: bits `8n-1:0` replaced, bits `63:8n` kept (R21, R25). -/
def insertLow (sz : Size) (old : Quad) (v : BitVec sz.bits) : Quad :=
  ((old >>> sz.bits) <<< sz.bits) ||| v.setWidth 64

/-! ## Memory -/

/-- Whether the range holds address `a`. -/
def AddrRange.contains (g : AddrRange) (a : Nat) : Bool := decide (g.first.toNat ≤ a) && decide (a ≤ g.last.toNat)

/-- Whether address `a` is in `MEM_VALID` (R46). -/
def Launch.valid (l : Launch) (a : Nat) : Bool := l.memValid.any (·.contains a)

/-- Whether an access of `n` bytes at `a` is admitted (R46): it does not run off the top of the address space and
every byte of it is in `MEM_VALID`. -/
def Launch.admitted (l : Launch) (a : Addr) (n : Nat) : Bool :=
  decide (a.toNat + n ≤ 2 ^ 64) && (List.range n).all fun k => l.valid (a.toNat + k)

/-- The fault an access of `n` bytes at `a` meets, if any: alignment first, then validity (R47, R48, R211). -/
def State.accessFault (s : State) (a : Addr) (n : Nat) (kind : AccessKind) : Option Fault :=
  if s.launch.config.alignPolicy = .fault ∧ a.toNat % n ≠ 0 then some (.misaligned a n)
  else if s.launch.admitted a n then none
  else some (.memAccess a n kind)

/-- The value of the bytes at `a`, once the access is admitted (the last line of R47). -/
def State.peek (s : State) (a : Addr) (sz : Size) : BitVec sz.bits :=
  BitVec.ofNat sz.bits (fromBytes s.launch.config.byteOrder (s.mem.load a.toNat sz.bytes))

/-- The state with the bytes of `v` at `a`, once the access is admitted (the last two lines of R48). -/
def State.poke (s : State) (a : Addr) (sz : Size) (v : BitVec sz.bits) : State :=
  { s with mem := s.mem.store a.toNat (toBytes s.launch.config.byteOrder sz.bytes v.toNat) }

/-- `MemRead(a, n)` (R47): a value, or the fault of the access; no state changes. -/
def State.memRead (s : State) (a : Addr) (sz : Size) : Except Fault (BitVec sz.bits) :=
  match s.accessFault a sz.bytes .read with
  | some f => .error f
  | none => .ok (s.peek a sz)

/-- `MemWrite(a, n, v)` (R48): the state with the `n` bytes written, or the fault of the access. -/
def State.memWrite (s : State) (a : Addr) (sz : Size) (v : BitVec sz.bits) : Except Fault State :=
  match s.accessFault a sz.bytes .write with
  | some f => .error f
  | none => .ok (s.poke a sz v)

/-! ## The end of an instruction -/

/-- An instruction's effect as an outcome: it completes, or its first fault ends the run (R200, R211). -/
def finish (e : Except Fault State) : Host.Outcome State Fault Refusal :=
  match e with
  | .ok s => .next s
  | .error f => .fault f

end Sys2Proof.Machine
end

