-- ==== Sys2Proof/Machine/Operands.lean ====
section
/-! DEFINITION. Operands: resolving an effective address, reading and writing a location (30_encoding.md R80 to R82),
the transfer of one operand to another (40_move.md R110, 42_fmove_convert.md R133) and of registers to and from memory
(41_savem_loadm.md R121). -/

namespace Sys2Proof.Machine

/-! ## Locations -/

/-- What an effective address resolves to (R80). -/
inductive Loc where
  | gReg (i : Reg)
  | fReg (i : Reg)
  | mem (a : Addr)
  | imm (v : BitVec 64)
  deriving DecidableEq, Repr, Inhabited

/-- The location `Resolve(ea, n)` gives (R80). -/
def State.locOf (s : State) (ea : EADesc) (n : Nat) : Loc :=
  match ea with
  | .gReg i => .gReg i
  | .fReg i => .fReg i
  | .imm v => .imm v
  | .ind i => .mem (s.getR i)
  | .indDisp i d => .mem (s.getR i + d)
  | .postInc i => .mem (s.getR i)
  | .postDec i => .mem (s.getR i)
  | .preInc i => .mem (s.getR i + BitVec.ofNat 64 n)
  | .preDec i => .mem (s.getR i - BitVec.ofNat 64 n)

/-- The state after `Resolve(ea, n)` (R80): a stepping mode has stepped its register by the operand's size. -/
def State.stepEA (s : State) (ea : EADesc) (n : Nat) : State :=
  match ea with
  | .gReg _ | .fReg _ | .imm _ | .ind _ | .indDisp _ _ => s
  | .postInc i | .preInc i => s.setR i (s.getR i + BitVec.ofNat 64 n)
  | .postDec i | .preDec i => s.setR i (s.getR i - BitVec.ofNat 64 n)

/-- `ReadLoc(loc, n)` (R81). -/
def State.readLoc (s : State) (loc : Loc) (sz : Size) : Except Fault (BitVec sz.bits) :=
  match loc with
  | .gReg i => .ok (lowBits sz (s.getR i))
  | .fReg i => .ok (lowBits sz (s.getFp i))
  | .mem a => s.memRead a sz
  | .imm v => .ok (lowBits sz v)

/-- `WriteLoc(loc, n, v)` (R82). A constant is never written: decoding rejects it, and so does every meaning first
(R89). -/
def State.writeLoc (s : State) (loc : Loc) (sz : Size) (v : BitVec sz.bits) : Except Fault State :=
  match loc with
  | .gReg i => .ok (s.setR i (insertLow sz (s.getR i) v))
  | .fReg i => .ok (s.setFp i (insertLow sz (s.getFp i) v))
  | .mem a => s.memWrite a sz v
  | .imm _ => .error (.immediateDestination s.pc)

/-! ## One operand to another -/

/-- `Convert(n_s, n_d, f)` (R133), and `Move(n)` (R110) with both sizes `n` and `f` the identity: the destination
resolves first, then the source, the source is read whole, the destination is written. -/
def transfer (ss ds : Size) (f : BitVec ss.bits → BitVec ds.bits) (d e : EADesc) (s : State) : Except Fault State :=
  if d.isImm then .error (.immediateDestination s.pc)
  else do
    let s1 := s.stepEA d ds.bytes
    let s2 := s1.stepEA e ss.bytes
    let v ← s2.readLoc (s1.locOf e ss.bytes) ss
    s2.writeLoc (s.locOf d ds.bytes) ds (f v)

/-- `Clear(n)` (R170): the operand resolves, then zero is written; nothing is read. -/
def clear (sz : Size) (ea : EADesc) (s : State) : Except Fault State :=
  if ea.isImm then .error (.immediateDestination s.pc)
  else (s.stepEA ea sz.bytes).writeLoc (s.locOf ea sz.bytes) sz 0

/-! ## Sets of registers -/

/-- The register file of a multi-register transfer (R121): `r` or `fp`. -/
inductive RegFile where
  | gpr
  | fpr
  deriving DecidableEq, Repr, Inhabited

/-- `file[i]` (R121). -/
def State.getFile (s : State) (file : RegFile) (i : Reg) : Quad :=
  match file with
  | .gpr => s.getR i
  | .fpr => s.getFp i

/-- `file[i] <- v` (R121). -/
def State.setFile (s : State) (file : RegFile) (i : Reg) (v : Quad) : State :=
  match file with
  | .gpr => s.setR i v
  | .fpr => s.setFp i v

/-- The four stepping modes (R120). -/
inductive StepMode where
  | postInc
  | postDec
  | preInc
  | preDec
  deriving DecidableEq, Repr, Inhabited

/-- The mode and the base register of a stepping shape (R120). -/
def stepModeOf : EADesc → Option (StepMode × Reg)
  | .postInc b => some (.postInc, b)
  | .postDec b => some (.postDec, b)
  | .preInc b => some (.preInc, b)
  | .preDec b => some (.preDec, b)
  | .gReg _ | .fReg _ | .ind _ | .indDisp _ _ | .imm _ => none

/-- The order the registers go in (R121 (c)): ascending when the address ascends, descending when it descends. -/
def StepMode.order : StepMode → List Reg
  | .postInc | .preInc => List.finRange 16
  | .postDec | .preDec => (List.finRange 16).reverse

/-- The running address as a register is about to be transferred (R121). -/
def StepMode.before (mode : StepMode) (a : Addr) : Addr :=
  match mode with
  | .preInc => a + 8
  | .preDec => a - 8
  | .postInc | .postDec => a

/-- The running address after a register has been transferred, from the one it was transferred at (R121). -/
def StepMode.after (mode : StepMode) (a : Addr) : Addr :=
  match mode with
  | .postInc => a + 8
  | .postDec => a - 8
  | .preInc | .preDec => a

/-- The registers of a mask in the order they go (R121): bit `i` is register `i` in every mode (R83). -/
def StepMode.registers (mode : StepMode) (m : BitVec 16) : List Reg := mode.order.filter fun i => m.getLsbD i.val

/-- The loop of R121 with `dir = save`, over the registers still to go: the final running address and state. -/
def saveLoop (file : RegFile) (mode : StepMode) : List Reg → Addr → State → Except Fault (Addr × State)
  | [], a, s => .ok (a, s)
  | i :: is, a, s => do
    let s' ← s.memWrite (mode.before a) .q (s.getFile file i)
    saveLoop file mode is (mode.after (mode.before a)) s'

/-- The loop of R121 with `dir = load`, over the registers still to go: the final running address and state. -/
def loadLoop (file : RegFile) (mode : StepMode) : List Reg → Addr → State → Except Fault (Addr × State)
  | [], a, s => .ok (a, s)
  | i :: is, a, s => do
    let v ← s.memRead (mode.before a) .q
    loadLoop file mode is (mode.after (mode.before a)) (s.setFile file i v)

/-- `Multi(file, save, ea, M)` (R121). The base register is read before the loop and written after it. -/
def saveMulti (file : RegFile) (ea : EADesc) (m : BitVec 16) (s : State) : Except Fault State :=
  match stepModeOf ea with
  | none => .error (.illegalEAMode s.pc)
  | some (mode, b) => do
    let p ← saveLoop file mode (mode.registers m) (s.getR b) s
    .ok (p.2.setR b p.1)

/-- `Multi(file, load, ea, M)` (R121). The base register is read before the loop and written after it. -/
def loadMulti (file : RegFile) (ea : EADesc) (m : BitVec 16) (s : State) : Except Fault State :=
  match stepModeOf ea with
  | none => .error (.illegalEAMode s.pc)
  | some (mode, b) => do
    let p ← loadLoop file mode (mode.registers m) (s.getR b) s
    .ok (p.2.setR b p.1)

end Sys2Proof.Machine
end

