-- ==== Sys2Proof/Machine/Clear.lean ====
section
/-! DEFINITION. CLR (44_clr.md): zero to the sized operand, the rest of a register kept (R170). -/

namespace Sys2Proof.Machine

/-- `clr.b` (R171). -/
def execClrB (ea : EADesc) (s : State) : Host.Outcome State Fault Refusal := finish (clear .b ea s)

/-- `clr.w` (R172). -/
def execClrW (ea : EADesc) (s : State) : Host.Outcome State Fault Refusal := finish (clear .w ea s)

/-- `clr.l` (R173). -/
def execClrL (ea : EADesc) (s : State) : Host.Outcome State Fault Refusal := finish (clear .l ea s)

/-- `clr.q` (R174). -/
def execClrQ (ea : EADesc) (s : State) : Host.Outcome State Fault Refusal := finish (clear .q ea s)

end Sys2Proof.Machine
end

