-- ==== Sys2Proof/Machine/Numerics.lean ====
section
/-! DEFINITION. The six conversion functions of `Config.NUMERICS` (42_fmove_convert.md R131) over binary32 and binary64
patterns: the reference numerics (R132), and for any other numerics the values the laws of R148 fix and a free value
everywhere else. A finite pattern's magnitude is held exactly, as a natural number of the format's smallest subnormal,
so that every rounding is arithmetic on naturals. -/

namespace Sys2Proof.Machine

/-! ## The two formats -/

/-- A binary floating point format: a single is binary32, a double binary64 (R131). -/
inductive Fmt where
  | single
  | double
  deriving DecidableEq, Repr, Inhabited

/-- The bits of a pattern. -/
@[reducible] def Fmt.width : Fmt → Nat
  | .single => 32
  | .double => 64

/-- The bits of the fraction field. -/
@[reducible] def Fmt.fracBits : Fmt → Nat
  | .single => 23
  | .double => 52

/-- The exponent field of infinities and NaNs, all ones. -/
@[reducible] def Fmt.expTop : Fmt → Nat
  | .single => 255
  | .double => 2047

/-- The smallest subnormal is `2 ^ -(unit)`. -/
@[reducible] def Fmt.unit : Fmt → Nat
  | .single => 149
  | .double => 1074

/-- The fraction field of a pattern. -/
def Fmt.frac (f : Fmt) (p : BitVec f.width) : Nat := p.toNat % 2 ^ f.fracBits

/-- The exponent field of a pattern. -/
def Fmt.exp (f : Fmt) (p : BitVec f.width) : Nat := p.toNat / 2 ^ f.fracBits % (f.expTop + 1)

/-- The sign bit of a pattern. -/
def Fmt.neg (f : Fmt) (p : BitVec f.width) : Bool := p.msb

/-- Whether the pattern denotes a NaN. -/
def Fmt.isNaN (f : Fmt) (p : BitVec f.width) : Bool := f.exp p == f.expTop && f.frac p != 0

/-- Whether the pattern denotes an infinity. -/
def Fmt.isInf (f : Fmt) (p : BitVec f.width) : Bool := f.exp p == f.expTop && f.frac p == 0

/-- Whether the pattern denotes a finite number. -/
def Fmt.isFinite (f : Fmt) (p : BitVec f.width) : Bool := f.exp p != f.expTop

/-- The magnitude of a finite pattern, in units of `2 ^ -(f.unit)`: a subnormal is its fraction, a normal number has
the implied leading one and is scaled by its exponent. -/
def Fmt.mag (f : Fmt) (p : BitVec f.width) : Nat :=
  if f.exp p = 0 then f.frac p else (2 ^ f.fracBits + f.frac p) * 2 ^ (f.exp p - 1)

/-- `val(p)` of a finite pattern (R132), in units of `2 ^ -(f.unit)`. -/
def Fmt.val (f : Fmt) (p : BitVec f.width) : Int := if f.neg p then -(f.mag p : Int) else f.mag p

/-- The pattern with the given sign whose other bits are `bits`. -/
def Fmt.pattern (f : Fmt) (neg : Bool) (bits : Nat) : BitVec f.width :=
  BitVec.ofNat f.width ((if neg then 2 ^ (f.width - 1) else 0) + bits)

/-- The infinity of the given sign. -/
def Fmt.infinity (f : Fmt) (neg : Bool) : BitVec f.width := f.pattern neg (f.expTop * 2 ^ f.fracBits)

/-! ## Rounding -/

/-- `m / 2 ^ t` rounded to the nearest integer, a tie to the even one. -/
def roundShift (m t : Nat) : Nat :=
  let q := m / 2 ^ t
  let rem := m % 2 ^ t
  if 2 * rem < 2 ^ t then q
  else if 2 ^ t < 2 * rem then q + 1
  else q + q % 2

/-- The exponent and fraction bits of the format's nearest value to `m / 2 ^ k` units, a tie to the even fraction; the
bits of infinity where that lies above the largest finite value (R132). The quotient is cut to the fraction's width
plus the leading one by a shift of `e` places; as the rounded quotient carries that one, adding `e` to the exponent
field gives the bits, whether the result is subnormal, normal or carried into the next binade. -/
def Fmt.roundBits (f : Fmt) (m k : Nat) : Nat :=
  let e := Nat.log2 (m / 2 ^ k) - f.fracBits
  min (e * 2 ^ f.fracBits + roundShift m (k + e)) (f.expTop * 2 ^ f.fracBits)

/-! ## The conversions of the reference numerics -/

/-- `I2S` and `I2D` of `RefNumerics` (R132). -/
def refIntToFloat (f : Fmt) (x : Int) : BitVec f.width :=
  f.pattern (decide (x < 0)) (f.roundBits (x.natAbs * 2 ^ f.unit) 0)

/-- `trunc(val(p))` of a finite pattern (R132): the fraction is dropped. -/
def Fmt.trunc (f : Fmt) (p : BitVec f.width) : Int :=
  if f.neg p then -((f.mag p / 2 ^ f.unit : Nat) : Int) else ((f.mag p / 2 ^ f.unit : Nat) : Int)

/-- Whether `x` lies in the range of an `N`-bit signed integer (R132). -/
def inSignedRange (N : Nat) (x : Int) : Bool := decide (-(2 ^ (N - 1) : Int) ≤ x) && decide (x < 2 ^ (N - 1))

/-- Whether `trunc(val(p))` exists and fits `N` bits, the condition of `S2I` and `D2I` (R132). -/
def Fmt.truncFits (f : Fmt) (N : Nat) (p : BitVec f.width) : Bool := f.isFinite p && inSignedRange N (f.trunc p)

/-- `NANMAP_SD(s)` (R132): some binary64 NaN pattern, its sign and fraction free. -/
def nanMapSD (s : BitVec 32) : BitVec 64 :=
  Fmt.pattern .double (Config.nanSignSD s) (2047 * 2 ^ 52 + max 1 (Config.nanFracSD s).toNat)

/-- `NANMAP_DS(d)` (R132): some binary32 NaN pattern, its sign and fraction free. -/
def nanMapDS (d : BitVec 64) : BitVec 32 :=
  Fmt.pattern .single (Config.nanSignDS d) (255 * 2 ^ 23 + max 1 (Config.nanFracDS d).toNat)

/-- The double that denotes exactly the number or infinity a single denotes (R132, R148 (d)). -/
def exactSingleToDouble (s : BitVec 32) : BitVec 64 :=
  if Fmt.isInf .single s then Fmt.infinity .double (Fmt.neg .single s)
  else Fmt.pattern .double (Fmt.neg .single s) (Fmt.roundBits .double (Fmt.mag .single s * 2 ^ 925) 0)

/-- The single nearest to the number or infinity a double denotes (R132). -/
def nearestDoubleToSingle (d : BitVec 64) : BitVec 32 :=
  if Fmt.isInf .double d then Fmt.infinity .single (Fmt.neg .double d)
  else Fmt.pattern .single (Fmt.neg .double d) (Fmt.roundBits .single (Fmt.mag .double d) 925)

/-- Whether the double denotes a binary32 value, an infinity included (R148 (f)). -/
def isSingleValue (d : BitVec 64) : Bool :=
  Fmt.isInf .double d ||
    (Fmt.isFinite .double d && Fmt.isFinite .single (nearestDoubleToSingle d) &&
      Fmt.mag .single (nearestDoubleToSingle d) * 2 ^ 925 == Fmt.mag .double d)

/-- Whether the finite pattern denotes an integer that fits `N` bits (R148 (e)). -/
def Fmt.isIntValue (f : Fmt) (N : Nat) (p : BitVec f.width) : Bool :=
  f.truncFits N p && f.mag p % 2 ^ f.unit == 0

/-- Whether the reference numerics converts the integer exactly, that is, whether some pattern denotes it
(R148 (a), (b)). -/
def intIsExact (f : Fmt) (x : Int) : Bool := f.mag (refIntToFloat f x) == x.natAbs * 2 ^ f.unit

/-! ## The numerics of the configuration -/

/-- `I2S(x)` (R131). -/
def i2s (nm : Numerics) (x : Int) : BitVec 32 :=
  match nm with
  | .ref => refIntToFloat .single x
  | .other id => if intIsExact .single x then refIntToFloat .single x else Config.otherI2S id x

/-- `I2D(x)` (R131). -/
def i2d (nm : Numerics) (x : Int) : BitVec 64 :=
  match nm with
  | .ref => refIntToFloat .double x
  | .other id => if intIsExact .double x then refIntToFloat .double x else Config.otherI2D id x

/-- `S2I(N, s)` (R131). -/
def s2i (nm : Numerics) (N : Nat) (s : BitVec 32) : BitVec N :=
  match nm with
  | .ref => if Fmt.truncFits .single N s then BitVec.ofInt N (Fmt.trunc .single s) else Config.oorSingle N s
  | .other id =>
    if Fmt.isIntValue .single N s then BitVec.ofInt N (Fmt.trunc .single s) else Config.otherS2I id N s

/-- `D2I(N, d)` (R131). -/
def d2i (nm : Numerics) (N : Nat) (d : BitVec 64) : BitVec N :=
  match nm with
  | .ref => if Fmt.truncFits .double N d then BitVec.ofInt N (Fmt.trunc .double d) else Config.oorDouble N d
  | .other id =>
    if Fmt.isIntValue .double N d then BitVec.ofInt N (Fmt.trunc .double d) else Config.otherD2I id N d

/-- `S2D(s)` (R131). -/
def s2d (nm : Numerics) (s : BitVec 32) : BitVec 64 :=
  match nm with
  | .ref => if Fmt.isNaN .single s then nanMapSD s else exactSingleToDouble s
  | .other id => if Fmt.isNaN .single s then Config.otherS2D id s else exactSingleToDouble s

/-- `D2S(d)` (R131). -/
def d2s (nm : Numerics) (d : BitVec 64) : BitVec 32 :=
  match nm with
  | .ref => if Fmt.isNaN .double d then nanMapDS d else nearestDoubleToSingle d
  | .other id => if isSingleValue d then nearestDoubleToSingle d else Config.otherD2S id d

end Sys2Proof.Machine
end

