-- ==== Sys2Proof/Machine/Convert.lean ====
section
/-! DEFINITION. FMOVEB to FMOVED (42_fmove_convert.md): the source operand's value, converted by `Config.NUMERICS`,
goes to the destination (R133). No conversion faults or leaves any other trace (R149). -/

namespace Sys2Proof.Machine

/-- `Config.NUMERICS` (R131). -/
def State.numerics (s : State) : Numerics := s.launch.config.numerics

/-- `fmoveb.s` (R134). -/
def execFmovebS (d e : EADesc) (s : State) : Host.Outcome State Fault Refusal :=
  finish (transfer .b .l (fun v => i2s s.numerics v.toInt) d e s)

/-- `fmoveb.d` (R135). -/
def execFmovebD (d e : EADesc) (s : State) : Host.Outcome State Fault Refusal :=
  finish (transfer .b .q (fun v => i2d s.numerics v.toInt) d e s)

/-- `fmovew.s` (R136). -/
def execFmovewS (d e : EADesc) (s : State) : Host.Outcome State Fault Refusal :=
  finish (transfer .w .l (fun v => i2s s.numerics v.toInt) d e s)

/-- `fmovew.d` (R137). -/
def execFmovewD (d e : EADesc) (s : State) : Host.Outcome State Fault Refusal :=
  finish (transfer .w .q (fun v => i2d s.numerics v.toInt) d e s)

/-- `fmovel.s` (R138). -/
def execFmovelS (d e : EADesc) (s : State) : Host.Outcome State Fault Refusal :=
  finish (transfer .l .l (fun v => i2s s.numerics v.toInt) d e s)

/-- `fmovel.d` (R139). -/
def execFmovelD (d e : EADesc) (s : State) : Host.Outcome State Fault Refusal :=
  finish (transfer .l .q (fun v => i2d s.numerics v.toInt) d e s)

/-- `fmoveq.s` (R140). -/
def execFmoveqS (d e : EADesc) (s : State) : Host.Outcome State Fault Refusal :=
  finish (transfer .q .l (fun v => i2s s.numerics v.toInt) d e s)

/-- `fmoveq.d` (R141). -/
def execFmoveqD (d e : EADesc) (s : State) : Host.Outcome State Fault Refusal :=
  finish (transfer .q .q (fun v => i2d s.numerics v.toInt) d e s)

/-- `fmoves.l` (R142). -/
def execFmovesL (d e : EADesc) (s : State) : Host.Outcome State Fault Refusal :=
  finish (transfer .l .l (s2i s.numerics 32) d e s)

/-- `fmoves.q` (R143). -/
def execFmovesQ (d e : EADesc) (s : State) : Host.Outcome State Fault Refusal :=
  finish (transfer .l .q (s2i s.numerics 64) d e s)

/-- `fmoves.d` (R144). -/
def execFmovesD (d e : EADesc) (s : State) : Host.Outcome State Fault Refusal :=
  finish (transfer .l .q (s2d s.numerics) d e s)

/-- `fmoved.l` (R145). -/
def execFmovedL (d e : EADesc) (s : State) : Host.Outcome State Fault Refusal :=
  finish (transfer .q .l (d2i s.numerics 32) d e s)

/-- `fmoved.q` (R146). -/
def execFmovedQ (d e : EADesc) (s : State) : Host.Outcome State Fault Refusal :=
  finish (transfer .q .q (d2i s.numerics 64) d e s)

/-- `fmoved.s` (R147). -/
def execFmovedS (d e : EADesc) (s : State) : Host.Outcome State Fault Refusal :=
  finish (transfer .q .l (d2s s.numerics) d e s)

end Sys2Proof.Machine
end

