-- ==== Sys2Proof/Machine/Exchange.lean ====
section
/-! DEFINITION. EXG, FEXG, SWAP and SWAP.L (45_exg_fexg_swap.md): registers only, no memory, no fault (R180). -/

namespace Sys2Proof.Machine

/-- `v[63:32] ++ v[15:0] ++ v[31:16]`, the value `swap` writes (R183). -/
def swapHalfwords (v : Quad) : Quad := v.extractLsb' 32 32 ++ v.extractLsb' 0 16 ++ v.extractLsb' 16 16

/-- `v[31:0] ++ v[63:32]`, the value `swap.l` writes (R184). -/
def swapLongs (v : Quad) : Quad := v.extractLsb' 0 32 ++ v.extractLsb' 32 32

/-- `exg r<a>, r<b>` (R181): `t = r[D]; r[D] <- r[S]; r[S] <- t` with `S = a`, `D = b`. -/
def execExg (a b : Reg) (s : State) : Host.Outcome State Fault Refusal :=
  .next ((s.setR b (s.getR a)).setR a (s.getR b))

/-- `fexg fp<a>, fp<b>` (R182): the same on the floating point registers. -/
def execFexg (a b : Reg) (s : State) : Host.Outcome State Fault Refusal :=
  .next ((s.setFp b (s.getFp a)).setFp a (s.getFp b))

/-- `swap` (R183): bits 31:16 and 15:0 change places, bits 63:32 stay. -/
def execSwap (n : Reg) (s : State) : Host.Outcome State Fault Refusal := .next (s.setR n (swapHalfwords (s.getR n)))

/-- `swap.l` (R184): bits 63:32 and 31:0 change places. -/
def execSwapL (n : Reg) (s : State) : Host.Outcome State Fault Refusal := .next (s.setR n (swapLongs (s.getR n)))

end Sys2Proof.Machine
end

