-- ==== Sys2Proof/Machine/Frame.lean ====
section
/-! DEFINITION. LINK and UNLK (46_link_unlk.md): the steps of each operation line one after another, each seeing what
the one before left (R190). -/

namespace Sys2Proof.Machine

/-- `link` (R191): push `r[N]`, point `r[N]` at the slot, move `sp` by the sign-extended displacement (R84). -/
def link (n : Reg) (disp : BitVec 32) (s : State) : Except Fault State := do
  let s1 := s.setSp (s.sp - 8)
  let s2 ← s1.memWrite s1.sp .q (s1.getR n)
  let s3 := s2.setR n s2.sp
  .ok (s3.setSp (s3.sp + disp.signExtend 64))

/-- `unlk` (R192): `sp` takes `r[N]`, `r[N]` takes the slot's quad, `sp` moves past the slot. -/
def unlink (n : Reg) (s : State) : Except Fault State := do
  let s1 := s.setSp (s.getR n)
  let v ← s1.memRead s1.sp .q
  let s2 := s1.setR n v
  .ok (s2.setSp (s2.sp + 8))

/-- `link` (R191). -/
def execLink (n : Reg) (disp : BitVec 32) (s : State) : Host.Outcome State Fault Refusal := finish (link n disp s)

/-- `unlk` (R192). -/
def execUnlk (n : Reg) (s : State) : Host.Outcome State Fault Refusal := finish (unlink n s)

end Sys2Proof.Machine
end

