-- ==== Sys2Proof/Machine/Move.lean ====
section
/-! DEFINITION. MOVE (40_move.md): the value is copied bit for bit from source to destination. -/

namespace Sys2Proof.Machine

/-- `move.b` (R111). -/
def execMoveB (d e : EADesc) (s : State) : Host.Outcome State Fault Refusal := finish (transfer .b .b id d e s)

/-- `move.w` (R112). -/
def execMoveW (d e : EADesc) (s : State) : Host.Outcome State Fault Refusal := finish (transfer .w .w id d e s)

/-- `move.l` (R113). -/
def execMoveL (d e : EADesc) (s : State) : Host.Outcome State Fault Refusal := finish (transfer .l .l id d e s)

/-- `move.q` (R114). -/
def execMoveQ (d e : EADesc) (s : State) : Host.Outcome State Fault Refusal := finish (transfer .q .q id d e s)

end Sys2Proof.Machine
end

