-- ==== Sys2Proof/Machine/Multi.lean ====
section
/-! DEFINITION. SAVEM, LOADM, FSAVEM and FLOADM (41_savem_loadm.md, 43_fsavem_floadm.md). -/

namespace Sys2Proof.Machine

/-- `savem` (R122). -/
def execSavem (ea : EADesc) (m : BitVec 16) (s : State) : Host.Outcome State Fault Refusal :=
  finish (saveMulti .gpr ea m s)

/-- `loadm` (R123). -/
def execLoadm (ea : EADesc) (m : BitVec 16) (s : State) : Host.Outcome State Fault Refusal :=
  finish (loadMulti .gpr ea m s)

/-- `fsavem` (R161). -/
def execFsavem (ea : EADesc) (m : BitVec 16) (s : State) : Host.Outcome State Fault Refusal :=
  finish (saveMulti .fpr ea m s)

/-- `floadm` (R162). -/
def execFloadm (ea : EADesc) (m : BitVec 16) (s : State) : Host.Outcome State Fault Refusal :=
  finish (loadMulti .fpr ea m s)

end Sys2Proof.Machine
end

