-- ==== Sys2Proof/Machine/Dispatch.lean ====
section
/-! DEFINITION. One arm per instruction (30_encoding.md R87), each one direct call of its meaning. -/

namespace Sys2Proof.Machine

/-- The effect of one instruction on everything but `pc`, which `step` advances by the instruction's length (R28). -/
def exec (i : Instr) (s : State) : Host.Outcome State Fault Refusal :=
  match i with
  | .moveB d e => Sys2Proof.Machine.execMoveB d e s
  | .moveW d e => Sys2Proof.Machine.execMoveW d e s
  | .moveL d e => Sys2Proof.Machine.execMoveL d e s
  | .moveQ d e => Sys2Proof.Machine.execMoveQ d e s
  | .savem ea m => Sys2Proof.Machine.execSavem ea m s
  | .loadm ea m => Sys2Proof.Machine.execLoadm ea m s
  | .fmovebS d e => Sys2Proof.Machine.execFmovebS d e s
  | .fmovebD d e => Sys2Proof.Machine.execFmovebD d e s
  | .fmovewS d e => Sys2Proof.Machine.execFmovewS d e s
  | .fmovewD d e => Sys2Proof.Machine.execFmovewD d e s
  | .fmovelS d e => Sys2Proof.Machine.execFmovelS d e s
  | .fmovelD d e => Sys2Proof.Machine.execFmovelD d e s
  | .fmoveqS d e => Sys2Proof.Machine.execFmoveqS d e s
  | .fmoveqD d e => Sys2Proof.Machine.execFmoveqD d e s
  | .fmovesL d e => Sys2Proof.Machine.execFmovesL d e s
  | .fmovesQ d e => Sys2Proof.Machine.execFmovesQ d e s
  | .fmovesD d e => Sys2Proof.Machine.execFmovesD d e s
  | .fmovedL d e => Sys2Proof.Machine.execFmovedL d e s
  | .fmovedQ d e => Sys2Proof.Machine.execFmovedQ d e s
  | .fmovedS d e => Sys2Proof.Machine.execFmovedS d e s
  | .fsavem ea m => Sys2Proof.Machine.execFsavem ea m s
  | .floadm ea m => Sys2Proof.Machine.execFloadm ea m s
  | .clrB ea => Sys2Proof.Machine.execClrB ea s
  | .clrW ea => Sys2Proof.Machine.execClrW ea s
  | .clrL ea => Sys2Proof.Machine.execClrL ea s
  | .clrQ ea => Sys2Proof.Machine.execClrQ ea s
  | .exg a b => Sys2Proof.Machine.execExg a b s
  | .fexg a b => Sys2Proof.Machine.execFexg a b s
  | .swap n => Sys2Proof.Machine.execSwap n s
  | .swapL n => Sys2Proof.Machine.execSwapL n s
  | .link n disp => Sys2Proof.Machine.execLink n disp s
  | .unlk n => Sys2Proof.Machine.execUnlk n s

end Sys2Proof.Machine
end

