-- ==== Sys2Proof/Machine/Fetch.lean ====
section
/-! DEFINITION. What a step does with the instruction at `pc`: fetching its bytes (30_encoding.md R71), decoding them
(R90), how a failed decoding ends the run, and the instruction's effect with the advance of `pc` (10_state.md R28). -/

namespace Sys2Proof.Machine

/-- `CODE_END` (R233), as a natural number. -/
def Launch.codeEnd (l : Launch) : Nat := l.codeBase.toNat + l.prog.length

/-- The program text from `pc` on (R71): nothing where `pc` is outside the text. -/
def State.textAt (s : State) : List Byte :=
  if s.pc.toNat < s.launch.codeBase.toNat then [] else s.launch.prog.drop (s.pc.toNat - s.launch.codeBase.toNat)

/-- `Decode(pc)` (R90): the instruction at `pc` and its length. -/
def State.decodeAt (s : State) : Except DecodeError (Instr × Nat) := decode s.launch.config s.textAt

/-- The fault or refusal a failed decoding at `pc` ends the run with (R202 to R207, R210). -/
def decodeStop (pc : Addr) (e : DecodeError) : Host.Outcome State Fault Refusal :=
  match e with
  | .pastEnd off => .fault (.fetchPastEnd (pc + BitVec.ofNat 64 off))
  | .opcodeOutOfGroup op => .refused (.opcodeOutOfGroup pc op)
  | .invalidEA off => .fault (.invalidEA pc (pc + BitVec.ofNat 64 off))
  | .unmodelledEA off b => .refused (.unmodelledEA pc (pc + BitVec.ofNat 64 off) b)
  | .reservedBits b => .fault (.reservedBits pc b)
  | .immediateDestination => .fault (.immediateDestination pc)
  | .illegalEAMode => .fault (.illegalEAMode pc)

/-- `pc <- pc + len` (R28). -/
def State.advance (s : State) (len : Nat) : State := { s with pc := s.pc + BitVec.ofNat 64 len }

/-- The instruction `i`, `len` bytes long: its effect, then the advance of `pc` (R28). -/
def runInstr (i : Instr) (len : Nat) (s : State) : Host.Outcome State Fault Refusal :=
  match exec i s with
  | .next t => .next (t.advance len)
  | .fault f => .fault f
  | .refused q => .refused q

end Sys2Proof.Machine
end

