-- ==== Sys2Proof/Machine/Step.lean ====
section
/-! DEFINITION. One step (70_reset_and_hazards.md R234): the end of a run, or the instruction at `pc`; and how an
instruction comes to stand where the next step fetches it. -/

namespace Sys2Proof.Machine

/-- One step (R234). A run that has ended stays as it is, and one that has faulted or was refused stays stopped for
the same reason: the spec takes no step there. -/
def step (s : State) : Host.Outcome State Fault Refusal :=
  match s.outcome with
  | .faulted f => .fault f
  | .refused q => .refused q
  | .ended => .next s
  | .running =>
    if s.pc.toNat = s.launch.codeEnd then .next { s with outcome := .ended }
    else
      match s.decodeAt with
      | .error e => decodeStop s.pc e
      | .ok p => runInstr p.1 p.2 s

/-- The state of the run after an outcome: a fault or a refusal is kept for the rest of the run (R200, R201, R218);
of the registers and memory after one, which no rule defines, the values before the step are kept. -/
def State.record (s : State) (o : Host.Outcome State Fault Refusal) : State :=
  match o with
  | .next t => t
  | .fault f => { s with outcome := .faulted f }
  | .refused q => { s with outcome := .refused q }

/-- `Step` of R234 on the state of the run. -/
def runStep (s : State) : State := s.record (step s)

/-- `s` with the instruction whose bits are the low `nbits` of `w` as its program text, at `pc`, and the run running:
the launch that lets the very next step run it (log entry 5). -/
def State.withFetchWord (s : State) (nbits w : Nat) : State :=
  { s with
    outcome := .running
    launch := { s.launch with prog := tableBytes nbits w, codeBase := s.pc } }

end Sys2Proof.Machine
end

