-- ==== Sys2Proof/Safety.lean ====
section
/-! DEFINITION. The terms the claims use: the machine's invariant, when a run is finished or safe, what stands at a
location, the memory image of a set of registers, and the opcode and length tables read off an instruction. -/

namespace Sys2Proof.Machine

/-- The launch is one R233 allows: `CODE_BASE + len(prog) <= 2^64 - 1`. -/
def Launch.wf (l : Launch) : Prop := l.codeEnd ≤ 2 ^ 64 - 1

/-- `pc` is in the program text or at its end (R210: no instruction can make it leave the text otherwise). -/
def State.pcInText (s : State) : Prop := s.launch.codeBase.toNat ≤ s.pc.toNat ∧ s.pc.toNat ≤ s.launch.codeEnd

/-- Data memory is defined on `MEM_VALID` alone (R46): every listed address is in it. -/
def State.memInValid (s : State) : Prop := ∀ c ∈ s.mem, s.launch.valid c.1 = true

/-- The invariant of the machine: the launch is allowed, `pc` is in the text or at its end, memory is in its canonical
form and listed on `MEM_VALID` only, and a run ends at the end of the text only (R234). -/
structure State.Inv (s : State) : Prop where
  launchWf : s.launch.wf
  pcInText : s.pcInText
  memWf : s.mem.wf = true
  memInValid : s.memInValid
  endedAtEnd : s.outcome = .ended → s.pc.toNat = s.launch.codeEnd

/-- A run has ended normally (R234): its state is a final state. -/
def State.finished (s : State) : Prop := s.outcome = .ended

/-- A run from `s` is safe for `k` steps: none of them faults or is refused (R200, R201). -/
def safeFor (k : Nat) (s : State) : Prop := ∃ t, Host.Core.run Sys2Proof.core k s = .next t

/-! ## Locations -/

/-- The operand value at a location, whatever an access to it would meet (R81). -/
def State.valueAt (s : State) (loc : Loc) (sz : Size) : BitVec sz.bits :=
  match loc with
  | .gReg i => (s.getR i).setWidth sz.bits
  | .fReg i => (s.getFp i).setWidth sz.bits
  | .mem a => s.peek a sz
  | .imm v => v.setWidth sz.bits

/-- The state with an operand value at a location, whatever an access to it would meet (R82); a constant stays. -/
def State.withValueAt (s : State) (loc : Loc) (sz : Size) (v : BitVec sz.bits) : State :=
  match loc with
  | .gReg i => s.setR i (insertLow sz (s.getR i) v)
  | .fReg i => s.setFp i (insertLow sz (s.getFp i) v)
  | .mem a => s.poke a sz v
  | .imm _ => s

/-- An access of `n` bytes to the location meets no fault: it is no memory, or the access is aligned as the
configuration asks and admitted (R43, R46). -/
def State.accessible (s : State) (loc : Loc) (n : Nat) (kind : AccessKind) : Prop :=
  ∀ a, loc = .mem a → s.accessFault a n kind = none

/-- The address `x` is none of the `n` bytes at the location; every address is none of a register's. -/
def Loc.misses (loc : Loc) (n x : Nat) : Prop := ∀ a, loc = .mem a → x < a.toNat ∨ a.toNat + n ≤ x

/-- The register a stepping mode steps (R80). -/
def steppedBy (ea : EADesc) (i : Reg) : Bool :=
  match stepModeOf ea with
  | some (_, b) => i == b
  | none => false

/-! ## Sets of registers in memory -/

/-- `savem` and `fsavem` (R122, R161). -/
def saveInstr : RegFile → EADesc → BitVec 16 → Instr
  | .gpr => .savem
  | .fpr => .fsavem

/-- `loadm` and `floadm` (R123, R162). -/
def loadInstr : RegFile → EADesc → BitVec 16 → Instr
  | .gpr => .loadm
  | .fpr => .floadm

/-- The registers of a mask in ascending number (R83). -/
def maskRegs (m : BitVec 16) : List Reg := (List.finRange 16).filter fun i => m.getLsbD i.val

/-- The lowest address of the memory image of `c` registers transferred from base `a` (R121 (a), (c)). -/
def imageBase (mode : StepMode) (a : Addr) (c : Nat) : Addr :=
  match mode with
  | .postInc => a
  | .preInc => a + 8
  | .postDec => a - BitVec.ofNat 64 (8 * c) + 8
  | .preDec => a - BitVec.ofNat 64 (8 * c)

/-- The address of the `k`-th lowest slot of that image. -/
def imageSlot (mode : StepMode) (a : Addr) (c k : Nat) : Addr := imageBase mode a c + BitVec.ofNat 64 (8 * k)

/-- The base register after `c` registers have been transferred from base `a` (R121). -/
def finalBase (mode : StepMode) (a : Addr) (c : Nat) : Addr :=
  match mode with
  | .postInc | .preInc => a + BitVec.ofNat 64 (8 * c)
  | .postDec | .preDec => a - BitVec.ofNat 64 (8 * c)

/-- The stepping mode that undoes another (R124). -/
def StepMode.opposite : StepMode → StepMode
  | .preDec => .postInc
  | .postInc => .preDec
  | .postDec => .preInc
  | .preInc => .postDec

/-! ## Opcodes and lengths -/

/-- The opcode byte of an instruction, the opcode map of R87 read the other way. -/
def opcodeOf : Instr → Byte
  | .moveB _ _ => 0x4D
  | .moveW _ _ => 0x4E
  | .moveL _ _ => 0x4F
  | .moveQ _ _ => 0x50
  | .savem _ _ => 0x51
  | .loadm _ _ => 0x52
  | .fmovebS _ _ => 0x53
  | .fmovebD _ _ => 0x54
  | .fmovewS _ _ => 0x55
  | .fmovewD _ _ => 0x56
  | .fmovelS _ _ => 0x57
  | .fmovelD _ _ => 0x58
  | .fmoveqS _ _ => 0x59
  | .fmoveqD _ _ => 0x5A
  | .fmovesL _ _ => 0x5B
  | .fmovesQ _ _ => 0x5C
  | .fmovesD _ _ => 0x5D
  | .fmovedL _ _ => 0x5E
  | .fmovedQ _ _ => 0x5F
  | .fmovedS _ _ => 0x60
  | .fsavem _ _ => 0x61
  | .floadm _ _ => 0x62
  | .clrB _ => 0x63
  | .clrW _ => 0x64
  | .clrL _ => 0x65
  | .clrQ _ => 0x66
  | .exg _ _ => 0x67
  | .fexg _ _ => 0x68
  | .swap _ => 0x69
  | .swapL _ => 0x6A
  | .link _ _ => 0x6B
  | .unlk _ => 0x6C

/-- The length of an effective address under `RefEA` (R79). -/
def refLenEA : EADesc → Nat
  | .indDisp _ _ => 5
  | .gReg _ | .fReg _ | .ind _ | .postInc _ | .postDec _ | .preInc _ | .preDec _ | .imm _ => 1

/-- The length of an instruction under `RefEA` (R75). -/
def refLen : Instr → Nat
  | .moveB d s | .moveW d s | .moveL d s | .moveQ d s => 1 + refLenEA d + refLenEA s
  | .fmovebS d s | .fmovebD d s | .fmovewS d s | .fmovewD d s => 1 + refLenEA d + refLenEA s
  | .fmovelS d s | .fmovelD d s | .fmoveqS d s | .fmoveqD d s => 1 + refLenEA d + refLenEA s
  | .fmovesL d s | .fmovesQ d s | .fmovesD d s => 1 + refLenEA d + refLenEA s
  | .fmovedL d s | .fmovedQ d s | .fmovedS d s => 1 + refLenEA d + refLenEA s
  | .savem ea _ | .loadm ea _ | .fsavem ea _ | .floadm ea _ => 1 + refLenEA ea + 2
  | .clrB ea | .clrW ea | .clrL ea | .clrQ ea => 1 + refLenEA ea
  | .exg _ _ | .fexg _ _ | .swap _ | .swapL _ | .unlk _ => 2
  | .link _ _ => 6

end Sys2Proof.Machine
end

