-- ==== Sys2Proof/Certificates/Slice0/Obligations.lean ====
section
/-! DEFINITION. The statements for the provers, and the few predicates they share. A statement about an instruction
says with `exec` what the instruction does to everything but `pc`; `StepRunsDecodedInstruction` and
`StepAdvancesPcByLength` say how `step` adds the advance of `pc`. -/

namespace Sys2Proof.Claims

open Sys2Proof.Machine

/-- The state after both effective addresses of a two-operand instruction have resolved, the destination first (R80).
-/
def resolved (s : State) (d e : EADesc) (nd ns : Nat) : State := (s.stepEA d nd).stepEA e ns

/-- The location of the source, resolved after the destination has stepped (R80). -/
def sourceLoc (s : State) (d e : EADesc) (nd ns : Nat) : Loc := (s.stepEA d nd).locOf e ns

/-- Both operands of a two-operand instruction can be accessed where they resolve to, and the destination is no
immediate. -/
def OperandsOk (s : State) (d e : EADesc) (ds ss : Size) : Prop :=
  d.isImm = false ∧
    (resolved s d e ds.bytes ss.bytes).accessible (sourceLoc s d e ds.bytes ss.bytes) ss.bytes .read ∧
    (resolved s d e ds.bytes ss.bytes).accessible (s.locOf d ds.bytes) ds.bytes .write

/-- The instruction `mk d e` completes wherever both operands can be accessed, and then the state is the resolved one
with `f` of the source's value at the destination (R110, R133). -/
def TransfersValue (mk : EADesc → EADesc → Instr) (ss ds : Size)
    (f : State → BitVec ss.bits → BitVec ds.bits) : Prop :=
  ∀ (s : State) (d e : EADesc), OperandsOk s d e ds ss →
    exec (mk d e) s = .next ((resolved s d e ds.bytes ss.bytes).withValueAt (s.locOf d ds.bytes) ds
      (f s ((resolved s d e ds.bytes ss.bytes).valueAt (sourceLoc s d e ds.bytes ss.bytes) ss)))

/-- The instruction `mk ea` completes wherever its operand can be written, and then the state is the resolved one with
zero at the operand; nothing is read (R170). -/
def ClearsOperand (mk : EADesc → Instr) (sz : Size) : Prop :=
  ∀ (s : State) (ea : EADesc), ea.isImm = false →
    (s.stepEA ea sz.bytes).accessible (s.locOf ea sz.bytes) sz.bytes .write →
    exec (mk ea) s = .next ((s.stepEA ea sz.bytes).withValueAt (s.locOf ea sz.bytes) sz 0)

/-- The instruction `mk d e` faults where its source cannot be read, whatever its destination would meet, and where its
source can be read and its destination cannot be written (R211). -/
def ReportsSourceFaultFirst (mk : EADesc → EADesc → Instr) (ss ds : Size) : Prop :=
  ∀ (s : State) (d e : EADesc) (a : Addr) (f : Fault), d.isImm = false →
    (sourceLoc s d e ds.bytes ss.bytes = .mem a →
      (resolved s d e ds.bytes ss.bytes).accessFault a ss.bytes .read = some f → exec (mk d e) s = .fault f) ∧
    ((resolved s d e ds.bytes ss.bytes).accessible (sourceLoc s d e ds.bytes ss.bytes) ss.bytes .read →
      s.locOf d ds.bytes = .mem a →
      (resolved s d e ds.bytes ss.bytes).accessFault a ds.bytes .write = some f → exec (mk d e) s = .fault f)

/-- The instruction `mk ea` faults where its operand cannot be written (R170). -/
def FaultsOnBadOperand (mk : EADesc → Instr) (sz : Size) : Prop :=
  ∀ (s : State) (ea : EADesc) (a : Addr) (f : Fault), s.locOf ea sz.bytes = .mem a →
    (s.stepEA ea sz.bytes).accessFault a sz.bytes .write = some f → exec (mk ea) s = .fault f

/-- What an instruction with a destination of `nd` bytes leaves when it completes: every general purpose register but
a register destination and those a stepping mode of `d` or `e` steps, every floating point register but a register
destination, every byte of memory but the `nd` bytes at a memory destination, the outcome and the launch. -/
def LeavesAllBut (i : Instr) (d e : EADesc) (nd : Nat) : Prop :=
  ∀ s t : State, exec i s = .next t →
    (∀ r, d ≠ .gReg r → steppedBy d r = false → steppedBy e r = false → t.getR r = s.getR r) ∧
    (∀ r, d ≠ .fReg r → t.getFp r = s.getFp r) ∧
    (∀ x, (s.locOf d nd).misses nd x → t.mem.get x = s.mem.get x) ∧
    t.outcome = s.outcome ∧ t.launch = s.launch

/-- All `c` slots of the memory image of a multi-register transfer can be accessed. -/
def SlotsOk (s : State) (mode : StepMode) (a : Addr) (c : Nat) (kind : AccessKind) : Prop :=
  ∀ k < c, s.accessFault (imageSlot mode a c k) 8 kind = none

/-- The run is running and the next step fetches the bytes `bs` followed by anything (R71, R234). -/
def Fetches (s : State) (bs : List Byte) : Prop := s.outcome = .running ∧ ∃ rest, s.textAt = bs ++ rest

/-- The step after `exec` gave `t` for an instruction of `len` bytes is `t` with `pc` past the instruction. -/
def StepsPast (s t : State) (len : Nat) : Prop := step s = .next { t with pc := s.pc + BitVec.ofNat 64 len }

/-- Where the text from `pc` on is just `bs`, the step faults at the byte after it (R71, R210). -/
def CutShortFaults (s : State) (bs : List Byte) : Prop :=
  s.outcome = .running → s.textAt = bs → step s = .fault (.fetchPastEnd (s.pc + BitVec.ofNat 64 bs.length))

/-- Where the text from `pc` on starts with the opcode `op` and a register byte whose high nibble is not zero, the step
faults (R86, R204). -/
def NibbleMustBeZero (s : State) (op : Byte) : Prop :=
  ∀ (b : Byte) (rest : List Byte), s.outcome = .running → s.textAt = op :: b :: rest → highNibble b ≠ 0 →
    step s = .fault (.reservedBits s.pc b)

/-- `p` is a nearest finite value to `num / den`, in units of the format's smallest subnormal, and where another value
is as near, the fraction of `p` is even (R132). -/
def IsNearestEven (f : Fmt) (num : Int) (den : Nat) (p : BitVec f.width) : Prop :=
  f.isFinite p = true ∧
    ∀ q : BitVec f.width, f.isFinite q = true →
      (f.val p * den - num).natAbs ≤ (f.val q * den - num).natAbs ∧
      ((f.val p * den - num).natAbs = (f.val q * den - num).natAbs → f.val q ≠ f.val p → f.frac p % 2 = 0)

end Sys2Proof.Claims

open Sys2Proof Sys2Proof.Machine Sys2Proof.Claims

/-! ## Encoding and decoding -/

/-- Decode and encode agree under the reference codec (R79, R90): the bytes of every well-formed instruction it can
spell decode to that instruction, whatever follows them. -/
def Obligations.EncodedInstructionDecodesToItself : Prop :=
  ∀ (c : Config) (i : Instr) (rest : List Byte),
    c.eaCodec = .ref → i.wellFormed = true → i.refEncodable = true →
      ∃ bs, encode c.byteOrder i = some bs ∧ decode c (bs ++ rest) = .ok (i, bs.length)

/-- Each instruction has one encoding under the reference codec: bytes that decode are the instruction's encoding, of
the length the table of R75 gives. -/
def Obligations.DecodedBytesAreTheEncoding : Prop :=
  ∀ (c : Config) (bs : List Byte) (i : Instr) (len : Nat),
    c.eaCodec = .ref → decode c bs = .ok (i, len) →
      encode c.byteOrder i = some (bs.take len) ∧ len = refLen i ∧ len ≤ bs.length

/-- Under every codec, what the decoder answers passes the shape checks of R89, is at least 2 bytes long and lies
within the text (R75, R90). -/
def Obligations.DecodedInstructionIsWellFormedAndFits : Prop :=
  ∀ (c : Config) (bs : List Byte) (i : Instr) (len : Nat),
    decode c bs = .ok (i, len) → i.wellFormed = true ∧ 2 ≤ len ∧ len ≤ bs.length

/-- The opcode byte alone selects the instruction (R70, R87), under every codec. -/
def Obligations.OpcodeByteSelectsInstruction : Prop :=
  ∀ (c : Config) (op : Byte) (rest : List Byte) (i : Instr) (len : Nat),
    decode c (op :: rest) = .ok (i, len) → opcodeOf i = op

/-- The reference codec answers by the high nibble of the first byte, as the table of R79 says, and never calls
bytes invalid nor produces an immediate. -/
def Obligations.ReferenceCodecFollowsItsTable : Prop :=
  ∀ (o : ByteOrder) (i : Reg) (ext : List Byte),
    refEA o (nibbles 0 i) ext = .ok (.gReg i) 0 ∧
    refEA o (nibbles 1 i) ext = .ok (.ind i) 0 ∧
    refEA o (nibbles 2 i) ext = .ok (.postInc i) 0 ∧
    refEA o (nibbles 3 i) ext = .ok (.postDec i) 0 ∧
    refEA o (nibbles 4 i) ext = .ok (.preInc i) 0 ∧
    refEA o (nibbles 5 i) ext = .ok (.preDec i) 0 ∧
    refEA o (nibbles 6 i) ext =
      .ok (.indDisp i ((BitVec.ofNat 32 (fromBytes o (ext.take 4))).signExtend 64)) 4 ∧
    refEA o (nibbles 7 i) ext = .ok (.fReg i) 0 ∧
    ∀ h : Reg, 8 ≤ h.val → refEA o (nibbles h i) ext = .unmodelled

/-- Words written out from the encoding tables decode to the instructions they stand for (R74, R79, R87). -/
def Obligations.SampleBytesDecodeAsTabulated : Prop :=
  decode refConfig [0x4D, 0x02, 0x01] = .ok (.moveB (.gReg 2) (.gReg 1), 3) ∧
  decode refConfig [0x51, 0x5F, 0x06, 0x01] = .ok (.savem (.preDec 15) 0x0106, 4) ∧
  decode refConfig [0x54, 0x21, 0x20] = .ok (.fmovebD (.postInc 1) (.postInc 0), 3) ∧
  decode refConfig [0x62, 0x2F, 0x03, 0x00] = .ok (.floadm (.postInc 15) 0x0003, 4) ∧
  decode refConfig [0x65, 0x41] = .ok (.clrL (.preInc 1), 2) ∧
  decode refConfig [0x67, 0x3A] = .ok (.exg 3 10, 2) ∧
  decode refConfig [0x6A, 0x05] = .ok (.swapL 5, 2) ∧
  decode refConfig [0x6B, 0x0E, 0xE0, 0xFF, 0xFF, 0xFF] = .ok (.link 14 0xFFFFFFE0, 6)

/-- An opcode byte outside the group is refused by name, whatever follows it (R206). -/
def Obligations.OpcodeOutOfGroupIsRefused : Prop :=
  ∀ (s : State) (op : Byte) (rest : List Byte),
    s.outcome = .running → s.textAt = op :: rest → op.toNat < 0x4D ∨ 0x6C < op.toNat →
      step s = .refused (.opcodeOutOfGroup s.pc op)

/-- Under the reference codec an effective address whose first byte is 0x80 to 0xFF is refused by name, as the first
effective address of any instruction that has one and as the source of a two-operand instruction (R207, R79). -/
def Obligations.UnmodelledModeIsRefused : Prop :=
  ∀ (s : State) (op b : Byte) (rest : List Byte),
    s.outcome = .running → s.launch.config.eaCodec = .ref → 0x80 ≤ b.toNat →
      (s.textAt = op :: b :: rest → 0x4D ≤ op.toNat → op.toNat ≤ 0x66 →
        step s = .refused (.unmodelledEA s.pc (s.pc + 1) b)) ∧
      (∀ (d : EADesc) (db : List Byte),
        encodeEA s.launch.config.byteOrder d = some db → s.textAt = op :: db ++ b :: rest →
        (0x4D ≤ op.toNat ∧ op.toNat ≤ 0x50) ∨ (0x53 ≤ op.toNat ∧ op.toNat ≤ 0x60) →
        step s = .refused (.unmodelledEA s.pc (s.pc + BitVec.ofNat 64 (1 + db.length)) b))

/-- A multi-register transfer whose effective address decodes to no stepping mode faults, under every codec and
whatever stands where the mask would be (R203). -/
def Obligations.IllegalModeFaultsBeforeMask : Prop :=
  ∀ (s : State) (op first : Byte) (ext : List Byte) (ea : EADesc) (extra : Nat),
    s.outcome = .running → s.textAt = op :: first :: ext →
      op = 0x51 ∨ op = 0x52 ∨ op = 0x61 ∨ op = 0x62 →
      codecAnswer s.launch.config first ext = some (.ok ea extra) → extra ≤ ext.length → ea.isStepping = false →
      step s = .fault (.illegalEAMode s.pc)

/-- An instruction cut short by the end of the program text faults at the first missing byte (R71, R210). -/
def Obligations.TruncatedInstructionFaults : Prop :=
  ∀ (s : State) (i : Instr) (bs : List Byte) (k : Nat),
    s.outcome = .running → s.launch.config.eaCodec = .ref → i.wellFormed = true →
      encode s.launch.config.byteOrder i = some bs → 0 < k → k < bs.length → s.textAt = bs.take k →
      step s = .fault (.fetchPastEnd (s.pc + BitVec.ofNat 64 k))

/-- A decoding that fails ends the run by the name and with the places the spec gives (R202 to R207, R210), under every
codec. -/
def Obligations.DecodeFailureStopsByName : Prop :=
  ∀ (s : State) (e : DecodeError), s.outcome = .running → s.pc.toNat ≠ s.launch.codeEnd → s.decodeAt = .error e →
    step s =
      match e with
      | .invalidEA off => .fault (.invalidEA s.pc (s.pc + BitVec.ofNat 64 off))
      | .illegalEAMode => .fault (.illegalEAMode s.pc)
      | .reservedBits b => .fault (.reservedBits s.pc b)
      | .immediateDestination => .fault (.immediateDestination s.pc)
      | .opcodeOutOfGroup b => .refused (.opcodeOutOfGroup s.pc b)
      | .unmodelledEA off b => .refused (.unmodelledEA s.pc (s.pc + BitVec.ofNat 64 off) b)
      | .pastEnd off => .fault (.fetchPastEnd (s.pc + BitVec.ofNat 64 off))

/-- A term that fails the shape checks of R89 faults in `exec` as well, by the name R89 gives: a multi-register transfer
by `IllegalEAMode`, any other instruction by `ImmediateDestination`. That `exec` checks again what decoding has checked
is the model's choice (log entry 18). -/
def Obligations.IllFormedInstructionFaults : Prop :=
  ∀ (i : Instr) (s : State), i.wellFormed = false →
    exec i s =
      if opcodeOf i = 0x51 ∨ opcodeOf i = 0x52 ∨ opcodeOf i = 0x61 ∨ opcodeOf i = 0x62 then
        .fault (.illegalEAMode s.pc)
      else .fault (.immediateDestination s.pc)

/-! ## Bytes and memory -/

/-- Bytes to value and back are inverse under either byte order (R41). -/
def Obligations.BytesAndValueAreInverse : Prop :=
  (∀ (o : ByteOrder) (n v : Nat), v < 256 ^ n → fromBytes o (toBytes o n v) = v) ∧
  (∀ (o : ByteOrder) (bs : List Byte), toBytes o bs.length (fromBytes o bs) = bs)

/-- When an access is admitted (R46): it does not run off the top of the address space, and every address of it is
in `MEM_VALID`. -/
def Obligations.AccessIsAdmittedOnValidAddresses : Prop :=
  ∀ (l : Launch) (a : Addr) (n : Nat),
    l.admitted a n = true ↔
      a.toNat + n ≤ 2 ^ 64 ∧
        ∀ k < n, ∃ g ∈ l.memValid, g.first.toNat ≤ a.toNat + k ∧ a.toNat + k ≤ g.last.toNat

/-- `MemRead` (R47): the alignment fault first, then the validity fault, and otherwise the value whose bytes stand at
the address, the first byte lowest under `little` and highest under `big`. -/
def Obligations.MemReadGivesTheBytes : Prop :=
  ∀ (s : State) (a : Addr) (sz : Size),
    if s.launch.config.alignPolicy = .fault ∧ a.toNat % sz.bytes ≠ 0 then
      s.memRead a sz = .error (.misaligned a sz.bytes)
    else if s.launch.admitted a sz.bytes = false then s.memRead a sz = .error (.memAccess a sz.bytes .read)
    else ∃ v, s.memRead a sz = .ok v ∧ ∀ k < sz.bytes,
      s.mem.get (a.toNat + k) =
        match s.launch.config.byteOrder with
        | .little => v.extractLsb' (8 * k) 8
        | .big => v.extractLsb' (8 * (sz.bytes - 1 - k)) 8

/-- `MemWrite` (R48): the alignment fault first, then the validity fault, and otherwise exactly the `n` bytes of the
value are changed and nothing else. -/
def Obligations.MemWriteChangesExactlyItsBytes : Prop :=
  ∀ (s : State) (a : Addr) (sz : Size) (v : BitVec sz.bits),
    if s.launch.config.alignPolicy = .fault ∧ a.toNat % sz.bytes ≠ 0 then
      s.memWrite a sz v = .error (.misaligned a sz.bytes)
    else if s.launch.admitted a sz.bytes = false then s.memWrite a sz v = .error (.memAccess a sz.bytes .write)
    else ∃ m, s.memWrite a sz v = .ok { s with mem := m } ∧
      (∀ k < sz.bytes,
        m.get (a.toNat + k) =
          match s.launch.config.byteOrder with
          | .little => v.extractLsb' (8 * k) 8
          | .big => v.extractLsb' (8 * (sz.bytes - 1 - k)) 8) ∧
      ∀ x, x < a.toNat ∨ a.toNat + sz.bytes ≤ x → m.get x = s.mem.get x

/-- A value written is the value read back, at every size and under every configuration (R41, R47, R48). -/
def Obligations.ReadAfterWriteGivesTheValue : Prop :=
  ∀ (s t : State) (a : Addr) (sz : Size) (v : BitVec sz.bits),
    s.memWrite a sz v = .ok t → t.memRead a sz = .ok v

/-- What narrower reads see of a stored quad, under each byte order (R42, which the spec infers from R41). -/
def Obligations.StoredQuadReadsBackByPieces : Prop :=
  ∀ (s t : State) (a : Addr) (v : BitVec 64), s.memWrite a .q v = .ok t →
    (s.launch.config.byteOrder = .little →
      (∀ k < 8, t.memRead (a + BitVec.ofNat 64 k) .b = .ok (v.extractLsb' (8 * k) 8)) ∧
      t.memRead (a + 4) .l = .ok (v.extractLsb' 32 32)) ∧
    (s.launch.config.byteOrder = .big →
      (∀ k < 8, t.memRead (a + BitVec.ofNat 64 k) .b = .ok (v.extractLsb' (56 - 8 * k) 8)) ∧
      t.memRead (a + 4) .l = .ok (v.extractLsb' 0 32))

/-! ## Operands -/

/-- What each of the nine shapes resolves to and how it steps its register (R80). -/
def Obligations.ResolveGivesLocationAndStep : Prop :=
  ∀ (s : State) (i : Reg) (n : Nat) (d v : BitVec 64),
    (s.locOf (.gReg i) n = .gReg i ∧ s.stepEA (.gReg i) n = s) ∧
    (s.locOf (.fReg i) n = .fReg i ∧ s.stepEA (.fReg i) n = s) ∧
    (s.locOf (.imm v) n = .imm v ∧ s.stepEA (.imm v) n = s) ∧
    (s.locOf (.ind i) n = .mem (s.getR i) ∧ s.stepEA (.ind i) n = s) ∧
    (s.locOf (.indDisp i d) n = .mem (s.getR i + d) ∧ s.stepEA (.indDisp i d) n = s) ∧
    (s.locOf (.postInc i) n = .mem (s.getR i) ∧
      s.stepEA (.postInc i) n = s.setR i (s.getR i + BitVec.ofNat 64 n)) ∧
    (s.locOf (.postDec i) n = .mem (s.getR i) ∧
      s.stepEA (.postDec i) n = s.setR i (s.getR i - BitVec.ofNat 64 n)) ∧
    (s.locOf (.preInc i) n = .mem (s.getR i + BitVec.ofNat 64 n) ∧
      s.stepEA (.preInc i) n = s.setR i (s.getR i + BitVec.ofNat 64 n)) ∧
    (s.locOf (.preDec i) n = .mem (s.getR i - BitVec.ofNat 64 n) ∧
      s.stepEA (.preDec i) n = s.setR i (s.getR i - BitVec.ofNat 64 n))

/-- A write to a register replaces its low `8n` bits and keeps the others, in either register file, and a read takes
the low `8n` bits (R21, R25). -/
def Obligations.NarrowRegisterWriteKeepsUpperBits : Prop :=
  ∀ (s : State) (i : Reg) (sz : Size) (v : BitVec sz.bits) (j : Nat), j < 64 →
    ((s.withValueAt (.gReg i) sz v).getR i).getLsbD j =
      (if j < sz.bits then v.getLsbD j else (s.getR i).getLsbD j) ∧
    ((s.withValueAt (.fReg i) sz v).getFp i).getLsbD j =
      (if j < sz.bits then v.getLsbD j else (s.getFp i).getLsbD j) ∧
    ((s.valueAt (.gReg i) sz).getLsbD j = (decide (j < sz.bits) && (s.getR i).getLsbD j)) ∧
    ((s.valueAt (.fReg i) sz).getLsbD j = (decide (j < sz.bits) && (s.getFp i).getLsbD j))

/-! ## MOVE, CLR and the conversions -/

/-- `move.b`, `move.w`, `move.l` and `move.q` complete wherever both operands can be accessed and copy the source's
value to the destination (R110 to R114). -/
def Obligations.MoveCompletesWithCopiedValue : Prop :=
  TransfersValue .moveB .b .b (fun _ v => v) ∧ TransfersValue .moveW .w .w (fun _ v => v) ∧
  TransfersValue .moveL .l .l (fun _ v => v) ∧ TransfersValue .moveQ .q .q (fun _ v => v)

/-- `clr.b`, `clr.w`, `clr.l` and `clr.q` complete wherever the operand can be written and leave zero there
(R170 to R174). -/
def Obligations.ClrCompletesWithZero : Prop :=
  ClearsOperand .clrB .b ∧ ClearsOperand .clrW .w ∧ ClearsOperand .clrL .l ∧ ClearsOperand .clrQ .q

/-- The eight conversions of a signed integer complete wherever both operands can be accessed, with the value the
configuration's numerics gives its two's complement reading (R133 to R141, R149). -/
def Obligations.IntegerToFloatCompletes : Prop :=
  TransfersValue .fmovebS .b .l (fun s v => i2s s.launch.config.numerics v.toInt) ∧
  TransfersValue .fmovebD .b .q (fun s v => i2d s.launch.config.numerics v.toInt) ∧
  TransfersValue .fmovewS .w .l (fun s v => i2s s.launch.config.numerics v.toInt) ∧
  TransfersValue .fmovewD .w .q (fun s v => i2d s.launch.config.numerics v.toInt) ∧
  TransfersValue .fmovelS .l .l (fun s v => i2s s.launch.config.numerics v.toInt) ∧
  TransfersValue .fmovelD .l .q (fun s v => i2d s.launch.config.numerics v.toInt) ∧
  TransfersValue .fmoveqS .q .l (fun s v => i2s s.launch.config.numerics v.toInt) ∧
  TransfersValue .fmoveqD .q .q (fun s v => i2d s.launch.config.numerics v.toInt)

/-- The six conversions of a single or double complete wherever both operands can be accessed, NaNs, infinities and
values out of range included, with the value the configuration's numerics gives (R133, R142 to R147, R149). -/
def Obligations.FloatConversionCompletes : Prop :=
  TransfersValue .fmovesL .l .l (fun s v => s2i s.launch.config.numerics 32 v) ∧
  TransfersValue .fmovesQ .l .q (fun s v => s2i s.launch.config.numerics 64 v) ∧
  TransfersValue .fmovesD .l .q (fun s v => s2d s.launch.config.numerics v) ∧
  TransfersValue .fmovedL .q .l (fun s v => d2i s.launch.config.numerics 32 v) ∧
  TransfersValue .fmovedQ .q .q (fun s v => d2i s.launch.config.numerics 64 v) ∧
  TransfersValue .fmovedS .q .l (fun s v => d2s s.launch.config.numerics v)

/-- What MOVE and the conversions leave: everything but a register destination, the registers their stepping modes
step, and the stored bytes. -/
def Obligations.MoveAndConversionFrame : Prop :=
  ∀ d e : EADesc,
    LeavesAllBut (.moveB d e) d e 1 ∧ LeavesAllBut (.moveW d e) d e 2 ∧
    LeavesAllBut (.moveL d e) d e 4 ∧ LeavesAllBut (.moveQ d e) d e 8 ∧
    LeavesAllBut (.fmovebS d e) d e 4 ∧ LeavesAllBut (.fmovebD d e) d e 8 ∧
    LeavesAllBut (.fmovewS d e) d e 4 ∧ LeavesAllBut (.fmovewD d e) d e 8 ∧
    LeavesAllBut (.fmovelS d e) d e 4 ∧ LeavesAllBut (.fmovelD d e) d e 8 ∧
    LeavesAllBut (.fmoveqS d e) d e 4 ∧ LeavesAllBut (.fmoveqD d e) d e 8 ∧
    LeavesAllBut (.fmovesL d e) d e 4 ∧ LeavesAllBut (.fmovesQ d e) d e 8 ∧
    LeavesAllBut (.fmovesD d e) d e 8 ∧
    LeavesAllBut (.fmovedL d e) d e 4 ∧ LeavesAllBut (.fmovedQ d e) d e 8 ∧
    LeavesAllBut (.fmovedS d e) d e 4

/-- What CLR leaves: everything but a register operand, the register a stepping mode steps, and the stored bytes. -/
def Obligations.ClrFrame : Prop :=
  ∀ ea : EADesc,
    LeavesAllBut (.clrB ea) ea ea 1 ∧ LeavesAllBut (.clrW ea) ea ea 2 ∧
    LeavesAllBut (.clrL ea) ea ea 4 ∧ LeavesAllBut (.clrQ ea) ea ea 8

/-- A MOVE between two places in memory leaves the source's old bytes at the destination, however the two overlap
(R58 (a), R110): the read is complete before the write begins. -/
def Obligations.OverlappingMoveCopiesOldBytes : Prop :=
  ∀ (s t : State) (i j : Reg),
    (exec (.moveW (.ind i) (.ind j)) s = .next t → t.peek (s.getR i) .w = s.peek (s.getR j) .w) ∧
    (exec (.moveL (.ind i) (.ind j)) s = .next t → t.peek (s.getR i) .l = s.peek (s.getR j) .l) ∧
    (exec (.moveQ (.ind i) (.ind j)) s = .next t → t.peek (s.getR i) .q = s.peek (s.getR j) .q)

/-- Every MOVE and conversion whose source read faults reports that fault, whatever its destination would meet; one
whose source read succeeds reports the fault of its destination write; and every CLR reports the fault of its write
(R133, R170, R211). -/
def Obligations.OperandFaultsAreReportedInOrder : Prop :=
  ReportsSourceFaultFirst .moveB .b .b ∧ ReportsSourceFaultFirst .moveW .w .w ∧
  ReportsSourceFaultFirst .moveL .l .l ∧ ReportsSourceFaultFirst .moveQ .q .q ∧
  ReportsSourceFaultFirst .fmovebS .b .l ∧ ReportsSourceFaultFirst .fmovebD .b .q ∧
  ReportsSourceFaultFirst .fmovewS .w .l ∧ ReportsSourceFaultFirst .fmovewD .w .q ∧
  ReportsSourceFaultFirst .fmovelS .l .l ∧ ReportsSourceFaultFirst .fmovelD .l .q ∧
  ReportsSourceFaultFirst .fmoveqS .q .l ∧ ReportsSourceFaultFirst .fmoveqD .q .q ∧
  ReportsSourceFaultFirst .fmovesL .l .l ∧ ReportsSourceFaultFirst .fmovesQ .l .q ∧
  ReportsSourceFaultFirst .fmovesD .l .q ∧ ReportsSourceFaultFirst .fmovedL .q .l ∧
  ReportsSourceFaultFirst .fmovedQ .q .q ∧ ReportsSourceFaultFirst .fmovedS .q .l ∧
  FaultsOnBadOperand .clrB .b ∧ FaultsOnBadOperand .clrW .w ∧ FaultsOnBadOperand .clrL .l ∧
  FaultsOnBadOperand .clrQ .q

/-! ## SAVEM, LOADM, FSAVEM, FLOADM -/

/-- `savem` and `fsavem` through any stepping mode complete where all their slots can be written: in memory the masked
registers lie 8 bytes each in ascending number at ascending addresses, a base register in the mask with its start
value; the base ends past the last slot; no other register and no other byte changes (R121, R122, R161). -/
def Obligations.SaveWritesAscendingImage : Prop :=
  ∀ (file : RegFile) (s : State) (ea : EADesc) (mode : StepMode) (b : Reg) (m : BitVec 16),
    stepModeOf ea = some (mode, b) → SlotsOk s mode (s.getR b) (maskRegs m).length .write →
      ∃ t, exec (saveInstr file ea m) s = .next t ∧
        (∀ k (h : k < (maskRegs m).length),
          t.peek (imageSlot mode (s.getR b) (maskRegs m).length k) .q = s.getFile file ((maskRegs m)[k])) ∧
        t.getR b = finalBase mode (s.getR b) (maskRegs m).length ∧
        (∀ i, i ≠ b → t.getR i = s.getR i) ∧ t.fp = s.fp ∧
        (∀ x, (∀ k < (maskRegs m).length, (Loc.mem (imageSlot mode (s.getR b) (maskRegs m).length k)).misses 8 x) →
          t.mem.get x = s.mem.get x) ∧
        t.pc = s.pc ∧ t.outcome = s.outcome ∧ t.launch = s.launch

/-- `loadm` and `floadm` through any stepping mode complete where all their slots can be read: the masked registers
take their quads, the lowest number from the lowest slot; the base ends past the last slot, also where the mask names
it; no other register and no memory changes (R121, R123, R162). -/
def Obligations.LoadReadsAscendingImage : Prop :=
  ∀ (file : RegFile) (s : State) (ea : EADesc) (mode : StepMode) (b : Reg) (m : BitVec 16),
    stepModeOf ea = some (mode, b) → SlotsOk s mode (s.getR b) (maskRegs m).length .read →
      ∃ t, exec (loadInstr file ea m) s = .next t ∧
        (∀ k (h : k < (maskRegs m).length), (file = .gpr → (maskRegs m)[k] ≠ b) →
          t.getFile file ((maskRegs m)[k]) = s.peek (imageSlot mode (s.getR b) (maskRegs m).length k) .q) ∧
        t.getR b = finalBase mode (s.getR b) (maskRegs m).length ∧
        (∀ i, i ≠ b → (file = .gpr → m.getLsbD i.val = false) → t.getR i = s.getR i) ∧
        (∀ i, (file = .fpr → m.getLsbD i.val = false) → t.getFp i = s.getFp i) ∧
        t.mem = s.mem ∧ t.pc = s.pc ∧ t.outcome = s.outcome ∧ t.launch = s.launch

/-- A multi-register transfer stops at the first of its slots, in transfer order, that cannot be accessed, with that
slot's fault (R122, R123, R161, R162, R211). In transfer order the `k`-th slot is the `k`-th lowest where the address
ascends and the `k`-th highest where it descends. -/
def Obligations.TransferStopsAtFirstBadSlot : Prop :=
  ∀ (file : RegFile) (s : State) (ea : EADesc) (mode : StepMode) (b : Reg) (m : BitVec 16) (k : Nat) (f : Fault),
    stepModeOf ea = some (mode, b) → k < (maskRegs m).length →
      let slot := fun j => match mode with
        | .postInc | .preInc => imageSlot mode (s.getR b) (maskRegs m).length j
        | .postDec | .preDec => imageSlot mode (s.getR b) (maskRegs m).length ((maskRegs m).length - 1 - j)
      ((∀ j < k, s.accessFault (slot j) 8 .write = none) → s.accessFault (slot k) 8 .write = some f →
        exec (saveInstr file ea m) s = .fault f) ∧
      ((∀ j < k, s.accessFault (slot j) 8 .read = none) → s.accessFault (slot k) 8 .read = some f →
        exec (loadInstr file ea m) s = .fault f)

/-- A save followed by a load with the same mask through the opposite mode restores every register of the mask but the
base, and the base, whatever happened in between to anything but the saved bytes, the base register and the launch. The
spec marks this round trip (R124) as its own inference from R121. -/
def Obligations.SaveThenOppositeLoadRestores : Prop :=
  ∀ (file : RegFile) (s t s' : State) (ea ea' : EADesc) (mode : StepMode) (b : Reg) (m : BitVec 16),
    stepModeOf ea = some (mode, b) → stepModeOf ea' = some (mode.opposite, b) →
      exec (saveInstr file ea m) s = .next t →
      s'.launch = t.launch → s'.getR b = t.getR b →
      (∀ k < (maskRegs m).length, ∀ j < 8,
        s'.mem.get ((imageSlot mode (s.getR b) (maskRegs m).length k).toNat + j) =
          t.mem.get ((imageSlot mode (s.getR b) (maskRegs m).length k).toNat + j)) →
      ∃ u, exec (loadInstr file ea' m) s' = .next u ∧ u.getR b = s.getR b ∧
        ∀ i, m.getLsbD i.val = true → (file = .gpr → i ≠ b) → u.getFile file i = s.getFile file i

/-! ## EXG, FEXG, SWAP -/

/-- `exg` exchanges all 64 bits of two general purpose registers and changes nothing else; fetched, it moves `pc` by
2, and it faults only where its register byte is missing (R181). -/
def Obligations.ExgExchangesRegisters : Prop :=
  ∀ (s : State) (a b : Reg), ∃ t, exec (.exg a b) s = .next t ∧
    t.getR b = s.getR a ∧ t.getR a = s.getR b ∧ (∀ i, i ≠ a → i ≠ b → t.getR i = s.getR i) ∧
    t.fp = s.fp ∧ t.mem = s.mem ∧ t.pc = s.pc ∧ t.outcome = s.outcome ∧ t.launch = s.launch ∧
    (Fetches s [0x67, nibbles a b] → StepsPast s t 2) ∧ CutShortFaults s [0x67]

/-- `fexg` exchanges all 64 bits of two floating point registers and changes nothing else; fetched, it moves `pc` by
2, and it faults only where its register byte is missing (R182). -/
def Obligations.FexgExchangesRegisters : Prop :=
  ∀ (s : State) (a b : Reg), ∃ t, exec (.fexg a b) s = .next t ∧
    t.getFp b = s.getFp a ∧ t.getFp a = s.getFp b ∧ (∀ i, i ≠ a → i ≠ b → t.getFp i = s.getFp i) ∧
    t.r = s.r ∧ t.mem = s.mem ∧ t.pc = s.pc ∧ t.outcome = s.outcome ∧ t.launch = s.launch ∧
    (Fetches s [0x68, nibbles a b] → StepsPast s t 2) ∧ CutShortFaults s [0x68]

/-- `swap` exchanges bits 31:16 and 15:0 of one register, keeps bits 63:32 and changes nothing else; fetched, it moves
`pc` by 2, and it faults only on a missing register byte or a non-zero high nibble of it (R183). -/
def Obligations.SwapExchangesLowHalfwords : Prop :=
  ∀ (s : State) (n : Reg), ∃ t, exec (.swap n) s = .next t ∧
    (t.getR n).extractLsb' 32 32 = (s.getR n).extractLsb' 32 32 ∧
    (t.getR n).extractLsb' 16 16 = (s.getR n).extractLsb' 0 16 ∧
    (t.getR n).extractLsb' 0 16 = (s.getR n).extractLsb' 16 16 ∧
    (∀ i, i ≠ n → t.getR i = s.getR i) ∧
    t.fp = s.fp ∧ t.mem = s.mem ∧ t.pc = s.pc ∧ t.outcome = s.outcome ∧ t.launch = s.launch ∧
    (Fetches s [0x69, nibbles 0 n] → StepsPast s t 2) ∧ CutShortFaults s [0x69] ∧ NibbleMustBeZero s 0x69

/-- `swap.l` exchanges bits 63:32 and 31:0 of one register and changes nothing else; fetched, it moves `pc` by 2, and
it faults only on a missing register byte or a non-zero high nibble of it (R184). -/
def Obligations.SwapLExchangesHalves : Prop :=
  ∀ (s : State) (n : Reg), ∃ t, exec (.swapL n) s = .next t ∧
    (t.getR n).extractLsb' 32 32 = (s.getR n).extractLsb' 0 32 ∧
    (t.getR n).extractLsb' 0 32 = (s.getR n).extractLsb' 32 32 ∧
    (∀ i, i ≠ n → t.getR i = s.getR i) ∧
    t.fp = s.fp ∧ t.mem = s.mem ∧ t.pc = s.pc ∧ t.outcome = s.outcome ∧ t.launch = s.launch ∧
    (Fetches s [0x6A, nibbles 0 n] → StepsPast s t 2) ∧ CutShortFaults s [0x6A] ∧ NibbleMustBeZero s 0x6A

/-- Each of `swap`, `swap.l`, `exg` and `fexg` undoes itself (R181 to R184, properties 1 and 2 of 95_test_vectors.md),
for a pair in either order. -/
def Obligations.ExchangesUndoThemselves : Prop :=
  ∀ (s t : State) (a b : Reg),
    (exec (.swap a) s = .next t → exec (.swap a) t = .next s) ∧
    (exec (.swapL a) s = .next t → exec (.swapL a) t = .next s) ∧
    (exec (.exg a b) s = .next t → exec (.exg a b) t = .next s ∧ exec (.exg b a) t = .next s) ∧
    (exec (.fexg a b) s = .next t → exec (.fexg a b) t = .next s ∧ exec (.fexg b a) t = .next s)

/-- Nothing in the four register-only instructions depends on memory or on any field of the launch, `Config` included
(R180). -/
def Obligations.RegisterInstructionsIgnoreConfigAndMemory : Prop :=
  ∀ (i : Instr) (s : State) (m : Memory) (l : Launch) (a b : Reg),
    i = .exg a b ∨ i = .fexg a b ∨ i = .swap a ∨ i = .swapL a →
      ∃ t, exec i s = .next t ∧ t.mem = s.mem ∧
        exec i { s with mem := m, launch := l } = .next { t with mem := m, launch := l }

/-! ## LINK and UNLK -/

/-- `link` pushes `r[N]`, points `r[N]` at the slot and moves `sp` by the sign-extended displacement, each step seeing
the one before, so that `link sp` stores the decremented `sp`; nothing else changes; fetched, it moves `pc` by 6. It
faults where the slot cannot be written, where its bytes are cut short and on a non-zero high nibble (R191, R84). -/
def Obligations.LinkPushesAndAllocates : Prop :=
  ∀ (s : State) (n : Reg) (disp : BitVec 32),
    (s.accessFault (s.sp - 8) 8 .write = none →
      ∃ t, exec (.link n disp) s = .next t ∧
        t.sp = s.sp - 8 + disp.signExtend 64 ∧
        (n ≠ s.spIndex → t.getR n = s.sp - 8 ∧ t.peek (s.sp - 8) .q = s.getR n) ∧
        (n = s.spIndex → t.peek (s.sp - 8) .q = s.sp - 8) ∧
        (∀ i, i ≠ n → i ≠ s.spIndex → t.getR i = s.getR i) ∧ t.fp = s.fp ∧
        (∀ x, (Loc.mem (s.sp - 8)).misses 8 x → t.mem.get x = s.mem.get x) ∧
        t.pc = s.pc ∧ t.outcome = s.outcome ∧ t.launch = s.launch ∧
        (Fetches s (0x6B :: nibbles 0 n :: toBytes s.launch.config.byteOrder 4 disp.toNat) → StepsPast s t 6)) ∧
    (∀ f, s.accessFault (s.sp - 8) 8 .write = some f → exec (.link n disp) s = .fault f) ∧
    (∀ k, 0 < k → k < 6 →
      CutShortFaults s ((0x6B :: nibbles 0 n :: toBytes s.launch.config.byteOrder 4 disp.toNat).take k)) ∧
    NibbleMustBeZero s 0x6B

/-- `unlk` takes `sp` from `r[N]`, pops the slot into `r[N]` and moves `sp` past it, each step seeing the one before,
so that `unlk sp` ends with the popped quad plus 8; memory and all else stay; fetched, it moves `pc` by 2. It faults
where the slot cannot be read, on a missing register byte and on a non-zero high nibble of it (R192). -/
def Obligations.UnlkPopsFrame : Prop :=
  ∀ (s : State) (n : Reg),
    (s.accessFault (s.getR n) 8 .read = none →
      ∃ t, exec (.unlk n) s = .next t ∧
        (n ≠ s.spIndex → t.getR n = s.peek (s.getR n) .q ∧ t.sp = s.getR n + 8) ∧
        (n = s.spIndex → t.sp = s.peek s.sp .q + 8) ∧
        (∀ i, i ≠ n → i ≠ s.spIndex → t.getR i = s.getR i) ∧ t.fp = s.fp ∧
        t.mem = s.mem ∧ t.pc = s.pc ∧ t.outcome = s.outcome ∧ t.launch = s.launch ∧
        (Fetches s [0x6C, nibbles 0 n] → StepsPast s t 2)) ∧
    (∀ f, s.accessFault (s.getR n) 8 .read = some f → exec (.unlk n) s = .fault f) ∧
    CutShortFaults s [0x6C] ∧ NibbleMustBeZero s 0x6C

/-- `link r<N>` followed by `unlk r<N>`, with `N` not `sp` and neither `r[N]` nor the saved slot written in between,
restores `r[N]` and `sp`, whatever the displacement was and whatever else happened in between. The spec marks this
pairing (R193) as its own inference from R191 and R192. -/
def Obligations.LinkThenUnlkRestores : Prop :=
  ∀ (s t s' : State) (n : Reg) (disp : BitVec 32),
    n ≠ s.spIndex → exec (.link n disp) s = .next t →
      s'.launch = t.launch → s'.getR n = t.getR n →
      (∀ j < 8, s'.mem.get ((t.getR n).toNat + j) = t.mem.get ((t.getR n).toNat + j)) →
      ∃ u, exec (.unlk n) s' = .next u ∧ u.getR n = s.getR n ∧ u.sp = s.sp

/-! ## The conversions' values -/

/-- An integer some pattern denotes converts exactly under every numerics, in particular every integer of magnitude at
most 2^24 (2^53 for a double) and every power of two; zero converts to positive zero. The spec marks these laws
(R148 (a) to (c)) as its own inference from R131; they hold of the model's other numerics by log entry 8. -/
def Obligations.IntegerConversionIsExactWhenRepresentable : Prop :=
  ∀ (nm : Numerics) (x : Int), -(2 ^ 63) ≤ x → x < 2 ^ 63 →
    ((∃ p, Fmt.isFinite .single p = true ∧ Fmt.val .single p = x * 2 ^ 149) ∨ x.natAbs ≤ 2 ^ 24 ∨
        (∃ k, x.natAbs = 2 ^ k) →
      Fmt.isFinite .single (i2s nm x) = true ∧ Fmt.val .single (i2s nm x) = x * 2 ^ 149) ∧
    ((∃ p, Fmt.isFinite .double p = true ∧ Fmt.val .double p = x * 2 ^ 1074) ∨ x.natAbs ≤ 2 ^ 53 ∨
        (∃ k, x.natAbs = 2 ^ k) →
      Fmt.isFinite .double (i2d nm x) = true ∧ Fmt.val .double (i2d nm x) = x * 2 ^ 1074) ∧
    i2s nm 0 = 0 ∧ i2d nm 0 = 0

/-- `S2D` is exact under every numerics: it denotes the same number with the same sign, and an infinity stays the
infinity of that sign (R148 (d), which the spec infers from R131; the infinities are the model's reading, log entry 8).
-/
def Obligations.SingleToDoubleIsExact : Prop :=
  ∀ (nm : Numerics) (p : BitVec 32),
    (Fmt.isInf .single p = true → s2d nm p = Fmt.infinity .double (Fmt.neg .single p)) ∧
    (Fmt.isFinite .single p = true →
      Fmt.isFinite .double (s2d nm p) = true ∧ Fmt.neg .double (s2d nm p) = Fmt.neg .single p ∧
      Fmt.val .double (s2d nm p) = Fmt.val .single p * 2 ^ 925)

/-- `S2I` and `D2I` return the integer a pattern denotes whenever it fits the target, under every numerics
(R148 (e), which the spec infers from R131; of other numerics it holds by log entry 8). -/
def Obligations.IntegerValuedFloatConvertsExactly : Prop :=
  ∀ (nm : Numerics) (N : Nat) (x : Int), N = 32 ∨ N = 64 → -(2 ^ (N - 1)) ≤ x → x < 2 ^ (N - 1) →
    (∀ p, Fmt.isFinite .single p = true → Fmt.val .single p = x * 2 ^ 149 → (s2i nm N p).toInt = x) ∧
    (∀ p, Fmt.isFinite .double p = true → Fmt.val .double p = x * 2 ^ 1074 → (d2i nm N p).toInt = x)

/-- `D2S` is exact under every numerics on a double that denotes a binary32 value (R148 (f)); that the sign of a zero
and an infinity stay as they are is the model's reading of the law, as vectors F70 and F71 have it (log entry 8). -/
def Obligations.DoubleToSingleIsExactWhenRepresentable : Prop :=
  ∀ (nm : Numerics) (d : BitVec 64),
    (Fmt.isInf .double d = true → d2s nm d = Fmt.infinity .single (Fmt.neg .double d)) ∧
    (∀ p, Fmt.isFinite .double d = true → Fmt.isFinite .single p = true →
      Fmt.val .single p * 2 ^ 925 = Fmt.val .double d →
        Fmt.isFinite .single (d2s nm d) = true ∧ Fmt.neg .single (d2s nm d) = Fmt.neg .double d ∧
        Fmt.val .single (d2s nm d) * 2 ^ 925 = Fmt.val .double d)

/-- Under `RefNumerics` a finite single or double whose truncation fits the target converts to that truncation, the
fraction dropped toward zero (R132). -/
def Obligations.ReferenceFloatToIntegerTruncates : Prop :=
  ∀ N : Nat, N = 32 ∨ N = 64 →
    (∀ p, Fmt.isFinite .single p = true → -(2 ^ (N - 1)) ≤ (Fmt.val .single p).tdiv (2 ^ 149) →
      (Fmt.val .single p).tdiv (2 ^ 149) < 2 ^ (N - 1) →
      (s2i .ref N p).toInt = (Fmt.val .single p).tdiv (2 ^ 149)) ∧
    (∀ p, Fmt.isFinite .double p = true → -(2 ^ (N - 1)) ≤ (Fmt.val .double p).tdiv (2 ^ 1074) →
      (Fmt.val .double p).tdiv (2 ^ 1074) < 2 ^ (N - 1) →
      (d2i .ref N p).toInt = (Fmt.val .double p).tdiv (2 ^ 1074))

/-- Under `RefNumerics` an integer converts to the nearest single and the nearest double, a tie to the even fraction
(R132). -/
def Obligations.ReferenceIntegerToFloatIsNearestEven : Prop :=
  ∀ x : Int, -(2 ^ 63) ≤ x → x < 2 ^ 63 →
    IsNearestEven .single (x * 2 ^ 149) 1 (i2s .ref x) ∧ IsNearestEven .double (x * 2 ^ 1074) 1 (i2d .ref x)

/-- Under `RefNumerics` a finite double converts to the nearest single, a tie to the even fraction and the sign kept,
but to the infinity of its sign from the magnitude of 0x47EFFFFFF0000000 on (R132). -/
def Obligations.ReferenceDoubleToSingleIsNearestEven : Prop :=
  ∀ d : BitVec 64, Fmt.isFinite .double d = true →
    Fmt.neg .single (d2s .ref d) = Fmt.neg .double d ∧
    (Fmt.mag .double d < Fmt.mag .double 0x47EFFFFFF0000000#64 →
      IsNearestEven .single (Fmt.val .double d) (2 ^ 925) (d2s .ref d)) ∧
    (Fmt.mag .double 0x47EFFFFFF0000000#64 ≤ Fmt.mag .double d →
      d2s .ref d = Fmt.infinity .single (Fmt.neg .double d))

/-- Under `RefNumerics` a NaN converts to some NaN of the target format, whatever the free values are (R132). -/
def Obligations.NanConvertsToNan : Prop :=
  (∀ p, Fmt.isNaN .single p = true → Fmt.isNaN .double (s2d .ref p) = true) ∧
  (∀ d, Fmt.isNaN .double d = true → Fmt.isNaN .single (d2s .ref d) = true)

/-- Under every numerics, the conversions that are always exact are undone by the opposite ones: a byte, word or long
through a double, a byte or word through a single, and every single that is no NaN through a double (properties 10
and 11 of 95_test_vectors.md, R148, which the spec infers from R131). That the last holds of zeros and infinities under
other numerics is the model's reading, as vectors F70 and F71 have it (log entry 8, DEDUCED). -/
def Obligations.ExactConversionsRoundTrip : Prop :=
  ∀ nm : Numerics,
    (∀ v : BitVec 8, s2i nm 32 (i2s nm v.toInt) = v.signExtend 32 ∧ s2i nm 64 (i2s nm v.toInt) = v.signExtend 64 ∧
      d2i nm 32 (i2d nm v.toInt) = v.signExtend 32 ∧ d2i nm 64 (i2d nm v.toInt) = v.signExtend 64) ∧
    (∀ v : BitVec 16, s2i nm 32 (i2s nm v.toInt) = v.signExtend 32 ∧ s2i nm 64 (i2s nm v.toInt) = v.signExtend 64 ∧
      d2i nm 32 (i2d nm v.toInt) = v.signExtend 32 ∧ d2i nm 64 (i2d nm v.toInt) = v.signExtend 64) ∧
    (∀ v : BitVec 32, d2i nm 32 (i2d nm v.toInt) = v ∧ d2i nm 64 (i2d nm v.toInt) = v.signExtend 64) ∧
    (∀ p : BitVec 32, Fmt.isNaN .single p = false → d2s nm (s2d nm p) = p)

/-! ## The machine -/

/-- When the bytes at `pc` decode to an instruction of `len` bytes, the step is `exec` of it, with `pc` moved past it
when it completes, and its fault otherwise; no instruction of the group is refused once it is decoded (R28, R234). -/
def Obligations.StepRunsDecodedInstruction : Prop :=
  ∀ (s : State) (i : Instr) (len : Nat),
    s.outcome = .running → s.pc.toNat ≠ s.launch.codeEnd → s.decodeAt = .ok (i, len) →
      (∀ t, exec i s = .next t → StepsPast s t len) ∧
      (∀ f, exec i s = .fault f → step s = .fault f) ∧
      (∀ q, exec i s ≠ .refused q)

/-- Every step of a running machine that is not at the end of its text runs the decoded instruction and moves `pc` by
its length, at least 2, and in no other way (R28, which the spec infers from the operation lines). -/
def Obligations.StepAdvancesPcByLength : Prop :=
  ∀ s t : State, s.outcome = .running → s.pc.toNat ≠ s.launch.codeEnd → step s = .next t →
    ∃ i len, s.decodeAt = .ok (i, len) ∧ 2 ≤ len ∧ t.pc = s.pc + BitVec.ofNat 64 len ∧
      exec i s = .next { t with pc := s.pc }

/-- A step that begins at the end of the text ends the run and changes nothing else (R234). That the end is a next state
with its outcome `ended` is the model's choice (log entry 10). -/
def Obligations.RunEndsAtCodeEnd : Prop :=
  ∀ s : State, s.outcome = .running → s.pc.toNat = s.launch.codeEnd → step s = .next { s with outcome := .ended }

/-- A run that has ended, faulted or been refused takes no further step, and a step that faults or is refused keeps its
reason as the outcome, with registers and memory as before it (R200, R218, R234). That they are as before a fault
during execution is the model's choice, the spec leaving it undefined (log entry 9). -/
def Obligations.StoppedRunStaysStopped : Prop :=
  (∀ s : State, s.outcome ≠ .running → runStep s = s) ∧
  (∀ (s : State) (f : Fault), step s = .fault f → runStep s = { s with outcome := .faulted f }) ∧
  (∀ (s : State) (q : Refusal), step s = .refused q → runStep s = { s with outcome := .refused q })

/-- `Config`, the program text, `CODE_BASE` and `MEM_VALID` never change during a run (R35). -/
def Obligations.StepNeverChangesLaunch : Prop :=
  (∀ s t : State, step s = .next t → t.launch = s.launch) ∧ (∀ s : State, (runStep s).launch = s.launch)

/-- No instruction reads `pc`: run at another `pc`, it completes with the same effect (R27). -/
def Obligations.InstructionEffectIgnoresPc : Prop :=
  ∀ (i : Instr) (s t : State) (p : Addr), exec i s = .next t → exec i { s with pc := p } = .next { t with pc := p }

/-- The invariant of the machine is kept by every step: the launch stays allowed, `pc` stays in the text or at its
end, memory stays in its canonical form and on `MEM_VALID`, and a run ends at the end of its text only. -/
def Obligations.StepKeepsMachineInvariant : Prop :=
  ∀ s t : State, s.Inv → step s = .next t → t.Inv

/-- The state after reset has the invariant; its values beyond R34 are the model's choice (log entries 4 and 5). -/
def Obligations.ResetHasMachineInvariant : Prop := State.reset.Inv

/-- After reset `pc` is `CODE_BASE`, the run is running, nothing has faulted or been refused (R34, R230). -/
def Obligations.ResetStartsRunningAtCodeBase : Prop :=
  State.reset.pc = State.reset.launch.codeBase ∧ State.reset.outcome = .running

/-- Every run stops: from a running state with the invariant, after at most half as many steps as bytes are left in the
text and the step that ends the run, the run has ended, unless a step faulted or was refused (R234, whose bound the
spec infers from R28 and R75). -/
def Obligations.RunStopsWithinHalfTheText : Prop :=
  ∀ s t : State, s.Inv → s.outcome = .running →
    Host.Core.run core ((s.launch.codeEnd - s.pc.toNat) / 2 + 1) s = .next t →
      t.finished ∧ t.pc.toNat = t.launch.codeEnd
end

