-- ==== Sys2Proof/Laws/State.lean ====
section
/-! SUPPORT. What each update of the state leaves and changes, one lemma per field per update, so that no proof unfolds
a record update. -/

namespace Sys2Proof.Machine

variable (s : State) (i j : Reg) (v : Quad)

/-! ## Writing a general purpose register -/

@[simp] theorem setR_fp : (s.setR i v).fp = s.fp := rfl
@[simp] theorem setR_pc : (s.setR i v).pc = s.pc := rfl
@[simp] theorem setR_mem : (s.setR i v).mem = s.mem := rfl
@[simp] theorem setR_outcome : (s.setR i v).outcome = s.outcome := rfl
@[simp] theorem setR_launch : (s.setR i v).launch = s.launch := rfl
@[simp] theorem setR_spIndex : (s.setR i v).spIndex = s.spIndex := rfl
@[simp] theorem setR_getFp : (s.setR i v).getFp j = s.getFp j := rfl

@[simp] theorem setR_getR_same : (s.setR i v).getR i = v := by simp [State.setR, State.getR]

theorem setR_getR_ne (h : j ≠ i) : (s.setR i v).getR j = s.getR j := by
  have : (i : Nat) ≠ j := fun e => h (Fin.ext e.symm)
  simp [State.setR, State.getR, this]

theorem setR_getR : (s.setR i v).getR j = if j = i then v else s.getR j := by
  by_cases h : j = i
  · subst h; simp
  · simp [h, setR_getR_ne]

/-! ## Writing a floating point register -/

@[simp] theorem setFp_r : (s.setFp i v).r = s.r := rfl
@[simp] theorem setFp_pc : (s.setFp i v).pc = s.pc := rfl
@[simp] theorem setFp_mem : (s.setFp i v).mem = s.mem := rfl
@[simp] theorem setFp_outcome : (s.setFp i v).outcome = s.outcome := rfl
@[simp] theorem setFp_launch : (s.setFp i v).launch = s.launch := rfl
@[simp] theorem setFp_spIndex : (s.setFp i v).spIndex = s.spIndex := rfl
@[simp] theorem setFp_getR : (s.setFp i v).getR j = s.getR j := rfl

@[simp] theorem setFp_getFp_same : (s.setFp i v).getFp i = v := by simp [State.setFp, State.getFp]

theorem setFp_getFp_ne (h : j ≠ i) : (s.setFp i v).getFp j = s.getFp j := by
  have : (i : Nat) ≠ j := fun e => h (Fin.ext e.symm)
  simp [State.setFp, State.getFp, this]

theorem setFp_getFp : (s.setFp i v).getFp j = if j = i then v else s.getFp j := by
  by_cases h : j = i
  · subst h; simp
  · simp [h, setFp_getFp_ne]

/-! ## Writing `sp` -/

theorem setSp_eq : s.setSp v = s.setR s.spIndex v := rfl
@[simp] theorem setSp_fp : (s.setSp v).fp = s.fp := rfl
@[simp] theorem setSp_pc : (s.setSp v).pc = s.pc := rfl
@[simp] theorem setSp_mem : (s.setSp v).mem = s.mem := rfl
@[simp] theorem setSp_outcome : (s.setSp v).outcome = s.outcome := rfl
@[simp] theorem setSp_launch : (s.setSp v).launch = s.launch := rfl
@[simp] theorem setSp_spIndex : (s.setSp v).spIndex = s.spIndex := rfl
@[simp] theorem setSp_getFp : (s.setSp v).getFp j = s.getFp j := rfl
@[simp] theorem setSp_sp : (s.setSp v).sp = v := by simp [State.sp, setSp_eq]
theorem setSp_getR_ne (h : j ≠ s.spIndex) : (s.setSp v).getR j = s.getR j := setR_getR_ne _ _ _ _ h
theorem setR_sp_ne (h : s.spIndex ≠ i) : (s.setR i v).sp = s.sp := setR_getR_ne _ _ _ _ h

/-! ## Storing bytes -/

variable (a : Addr) (sz : Size) (x : BitVec sz.bits)

@[simp] theorem poke_r : (s.poke a sz x).r = s.r := rfl
@[simp] theorem poke_fp : (s.poke a sz x).fp = s.fp := rfl
@[simp] theorem poke_pc : (s.poke a sz x).pc = s.pc := rfl
@[simp] theorem poke_outcome : (s.poke a sz x).outcome = s.outcome := rfl
@[simp] theorem poke_launch : (s.poke a sz x).launch = s.launch := rfl
@[simp] theorem poke_spIndex : (s.poke a sz x).spIndex = s.spIndex := rfl
@[simp] theorem poke_getR : (s.poke a sz x).getR j = s.getR j := rfl
@[simp] theorem poke_getFp : (s.poke a sz x).getFp j = s.getFp j := rfl
@[simp] theorem poke_sp : (s.poke a sz x).sp = s.sp := rfl
theorem poke_mem :
    (s.poke a sz x).mem = s.mem.store a.toNat (toBytes s.launch.config.byteOrder sz.bytes x.toNat) := rfl

/-! ## A register of either file -/

variable (file : RegFile)

@[simp] theorem setFile_pc : (s.setFile file i v).pc = s.pc := by cases file <;> rfl
@[simp] theorem setFile_mem : (s.setFile file i v).mem = s.mem := by cases file <;> rfl
@[simp] theorem setFile_outcome : (s.setFile file i v).outcome = s.outcome := by cases file <;> rfl
@[simp] theorem setFile_launch : (s.setFile file i v).launch = s.launch := by cases file <;> rfl

theorem setFile_getFile : (s.setFile file i v).getFile file j = if j = i then v else s.getFile file j := by
  cases file
  · exact setR_getR s i j v
  · exact setFp_getFp s i j v

/-! ## Advancing `pc` -/

variable (n : Nat)

@[simp] theorem advance_r : (s.advance n).r = s.r := rfl
@[simp] theorem advance_fp : (s.advance n).fp = s.fp := rfl
@[simp] theorem advance_mem : (s.advance n).mem = s.mem := rfl
@[simp] theorem advance_outcome : (s.advance n).outcome = s.outcome := rfl
@[simp] theorem advance_launch : (s.advance n).launch = s.launch := rfl
@[simp] theorem advance_getR : (s.advance n).getR j = s.getR j := rfl
@[simp] theorem advance_getFp : (s.advance n).getFp j = s.getFp j := rfl
@[simp] theorem advance_sp : (s.advance n).sp = s.sp := rfl
@[simp] theorem advance_pc : (s.advance n).pc = s.pc + BitVec.ofNat 64 n := rfl

/-! ## Resolving an effective address -/

variable (ea : EADesc)

@[simp] theorem stepEA_fp : (s.stepEA ea n).fp = s.fp := by cases ea <;> rfl
@[simp] theorem stepEA_pc : (s.stepEA ea n).pc = s.pc := by cases ea <;> rfl
@[simp] theorem stepEA_mem : (s.stepEA ea n).mem = s.mem := by cases ea <;> rfl
@[simp] theorem stepEA_outcome : (s.stepEA ea n).outcome = s.outcome := by cases ea <;> rfl
@[simp] theorem stepEA_launch : (s.stepEA ea n).launch = s.launch := by cases ea <;> rfl
@[simp] theorem stepEA_getFp : (s.stepEA ea n).getFp j = s.getFp j := by cases ea <;> rfl

/-! ## Two states with equal registers -/

theorem State.ext_get {s t : State} (hr : ∀ i, s.getR i = t.getR i) (hf : ∀ i, s.getFp i = t.getFp i)
    (hpc : s.pc = t.pc) (hm : s.mem = t.mem) (ho : s.outcome = t.outcome) (hl : s.launch = t.launch) : s = t := by
  obtain ⟨r, f, pc, m, o, l⟩ := s
  obtain ⟨r', f', pc', m', o', l'⟩ := t
  have e1 : r = r' := Vector.ext fun k hk => hr ⟨k, hk⟩
  have e2 : f = f' := Vector.ext fun k hk => hf ⟨k, hk⟩
  simp_all

end Sys2Proof.Machine
end

