-- ==== Sys2Proof/Laws/Memory.lean ====
section
/-! SUPPORT. Memory: what a read after a write gives, which bytes a write leaves alone, and that every operation keeps
the canonical form. None of the reading laws needs the canonical form. -/

namespace Sys2Proof.Machine

/-! ## One byte -/

theorem Memory.get_insert (m : Memory) (a b : Nat) (v : Byte) :
    (m.insert a v).get b = if b = a then v else m.get b := by
  induction m with
  | nil => simp [Memory.insert, Memory.get]
  | cons c m ih =>
    obtain ⟨k, w⟩ := c
    simp only [Memory.insert]
    split
    · simp [Memory.get]
    · split
      · rename_i h; subst h; by_cases e : b = a <;> simp [Memory.get, e]
      · rename_i h1 h2
        by_cases e : b = k
        · subst e; simp [Memory.get, Ne.symm h2]
        · simp [Memory.get, e, ih]

theorem Memory.get_erase (m : Memory) (a b : Nat) :
    (m.erase a).get b = if b = a then Memory.fill else m.get b := by
  induction m with
  | nil => simp [Memory.erase, Memory.get]
  | cons c m ih =>
    obtain ⟨k, w⟩ := c
    simp only [Memory.erase] at ih ⊢
    by_cases h : k = a
    · subst h
      simp only [bne_self_eq_false, Bool.false_eq_true, not_false_eq_true, List.filter_cons_of_neg, ih]
      by_cases e : b = k <;> simp [Memory.get, e]
    · by_cases e : b = k
      · subst e; simp [Memory.get, h]
      · simp [Memory.get, h, e, ih]

/-- A read after a write of one byte: the byte written at its address, the old byte everywhere else. -/
theorem Memory.get_set (m : Memory) (a b : Nat) (v : Byte) :
    (m.set a v).get b = if b = a then v else m.get b := by
  simp only [Memory.set]
  split
  · rename_i h; simp [Memory.get_erase, h]
  · exact Memory.get_insert m a b v

/-! ## Several bytes -/

theorem Memory.get_store (bs : List Byte) (m : Memory) (a b : Nat) :
    (m.store a bs).get b = if h : a ≤ b ∧ b < a + bs.length then bs[b - a]'(by omega) else m.get b := by
  induction bs generalizing m a with
  | nil => simp only [Memory.store, List.length_nil]; split <;> first | omega | rfl
  | cons x bs ih =>
    simp only [Memory.store, ih, Memory.get_set, List.length_cons]
    by_cases e : b = a
    · subst e; simp
    · by_cases h : a + 1 ≤ b ∧ b < a + 1 + bs.length
      · have h' : a ≤ b ∧ b < a + (bs.length + 1) := by omega
        have e' : b - a = (b - (a + 1)) + 1 := by omega
        simp [h, h', e']
      · have h' : ¬ (a ≤ b ∧ b < a + (bs.length + 1)) := by omega
        rw [dif_neg h, dif_neg h', if_neg e]

/-- A store leaves every byte outside the stored ones alone. -/
theorem Memory.get_store_outside (bs : List Byte) (m : Memory) (a b : Nat) (h : b < a ∨ a + bs.length ≤ b) :
    (m.store a bs).get b = m.get b := by
  rw [Memory.get_store, dif_neg (by omega)]

@[simp] theorem Memory.load_length (m : Memory) (a n : Nat) : (m.load a n).length = n := by simp [Memory.load]

/-- A load of what a store wrote gives the bytes stored. -/
theorem Memory.load_store (bs : List Byte) (m : Memory) (a : Nat) : (m.store a bs).load a bs.length = bs := by
  apply List.ext_getElem
  · simp
  · intro k h1 h2
    simp only [Memory.load, List.getElem_map, List.getElem_range, Memory.get_store]
    rw [dif_pos (by omega)]
    congr 1
    omega

/-- A load that meets no stored byte reads as before the store. -/
theorem Memory.load_store_outside (bs : List Byte) (m : Memory) (a b n : Nat) (h : b + n ≤ a ∨ a + bs.length ≤ b) :
    (m.store a bs).load b n = m.load b n := by
  simp only [Memory.load]
  apply List.map_congr_left
  intro k hk
  have := List.mem_range.mp hk
  exact Memory.get_store_outside bs m a (b + k) (by omega)

/-- Two memories with the same bytes from `a` on load the same bytes. -/
theorem Memory.load_congr (m m' : Memory) (a n : Nat) (h : ∀ k < n, m.get (a + k) = m'.get (a + k)) :
    m.load a n = m'.load a n := by
  simp only [Memory.load]
  exact List.map_congr_left fun k hk => h k (List.mem_range.mp hk)

/-! ## The canonical form -/

theorem Memory.wf_cons (k : Nat) (v : Byte) (m : Memory) :
    Memory.wf ((k, v) :: m) = true ↔ v ≠ Memory.fill ∧ (∀ c ∈ m, k < c.1) ∧ m.wf = true := by
  simp [Memory.wf, and_assoc]

theorem Memory.mem_insert {m : Memory} {a : Nat} {v : Byte} {c : Host.Cell} (h : c ∈ m.insert a v) :
    c = (a, v) ∨ c ∈ m := by
  induction m with
  | nil => simpa [Memory.insert] using h
  | cons d m ih =>
    obtain ⟨k, w⟩ := d
    simp only [Memory.insert] at h
    split at h
    · simpa using h
    · split at h
      · rename_i e; subst e
        rcases List.mem_cons.mp h with h | h
        · exact .inl h
        · exact .inr (List.mem_cons_of_mem _ h)
      · rcases List.mem_cons.mp h with h | h
        · exact .inr (h ▸ List.mem_cons_self)
        · exact (ih h).imp id (List.mem_cons_of_mem _)

/-- Every entry after a write is an old one or the one written. -/
theorem Memory.mem_set {m : Memory} {a : Nat} {v : Byte} {c : Host.Cell} (h : c ∈ m.set a v) :
    c = (a, v) ∨ c ∈ m := by
  simp only [Memory.set] at h
  split at h
  · exact .inr (List.mem_filter.mp h).1
  · exact Memory.mem_insert h

theorem Memory.wf_insert {m : Memory} {a : Nat} {v : Byte} (hv : v ≠ Memory.fill) (h : m.wf = true) :
    (m.insert a v).wf = true := by
  induction m with
  | nil => simp [Memory.insert, Memory.wf, hv]
  | cons d m ih =>
    obtain ⟨k, w⟩ := d
    obtain ⟨hw, hk, hm⟩ := (Memory.wf_cons k w m).mp h
    simp only [Memory.insert]
    split
    · rename_i hlt
      refine (Memory.wf_cons _ _ _).mpr ⟨hv, fun c hc => ?_, h⟩
      rcases List.mem_cons.mp hc with e | e
      · simp [e, hlt]
      · exact lt_trans hlt (hk c e)
    · split
      · exact (Memory.wf_cons _ _ _).mpr ⟨hv, hk, hm⟩
      · rename_i h1 h2
        refine (Memory.wf_cons _ _ _).mpr ⟨hw, fun c hc => ?_, ih hm⟩
        rcases Memory.mem_insert hc with e | e
        · simp [e]; omega
        · exact hk c e

theorem Memory.wf_erase {m : Memory} {a : Nat} (h : m.wf = true) : (m.erase a).wf = true := by
  induction m with
  | nil => rfl
  | cons d m ih =>
    obtain ⟨k, w⟩ := d
    obtain ⟨hw, hk, hm⟩ := (Memory.wf_cons k w m).mp h
    simp only [Memory.erase, List.filter_cons] at ih ⊢
    split
    · exact (Memory.wf_cons _ _ _).mpr ⟨hw, fun c hc => hk c (List.mem_filter.mp hc).1, ih hm⟩
    · exact ih hm

/-- Writing one byte keeps the canonical form. -/
theorem Memory.wf_set {m : Memory} (a : Nat) (v : Byte) (h : m.wf = true) : (m.set a v).wf = true := by
  simp only [Memory.set]
  split
  · exact Memory.wf_erase h
  · rename_i hv; exact Memory.wf_insert hv h

/-- Storing bytes keeps the canonical form. -/
theorem Memory.wf_store (bs : List Byte) {m : Memory} (a : Nat) (h : m.wf = true) : (m.store a bs).wf = true := by
  induction bs generalizing m a with
  | nil => exact h
  | cons b bs ih => exact ih (a + 1) (Memory.wf_set a b h)

/-- Every entry after a store is an old one or at a stored address. -/
theorem Memory.mem_store {bs : List Byte} {m : Memory} {a : Nat} {c : Host.Cell} (h : c ∈ m.store a bs) :
    c ∈ m ∨ (a ≤ c.1 ∧ c.1 < a + bs.length) := by
  induction bs generalizing m a with
  | nil => exact .inl h
  | cons b bs ih =>
    rcases ih h with h | h
    · rcases Memory.mem_set h with h | h
      · exact .inr (by simp [h])
      · exact .inl h
    · exact .inr (by simp only [List.length_cons]; omega)

theorem reset_mem_wf : State.reset.mem.wf = true := by decide

/-! ## Two canonical memories with the same bytes are equal -/

theorem Memory.get_of_lt {m : Memory} {a : Nat} (h : ∀ c ∈ m, a < c.1) : m.get a = Memory.fill := by
  induction m with
  | nil => rfl
  | cons d m ih =>
    obtain ⟨k, w⟩ := d
    have : a ≠ k := by have := h (k, w) List.mem_cons_self; simp at this; omega
    simp [Memory.get, this, ih fun c hc => h c (List.mem_cons_of_mem _ hc)]

theorem Memory.get_of_mem {m : Memory} (h : m.wf = true) {c : Host.Cell} (hc : c ∈ m) :
    m.get c.1 = c.2 ∧ c.2 ≠ Memory.fill := by
  induction m with
  | nil => simp at hc
  | cons d m ih =>
    obtain ⟨k, w⟩ := d
    obtain ⟨hw, hk, hm⟩ := (Memory.wf_cons k w m).mp h
    rcases List.mem_cons.mp hc with e | e
    · subst e; exact ⟨by simp [Memory.get], hw⟩
    · have h1 := hk c e
      have h2 := ih hm e
      exact ⟨by simp [Memory.get, Nat.ne_of_gt h1, h2.1], h2.2⟩

/-- The canonical form is canonical: memories in it that read alike everywhere are equal. -/
theorem Memory.ext_of_wf {m m' : Memory} (h : m.wf = true) (h' : m'.wf = true)
    (hg : ∀ a, m.get a = m'.get a) : m = m' := by
  induction m generalizing m' with
  | nil =>
    cases m' with
    | nil => rfl
    | cons d m' =>
      have := Memory.get_of_mem h' (List.mem_cons_self (a := d) (l := m'))
      exact absurd (this.1.symm.trans (hg d.1).symm) this.2
  | cons d m ih =>
    cases m' with
    | nil =>
      have := Memory.get_of_mem h (List.mem_cons_self (a := d) (l := m))
      exact absurd (this.1.symm.trans (hg d.1)) this.2
    | cons d' m' =>
      obtain ⟨k, w⟩ := d
      obtain ⟨k', w'⟩ := d'
      obtain ⟨hw, hk, hm⟩ := (Memory.wf_cons k w m).mp h
      obtain ⟨hw', hk', hm'⟩ := (Memory.wf_cons k' w' m').mp h'
      have e : k = k' := by
        rcases Nat.lt_trichotomy k k' with l | l | l
        · have := hg k
          rw [Memory.get_of_lt (m := (k', w') :: m')] at this
          · exact absurd (by simpa [Memory.get] using this) hw
          · intro c hc
            rcases List.mem_cons.mp hc with e | e
            · simp [e, l]
            · exact lt_trans l (hk' c e)
        · exact l
        · have := hg k'
          rw [Memory.get_of_lt (m := (k, w) :: m)] at this
          · exact absurd (by simpa [Memory.get] using this.symm) hw'
          · intro c hc
            rcases List.mem_cons.mp hc with e | e
            · simp [e, l]
            · exact lt_trans l (hk c e)
      subst e
      have ew : w = w' := by simpa [Memory.get] using hg k
      subst ew
      congr 1
      refine ih hm hm' fun a => ?_
      by_cases e : a = k
      · subst e; rw [Memory.get_of_lt hk, Memory.get_of_lt hk']
      · simpa [Memory.get, e] using hg a

end Sys2Proof.Machine
end

