-- ==== Sys2Proof/Laws/Ops.lean ====
section
/-! SUPPORT. One lemma per shared operation that says once everything it can do, and what each of them leaves
unchanged. -/

namespace Sys2Proof.Machine

/-! ## Bytes -/

@[simp] theorem leDigits_length (n v : Nat) : (leDigits n v).length = n := by
  induction n generalizing v with
  | zero => rfl
  | succ n ih => simp [leDigits, ih]

@[simp] theorem leOrder_length (o : ByteOrder) (bs : List Byte) : (leOrder o bs).length = bs.length := by
  cases o <;> simp [leOrder]

@[simp] theorem toBytes_length (o : ByteOrder) (n v : Nat) : (toBytes o n v).length = n := by simp [toBytes]

/-! ## Accesses -/

/-- The kind of an access decides only what its fault says. -/
theorem accessFault_kind (s : State) (a : Addr) (n : Nat) (k k' : AccessKind) :
    s.accessFault a n k = none ↔ s.accessFault a n k' = none := by
  simp only [State.accessFault]
  split
  · simp
  · split <;> simp

/-- An access meets the same fault in any state with the same launch. -/
theorem accessFault_congr {s t : State} (h : s.launch = t.launch) (a : Addr) (n : Nat) (k : AccessKind) :
    s.accessFault a n k = t.accessFault a n k := by simp only [State.accessFault, h]

/-- When an access meets no fault (R43, R46). -/
theorem accessFault_none_iff (s : State) (a : Addr) (n : Nat) (k : AccessKind) :
    s.accessFault a n k = none ↔
      (s.launch.config.alignPolicy = .fault → a.toNat % n = 0) ∧ s.launch.admitted a n = true := by
  simp only [State.accessFault]
  split
  · rename_i h; simp [h.1, h.2]
  · rename_i h
    split
    · rename_i h2; simp only [h2, and_true, true_iff]; intro h3; by_contra h4; exact h ⟨h3, h4⟩
    · rename_i h2; simp [h2]

/-- An admitted access lies in the address space, on valid addresses only. -/
theorem admitted_iff (l : Launch) (a : Addr) (n : Nat) :
    l.admitted a n = true ↔ a.toNat + n ≤ 2 ^ 64 ∧ ∀ k < n, l.valid (a.toNat + k) = true := by
  simp [Launch.admitted]

theorem memRead_ok {s : State} {a : Addr} {sz : Size} {v : BitVec sz.bits} :
    s.memRead a sz = .ok v ↔ s.accessFault a sz.bytes .read = none ∧ v = s.peek a sz := by
  simp only [State.memRead]
  cases s.accessFault a sz.bytes .read <;> simp [eq_comm]

theorem memRead_error {s : State} {a : Addr} {sz : Size} {f : Fault} :
    s.memRead a sz = .error f ↔ s.accessFault a sz.bytes .read = some f := by
  simp only [State.memRead]
  cases s.accessFault a sz.bytes .read <;> simp

theorem memWrite_ok {s t : State} {a : Addr} {sz : Size} {v : BitVec sz.bits} :
    s.memWrite a sz v = .ok t ↔ s.accessFault a sz.bytes .write = none ∧ t = s.poke a sz v := by
  simp only [State.memWrite]
  cases s.accessFault a sz.bytes .write <;> simp [eq_comm]

theorem memWrite_error {s : State} {a : Addr} {sz : Size} {v : BitVec sz.bits} {f : Fault} :
    s.memWrite a sz v = .error f ↔ s.accessFault a sz.bytes .write = some f := by
  simp only [State.memWrite]
  cases s.accessFault a sz.bytes .write <;> simp

/-- A store leaves every byte outside its own alone. -/
theorem poke_get_outside (s : State) (a : Addr) (sz : Size) (v : BitVec sz.bits) (x : Nat)
    (h : x < a.toNat ∨ a.toNat + sz.bytes ≤ x) : (s.poke a sz v).mem.get x = s.mem.get x := by
  rw [poke_mem]
  exact Memory.get_store_outside _ _ _ _ (by simpa using h)

theorem poke_mem_wf {s : State} (a : Addr) (sz : Size) (v : BitVec sz.bits) (h : s.mem.wf = true) :
    (s.poke a sz v).mem.wf = true := Memory.wf_store _ _ h

/-- A store to an admitted place lists valid addresses only. -/
theorem poke_memInValid {s : State} {a : Addr} {sz : Size} (v : BitVec sz.bits) (h : s.memInValid)
    (ha : s.accessFault a sz.bytes .write = none) : (s.poke a sz v).memInValid := by
  intro c hc
  rw [poke_mem] at hc
  rcases Memory.mem_store hc with hc | hc
  · exact h c hc
  · have hv := ((admitted_iff _ _ _).mp ((accessFault_none_iff _ _ _ _).mp ha).2).2
    simp only [toBytes_length] at hc
    have e : a.toNat + (c.1 - a.toNat) = c.1 := by omega
    simpa [e] using hv (c.1 - a.toNat) (by omega)

/-- A quad, long, word or byte reads the same in two memories that agree on its bytes. -/
theorem peek_congr {s t : State} (hl : s.launch = t.launch) (a : Addr) (sz : Size)
    (h : ∀ k < sz.bytes, s.mem.get (a.toNat + k) = t.mem.get (a.toNat + k)) : s.peek a sz = t.peek a sz := by
  simp only [State.peek, hl, Memory.load_congr _ _ _ _ h]

/-! ## Locations -/

theorem readLoc_ok {s : State} {loc : Loc} {sz : Size} {v : BitVec sz.bits} :
    s.readLoc loc sz = .ok v ↔ s.accessible loc sz.bytes .read ∧ v = s.valueAt loc sz := by
  cases loc <;> simp [State.readLoc, State.accessible, State.valueAt, lowBits, eq_comm, memRead_ok]

theorem writeLoc_ok {s t : State} {loc : Loc} {sz : Size} {v : BitVec sz.bits} :
    s.writeLoc loc sz v = .ok t ↔
      (∀ x, loc ≠ .imm x) ∧ s.accessible loc sz.bytes .write ∧ t = s.withValueAt loc sz v := by
  cases loc with
  | mem a => simp [State.writeLoc, State.accessible, State.withValueAt, memWrite_ok]
  | _ => simp [State.writeLoc, State.accessible, State.withValueAt, eq_comm]

section WithValueAt

variable (s : State) (loc : Loc) (sz : Size) (v : BitVec sz.bits)

@[simp] theorem withValueAt_pc : (s.withValueAt loc sz v).pc = s.pc := by cases loc <;> rfl
@[simp] theorem withValueAt_outcome : (s.withValueAt loc sz v).outcome = s.outcome := by cases loc <;> rfl
@[simp] theorem withValueAt_launch : (s.withValueAt loc sz v).launch = s.launch := by cases loc <;> rfl

theorem withValueAt_getR (i : Reg) (h : loc ≠ .gReg i) : (s.withValueAt loc sz v).getR i = s.getR i := by
  cases loc with
  | gReg j => exact setR_getR_ne _ _ _ _ fun e => h (by rw [e])
  | _ => rfl

theorem withValueAt_getFp (i : Reg) (h : loc ≠ .fReg i) : (s.withValueAt loc sz v).getFp i = s.getFp i := by
  cases loc with
  | fReg j => exact setFp_getFp_ne _ _ _ _ fun e => h (by rw [e])
  | _ => rfl

theorem withValueAt_get (x : Nat) (h : loc.misses sz.bytes x) :
    (s.withValueAt loc sz v).mem.get x = s.mem.get x := by
  cases loc with
  | mem a => exact poke_get_outside s a sz v x (h a rfl)
  | _ => rfl

end WithValueAt

/-- A shape that is no immediate resolves to no constant. -/
theorem locOf_ne_imm {ea : EADesc} (h : ea.isImm = false) (s : State) (n : Nat) (x : BitVec 64) :
    s.locOf ea n ≠ .imm x := by
  cases ea <;> simp_all [State.locOf, EADesc.isImm]

/-- Resolving leaves every register it does not step. -/
theorem stepEA_getR (s : State) (ea : EADesc) (n : Nat) (i : Reg) (h : steppedBy ea i = false) :
    (s.stepEA ea n).getR i = s.getR i := by
  cases ea <;> simp_all [State.stepEA, steppedBy, stepModeOf, setR_getR_ne]

/-! ## Transfers -/

/-- Everything a transfer can do when it completes: both operands were accessible, and the state is the resolved
one with the converted value at the destination. -/
theorem transfer_ok {ss ds : Size} {f : BitVec ss.bits → BitVec ds.bits} {d e : EADesc} {s t : State} :
    transfer ss ds f d e s = .ok t ↔
      d.isImm = false ∧
      ((s.stepEA d ds.bytes).stepEA e ss.bytes).accessible ((s.stepEA d ds.bytes).locOf e ss.bytes) ss.bytes .read ∧
      ((s.stepEA d ds.bytes).stepEA e ss.bytes).accessible (s.locOf d ds.bytes) ds.bytes .write ∧
      t = ((s.stepEA d ds.bytes).stepEA e ss.bytes).withValueAt (s.locOf d ds.bytes) ds
        (f (((s.stepEA d ds.bytes).stepEA e ss.bytes).valueAt ((s.stepEA d ds.bytes).locOf e ss.bytes) ss)) := by
  simp only [transfer]
  split
  · rename_i h; simp [h]
  · rename_i h
    have hi : d.isImm = false := by simpa using h
    constructor
    · intro ht
      cases hr : ((s.stepEA d ds.bytes).stepEA e ss.bytes).readLoc ((s.stepEA d ds.bytes).locOf e ss.bytes) ss with
      | error x => simp [hr, bind, Except.bind] at ht
      | ok v =>
        simp only [hr, bind, Except.bind] at ht
        obtain ⟨ha, rfl⟩ := readLoc_ok.mp hr
        obtain ⟨_, hw, rfl⟩ := writeLoc_ok.mp ht
        exact ⟨hi, ha, hw, rfl⟩
    · rintro ⟨_, ha, hw, rfl⟩
      simp only [readLoc_ok.mpr ⟨ha, rfl⟩, bind, Except.bind]
      exact writeLoc_ok.mpr ⟨locOf_ne_imm hi s _, hw, rfl⟩

/-- Everything a clear can do when it completes. -/
theorem clear_ok {sz : Size} {ea : EADesc} {s t : State} :
    clear sz ea s = .ok t ↔
      ea.isImm = false ∧ (s.stepEA ea sz.bytes).accessible (s.locOf ea sz.bytes) sz.bytes .write ∧
      t = (s.stepEA ea sz.bytes).withValueAt (s.locOf ea sz.bytes) sz 0 := by
  simp only [clear]
  split
  · rename_i h; simp [h]
  · rename_i h
    have hi : ea.isImm = false := by simpa using h
    rw [writeLoc_ok]
    exact ⟨fun h => ⟨hi, h.2⟩, fun h => ⟨locOf_ne_imm hi s _, h.2⟩⟩

/-! ## Sets of registers -/

theorem saveLoop_cons_ok {file : RegFile} {mode : StepMode} {i : Reg} {is : List Reg} {a : Addr} {s : State}
    {p : Addr × State} :
    saveLoop file mode (i :: is) a s = .ok p ↔
      s.accessFault (mode.before a) 8 .write = none ∧
      saveLoop file mode is (mode.after (mode.before a)) (s.poke (mode.before a) .q (s.getFile file i)) = .ok p := by
  simp only [saveLoop, State.memWrite]
  cases s.accessFault (mode.before a) 8 .write <;> simp [bind, Except.bind]

theorem loadLoop_cons_ok {file : RegFile} {mode : StepMode} {i : Reg} {is : List Reg} {a : Addr} {s : State}
    {p : Addr × State} :
    loadLoop file mode (i :: is) a s = .ok p ↔
      s.accessFault (mode.before a) 8 .read = none ∧
      loadLoop file mode is (mode.after (mode.before a)) (s.setFile file i (s.peek (mode.before a) .q)) = .ok p := by
  simp only [loadLoop, State.memRead]
  cases s.accessFault (mode.before a) 8 .read <;> simp [bind, Except.bind]

theorem saveMulti_ok {file : RegFile} {ea : EADesc} {m : BitVec 16} {s t : State} :
    saveMulti file ea m s = .ok t ↔
      ∃ mode b p, stepModeOf ea = some (mode, b) ∧
        saveLoop file mode (mode.registers m) (s.getR b) s = .ok p ∧ t = p.2.setR b p.1 := by
  simp only [saveMulti]
  cases h : stepModeOf ea with
  | none => simp
  | some q =>
    obtain ⟨mode, b⟩ := q
    cases h2 : saveLoop file mode (mode.registers m) (s.getR b) s with
    | error x => simp [bind, Except.bind, h2]
    | ok p => obtain ⟨x, y⟩ := p; simp [bind, Except.bind, h2, eq_comm]

theorem loadMulti_ok {file : RegFile} {ea : EADesc} {m : BitVec 16} {s t : State} :
    loadMulti file ea m s = .ok t ↔
      ∃ mode b p, stepModeOf ea = some (mode, b) ∧
        loadLoop file mode (mode.registers m) (s.getR b) s = .ok p ∧ t = p.2.setR b p.1 := by
  simp only [loadMulti]
  cases h : stepModeOf ea with
  | none => simp
  | some q =>
    obtain ⟨mode, b⟩ := q
    cases h2 : loadLoop file mode (mode.registers m) (s.getR b) s with
    | error x => simp [bind, Except.bind, h2]
    | ok p => obtain ⟨x, y⟩ := p; simp [bind, Except.bind, h2, eq_comm]

/-- What the saving loop leaves: registers, `pc`, outcome and launch. -/
theorem saveLoop_frame {file : RegFile} {mode : StepMode} {is : List Reg} {a : Addr} {s : State} {p : Addr × State}
    (h : saveLoop file mode is a s = .ok p) :
    p.2.r = s.r ∧ p.2.fp = s.fp ∧ p.2.pc = s.pc ∧ p.2.outcome = s.outcome ∧ p.2.launch = s.launch := by
  induction is generalizing a s with
  | nil => simp only [saveLoop, Except.ok.injEq] at h; subst h; simp
  | cons i is ih =>
    have := ih (saveLoop_cons_ok.mp h).2
    exact this

/-- What the loading loop leaves: memory, `pc`, outcome and launch. -/
theorem loadLoop_frame {file : RegFile} {mode : StepMode} {is : List Reg} {a : Addr} {s : State} {p : Addr × State}
    (h : loadLoop file mode is a s = .ok p) :
    p.2.mem = s.mem ∧ p.2.pc = s.pc ∧ p.2.outcome = s.outcome ∧ p.2.launch = s.launch := by
  induction is generalizing a s with
  | nil => simp only [loadLoop, Except.ok.injEq] at h; subst h; simp
  | cons i is ih => simpa using ih (loadLoop_cons_ok.mp h).2

/-! ## LINK and UNLK -/

theorem link_ok {n : Reg} {disp : BitVec 32} {s t : State} :
    link n disp s = .ok t ↔
      s.accessFault (s.sp - 8) 8 .write = none ∧
      t = ((((s.setSp (s.sp - 8)).poke (s.sp - 8) .q ((s.setSp (s.sp - 8)).getR n)).setR n (s.sp - 8)).setSp
        ((((s.setSp (s.sp - 8)).poke (s.sp - 8) .q ((s.setSp (s.sp - 8)).getR n)).setR n (s.sp - 8)).sp
          + disp.signExtend 64)) := by
  have hc : (s.setSp (s.sp - 8)).accessFault (s.sp - 8) 8 .write = s.accessFault (s.sp - 8) 8 .write :=
    accessFault_congr rfl _ _ _
  simp only [link, State.memWrite, setSp_sp, hc]
  cases s.accessFault (s.sp - 8) 8 .write <;> simp [bind, Except.bind, eq_comm]

theorem unlink_ok {n : Reg} {s t : State} :
    unlink n s = .ok t ↔
      s.accessFault (s.getR n) 8 .read = none ∧
      t = ((s.setSp (s.getR n)).setR n (s.peek (s.getR n) .q)).setSp
        (((s.setSp (s.getR n)).setR n (s.peek (s.getR n) .q)).sp + 8) := by
  have hc : (s.setSp (s.getR n)).accessFault (s.getR n) 8 .read = s.accessFault (s.getR n) 8 .read :=
    accessFault_congr rfl _ _ _
  have hp : (s.setSp (s.getR n)).peek (s.getR n) .q = s.peek (s.getR n) .q := rfl
  simp only [unlink, State.memRead, setSp_sp, hc, hp]
  cases s.accessFault (s.getR n) 8 .read <;> simp [bind, Except.bind, eq_comm]

/-! ## The end of an instruction -/

@[simp] theorem finish_next {e : Except Fault State} {t : State} : finish e = .next t ↔ e = .ok t := by
  cases e <;> simp [finish]

@[simp] theorem finish_fault {e : Except Fault State} {f : Fault} : finish e = .fault f ↔ e = .error f := by
  cases e <;> simp [finish]

@[simp] theorem finish_refused {e : Except Fault State} {q : Refusal} : finish e ≠ .refused q := by
  cases e <;> simp [finish]

end Sys2Proof.Machine
end

