-- ==== Sys2Proof/Laws/Exec.lean ====
section
/-! SUPPORT. What every instruction leaves unchanged, and that every instruction keeps memory canonical and on valid
addresses. -/

namespace Sys2Proof.Machine

/-- The fields no instruction of the group writes: `pc` (which `step` advances), the outcome and the launch (R28,
R35). -/
def SameFixed (s t : State) : Prop := t.pc = s.pc ∧ t.outcome = s.outcome ∧ t.launch = s.launch

theorem transfer_same {ss ds : Size} {f : BitVec ss.bits → BitVec ds.bits} {d e : EADesc} {s t : State}
    (h : transfer ss ds f d e s = .ok t) : SameFixed s t := by
  obtain ⟨_, _, _, rfl⟩ := transfer_ok.mp h
  simp [SameFixed]

theorem clear_same {sz : Size} {ea : EADesc} {s t : State} (h : clear sz ea s = .ok t) : SameFixed s t := by
  obtain ⟨_, _, rfl⟩ := clear_ok.mp h
  simp [SameFixed]

theorem saveMulti_same {file : RegFile} {ea : EADesc} {m : BitVec 16} {s t : State}
    (h : saveMulti file ea m s = .ok t) : SameFixed s t := by
  obtain ⟨mode, b, p, _, hp, rfl⟩ := saveMulti_ok.mp h
  obtain ⟨_, _, h3, h4, h5⟩ := saveLoop_frame hp
  exact ⟨h3, h4, h5⟩

theorem loadMulti_same {file : RegFile} {ea : EADesc} {m : BitVec 16} {s t : State}
    (h : loadMulti file ea m s = .ok t) : SameFixed s t := by
  obtain ⟨mode, b, p, _, hp, rfl⟩ := loadMulti_ok.mp h
  obtain ⟨_, h3, h4, h5⟩ := loadLoop_frame hp
  exact ⟨h3, h4, h5⟩

theorem link_same {n : Reg} {disp : BitVec 32} {s t : State} (h : link n disp s = .ok t) : SameFixed s t := by
  obtain ⟨_, rfl⟩ := link_ok.mp h
  simp [SameFixed]

theorem unlink_same {n : Reg} {s t : State} (h : unlink n s = .ok t) : SameFixed s t := by
  obtain ⟨_, rfl⟩ := unlink_ok.mp h
  simp [SameFixed]

/-- No instruction writes `pc`, the outcome or the launch. -/
theorem exec_same {i : Instr} {s t : State} (h : exec i s = .next t) : SameFixed s t := by
  cases i with
  | moveB | moveW | moveL | moveQ | fmovebS | fmovebD | fmovewS | fmovewD | fmovelS | fmovelD | fmoveqS | fmoveqD
  | fmovesL | fmovesQ | fmovesD | fmovedL | fmovedQ | fmovedS => exact transfer_same (finish_next.mp h)
  | clrB | clrW | clrL | clrQ => exact clear_same (finish_next.mp h)
  | savem | fsavem => exact saveMulti_same (finish_next.mp h)
  | loadm | floadm => exact loadMulti_same (finish_next.mp h)
  | exg | fexg | swap | swapL => cases h; simp [SameFixed]
  | link => exact link_same (finish_next.mp h)
  | unlk => exact unlink_same (finish_next.mp h)

/-! ## Memory stays canonical and on valid addresses -/

/-- What every memory operation keeps: the canonical form, listed on valid addresses only. -/
def MemOk (s : State) : Prop := s.mem.wf = true ∧ s.memInValid

theorem MemOk.congr {s t : State} (hm : t.mem = s.mem) (hl : t.launch = s.launch) (h : MemOk s) : MemOk t := by
  refine ⟨hm ▸ h.1, ?_⟩
  intro c hc
  rw [hl]
  exact h.2 c (hm ▸ hc)

theorem MemOk.poke {s : State} {a : Addr} {sz : Size} (v : BitVec sz.bits) (h : MemOk s)
    (ha : s.accessFault a sz.bytes .write = none) : MemOk (s.poke a sz v) :=
  ⟨poke_mem_wf a sz v h.1, poke_memInValid v h.2 ha⟩

theorem MemOk.withValueAt {s : State} {loc : Loc} {sz : Size} (v : BitVec sz.bits) (h : MemOk s)
    (ha : s.accessible loc sz.bytes .write) : MemOk (s.withValueAt loc sz v) := by
  cases loc with
  | mem a => exact h.poke v (ha a rfl)
  | _ => exact h

theorem MemOk.stepEA {s : State} (ea : EADesc) (n : Nat) (h : MemOk s) : MemOk (s.stepEA ea n) :=
  h.congr (by simp) (by simp)

theorem saveLoop_memOk {file : RegFile} {mode : StepMode} {is : List Reg} {a : Addr} {s : State} {p : Addr × State}
    (h : MemOk s) (hp : saveLoop file mode is a s = .ok p) : MemOk p.2 := by
  induction is generalizing a s with
  | nil => simp only [saveLoop, Except.ok.injEq] at hp; subst hp; exact h
  | cons i is ih =>
    obtain ⟨ha, hp⟩ := saveLoop_cons_ok.mp hp
    exact ih (h.poke (sz := .q) _ ha) hp

/-- Every instruction that completes keeps memory canonical and on valid addresses. -/
theorem exec_memOk {i : Instr} {s t : State} (hs : MemOk s) (h : exec i s = .next t) : MemOk t := by
  cases i with
  | moveB | moveW | moveL | moveQ | fmovebS | fmovebD | fmovewS | fmovewD | fmovelS | fmovelD | fmoveqS | fmoveqD
  | fmovesL | fmovesQ | fmovesD | fmovedL | fmovedQ | fmovedS =>
    obtain ⟨_, _, hw, rfl⟩ := transfer_ok.mp (finish_next.mp h)
    exact MemOk.withValueAt _ ((hs.stepEA _ _).stepEA _ _) hw
  | clrB | clrW | clrL | clrQ =>
    obtain ⟨_, hw, rfl⟩ := clear_ok.mp (finish_next.mp h)
    exact MemOk.withValueAt _ (hs.stepEA _ _) hw
  | savem | fsavem =>
    obtain ⟨mode, b, p, _, hp, rfl⟩ := saveMulti_ok.mp (finish_next.mp h)
    exact saveLoop_memOk hs hp
  | loadm | floadm =>
    obtain ⟨mode, b, p, _, hp, rfl⟩ := loadMulti_ok.mp (finish_next.mp h)
    obtain ⟨h1, _, _, h4⟩ := loadLoop_frame hp
    exact hs.congr h1 h4
  | exg | fexg | swap | swapL => cases h; exact hs
  | link =>
    obtain ⟨ha, rfl⟩ := link_ok.mp (finish_next.mp h)
    have h1 : MemOk (s.setSp (s.sp - 8)) := hs
    exact MemOk.poke (s := s.setSp (s.sp - 8)) (sz := .q) _ h1 ha
  | unlk =>
    obtain ⟨_, rfl⟩ := unlink_ok.mp (finish_next.mp h)
    exact hs

end Sys2Proof.Machine
end

