-- ==== Sys2Proof/Laws/Decode.lean ====
section
/-! SUPPORT. One lemma per part of the decoder that says when it answers and what. -/

namespace Sys2Proof

theorem takeByte_ok {off : Nat} {bs : List Byte} {b : Byte} :
    takeByte off bs = .ok b ↔ ∃ rest, bs = b :: rest := by
  cases bs <;> simp [takeByte]

theorem takeReg_ok {off : Nat} {bs : List Byte} {n : Reg} :
    takeReg off bs = .ok n ↔ ∃ b rest, bs = b :: rest ∧ highNibble b = 0 ∧ n = lowNibble b := by
  cases bs with
  | nil => simp [takeReg, takeByte, bind, Except.bind]
  | cons b rest =>
    by_cases h : highNibble b = 0
    · simp [takeReg, takeByte, bind, Except.bind, h, eq_comm]
    · simp [takeReg, takeByte, bind, Except.bind, h]

theorem takeField_ok {c : Config} {off k : Nat} {bs : List Byte} {v : Nat} :
    takeField c off k bs = .ok v ↔ k ≤ bs.length ∧ v = Machine.fromBytes c.byteOrder (bs.take k) := by
  simp only [takeField]
  split <;> simp_all [eq_comm]

/-! ## The codec -/

/-- A codec's answer is a function of the bytes it has fetched: it answers `a` after some `k` of the bytes in the text,
having asked for the next byte after every fewer number of them (R76). -/
theorem readCodec_eq_some {codec : List Byte → CodecMove} {ext rest : List Byte} {a : CodecAnswer} :
    readCodec codec ext rest = some a ↔
      ∃ k ≤ rest.length, codec (ext ++ rest.take k) = .answer a ∧ ∀ j < k, codec (ext ++ rest.take j) = .fetch := by
  induction rest generalizing ext with
  | nil =>
    simp only [readCodec]
    constructor
    · intro h
      split at h
      · rename_i a' ha
        exact ⟨0, by simp, by simpa [ha] using h, by simp⟩
      · cases h
    · rintro ⟨k, hk, ha, -⟩
      simp only [List.length_nil, Nat.le_zero] at hk
      subst hk
      simp only [List.take_nil, List.append_nil] at ha
      rw [ha]
  | cons b rest ih =>
    simp only [readCodec]
    cases hc : codec ext with
    | answer a' =>
      constructor
      · intro h
        exact ⟨0, by simp, by simpa [hc] using h, by simp⟩
      · rintro ⟨k, -, ha, hf⟩
        match k with
        | 0 => simpa [hc] using ha
        | k + 1 => simpa [hc] using hf 0 (by omega)
    | fetch =>
      simp only [ih]
      constructor
      · rintro ⟨k, hk, ha, hf⟩
        refine ⟨k + 1, by simp; omega, by simpa using ha, fun j hj => ?_⟩
        match j with
        | 0 => simpa using hc
        | j + 1 => simpa using hf j (by omega)
      · rintro ⟨k, hk, ha, hf⟩
        match k with
        | 0 => simp [hc] at ha
        | k + 1 => exact ⟨k, by simpa using hk, by simpa using ha, fun j hj => by simpa using hf (j + 1) (by omega)⟩

/-- What follows the bytes a codec has fetched does not change its answer (R76). -/
theorem readCodec_append {codec : List Byte → CodecMove} {ext rest : List Byte} {a : CodecAnswer}
    (h : readCodec codec ext rest = some a) (more : List Byte) : readCodec codec ext (rest ++ more) = some a := by
  obtain ⟨k, hk, ha, hf⟩ := readCodec_eq_some.mp h
  refine readCodec_eq_some.mpr ⟨k, by simp; omega, ?_, fun j hj => ?_⟩
  · rwa [List.take_append_of_le_length hk]
  · rw [List.take_append_of_le_length (by omega)]
    exact hf j hj

/-- When `takeEA` answers an address, of at least one byte and within the text. -/
theorem takeEA_ok {c : Config} {off : Nat} {bs : List Byte} {p : EADesc × Nat} :
    takeEA c off bs = .ok p ↔
      ∃ first ext, bs = first :: ext ∧ codecAnswer c first ext = some (.ok p.1 (p.2 - 1)) ∧ 1 ≤ p.2 ∧
        p.2 ≤ bs.length := by
  obtain ⟨ea, l⟩ := p
  cases bs with
  | nil => simp [takeEA]
  | cons first ext =>
    simp only [takeEA]
    cases h : codecAnswer c first ext with
    | none => simp [h]
    | some a =>
      cases a with
      | ok ea' extra =>
        constructor
        · intro he
          dsimp only at he
          split at he
          · rename_i hle
            simp only [Except.ok.injEq, Prod.mk.injEq] at he
            obtain ⟨rfl, rfl⟩ := he
            exact ⟨first, ext, rfl, by simp [h], by omega, by simp; omega⟩
          · cases he
        · rintro ⟨f', e', hb, hc, h1, h2⟩
          simp only [List.cons.injEq] at hb
          obtain ⟨rfl, rfl⟩ := hb
          simp only [h, Option.some.injEq, CodecAnswer.ok.injEq] at hc
          obtain ⟨rfl, hx⟩ := hc
          simp only [List.length_cons] at h2
          have hl : l = 1 + extra := by omega
          simp only [hl]
          rw [if_pos (by omega)]
      | invalid => simp [h]
      | unmodelled => simp [h]

/-- The reference codec looks at no byte beyond those it consumes. -/
theorem refEA_append {o : ByteOrder} {first : Byte} {ext : List Byte} {ea : EADesc} {extra : Nat}
    (h : refEA o first ext = .ok ea extra) (hl : extra ≤ ext.length) (more : List Byte) :
    refEA o first (ext ++ more) = .ok ea extra := by
  unfold refEA at h ⊢
  split at h <;> rename_i hn <;> simp_all only [CodecAnswer.ok.injEq]
  obtain ⟨rfl, rfl⟩ := h
  simp [List.take_append_of_le_length hl]

/-- An effective address that decodes does so whatever stands after the bytes that were fetched, under every codec
(R76). -/
theorem takeEA_append {c : Config} {off : Nat} {bs : List Byte} {p : EADesc × Nat} (h : takeEA c off bs = .ok p)
    (more : List Byte) : takeEA c off (bs ++ more) = .ok p := by
  obtain ⟨first, ext, rfl, ha, h1, hl⟩ := takeEA_ok.mp h
  refine takeEA_ok.mpr ⟨first, ext ++ more, rfl, ?_, h1, by simp at hl ⊢; omega⟩
  cases hc : c.eaCodec with
  | ref =>
    simp only [codecAnswer, hc, Option.some.injEq] at ha ⊢
    exact refEA_append ha (by simp at hl; omega) more
  | other id =>
    simp only [codecAnswer, hc] at ha ⊢
    exact readCodec_append ha more

/-- A non-empty text decodes by the format of its first byte. -/
theorem decode_cons (c : Config) (op : Byte) (rest : List Byte) :
    decode c (op :: rest) =
      match formatOf op with
      | none => .error (.opcodeOutOfGroup op)
      | some f => decodeOperands c f rest := rfl

/-! ## The parts of the encoder -/

@[simp] theorem highNibble_nibbles (hi lo : Reg) : highNibble (nibbles hi lo) = hi := by
  revert hi lo; decide

@[simp] theorem lowNibble_nibbles (hi lo : Reg) : lowNibble (nibbles hi lo) = lo := by
  revert hi lo; decide

theorem encodeEA_length {o : ByteOrder} {ea : EADesc} {bs : List Byte} (h : encodeEA o ea = some bs) :
    bs.length = Machine.refLenEA ea := by
  cases ea with
  | imm => simp [encodeEA] at h
  | indDisp i d =>
    simp only [encodeEA] at h
    split at h
    · simp only [Option.some.injEq] at h; subst h; simp [Machine.refLenEA]
    · cases h
  | _ => simp only [encodeEA, Option.some.injEq] at h; subst h; rfl

theorem encodeDS_some {o : ByteOrder} {op : Byte} {d s : EADesc} {bs : List Byte} :
    encodeDS o op d s = some bs ↔
      ∃ db sb, encodeEA o d = some db ∧ encodeEA o s = some sb ∧ bs = op :: db ++ sb := by
  cases h1 : encodeEA o d <;> cases h2 : encodeEA o s <;> simp [encodeDS, h1, h2, eq_comm]

theorem encodeE_some {o : ByteOrder} {op : Byte} {ea : EADesc} {bs : List Byte} :
    encodeE o op ea = some bs ↔ ∃ eb, encodeEA o ea = some eb ∧ bs = op :: eb := by
  cases h1 : encodeEA o ea <;> simp [encodeE, h1, eq_comm]

theorem encodeEM_some {o : ByteOrder} {op : Byte} {ea : EADesc} {m : BitVec 16} {bs : List Byte} :
    encodeEM o op ea m = some bs ↔
      ∃ eb, encodeEA o ea = some eb ∧ bs = op :: eb ++ Machine.toBytes o 2 m.toNat := by
  cases h1 : encodeEA o ea <;> simp [encodeEM, h1, eq_comm]

end Sys2Proof
end

