-- ==== Sys2Proof/Laws/PerInstr.lean ====
section
/-! SUPPORT. Per instruction: an instruction that the reference codec can spell is encoded in exactly the length of the
table of 30_encoding.md R75, between 2 and 11 bytes. -/

namespace Sys2Proof.Laws.EncodedLength

open Sys2Proof.Machine

/-- The encoding of the instruction, where it has one, has the length of R75. -/
def Statement (i : Instr) : Prop :=
  ∀ (o : ByteOrder) (bs : List Byte), encode o i = some bs →
    bs.length = refLen i ∧ 2 ≤ bs.length ∧ bs.length ≤ longestInstr

theorem refLenEA_bounds (ea : EADesc) : 1 ≤ refLenEA ea ∧ refLenEA ea ≤ 5 := by cases ea <;> simp [refLenEA]

/-- Format `DS`. -/
theorem ds {o : ByteOrder} {op : Byte} {d s : EADesc} {bs : List Byte} (h : encodeDS o op d s = some bs) :
    bs.length = 1 + refLenEA d + refLenEA s ∧ 2 ≤ bs.length ∧ bs.length ≤ longestInstr := by
  obtain ⟨db, sb, hd, hs, rfl⟩ := encodeDS_some.mp h
  have h1 := encodeEA_length hd
  have h2 := encodeEA_length hs
  have h3 := refLenEA_bounds d
  have h4 := refLenEA_bounds s
  simp only [List.cons_append, List.length_cons, List.length_append, longestInstr]
  omega

/-- Format `E`. -/
theorem e {o : ByteOrder} {op : Byte} {ea : EADesc} {bs : List Byte} (h : encodeE o op ea = some bs) :
    bs.length = 1 + refLenEA ea ∧ 2 ≤ bs.length ∧ bs.length ≤ longestInstr := by
  obtain ⟨eb, he, rfl⟩ := encodeE_some.mp h
  have h1 := encodeEA_length he
  have h2 := refLenEA_bounds ea
  simp only [List.length_cons, longestInstr]
  omega

/-- Format `EM`. -/
theorem em {o : ByteOrder} {op : Byte} {ea : EADesc} {m : BitVec 16} {bs : List Byte}
    (h : encodeEM o op ea m = some bs) :
    bs.length = 1 + refLenEA ea + 2 ∧ 2 ≤ bs.length ∧ bs.length ≤ longestInstr := by
  obtain ⟨eb, he, rfl⟩ := encodeEM_some.mp h
  have h1 := encodeEA_length he
  have h2 := refLenEA_bounds ea
  simp only [List.cons_append, List.length_cons, List.length_append, toBytes_length, longestInstr]
  omega

theorem moveB (d s : EADesc) : Statement (.moveB d s) := fun _ _ h => ds h

theorem moveW (d s : EADesc) : Statement (.moveW d s) := fun _ _ h => ds h

theorem moveL (d s : EADesc) : Statement (.moveL d s) := fun _ _ h => ds h

theorem moveQ (d s : EADesc) : Statement (.moveQ d s) := fun _ _ h => ds h

theorem savem (ea : EADesc) (m : BitVec 16) : Statement (.savem ea m) := fun _ _ h => em h

theorem loadm (ea : EADesc) (m : BitVec 16) : Statement (.loadm ea m) := fun _ _ h => em h

theorem fmovebS (d s : EADesc) : Statement (.fmovebS d s) := fun _ _ h => ds h

theorem fmovebD (d s : EADesc) : Statement (.fmovebD d s) := fun _ _ h => ds h

theorem fmovewS (d s : EADesc) : Statement (.fmovewS d s) := fun _ _ h => ds h

theorem fmovewD (d s : EADesc) : Statement (.fmovewD d s) := fun _ _ h => ds h

theorem fmovelS (d s : EADesc) : Statement (.fmovelS d s) := fun _ _ h => ds h

theorem fmovelD (d s : EADesc) : Statement (.fmovelD d s) := fun _ _ h => ds h

theorem fmoveqS (d s : EADesc) : Statement (.fmoveqS d s) := fun _ _ h => ds h

theorem fmoveqD (d s : EADesc) : Statement (.fmoveqD d s) := fun _ _ h => ds h

theorem fmovesL (d s : EADesc) : Statement (.fmovesL d s) := fun _ _ h => ds h

theorem fmovesQ (d s : EADesc) : Statement (.fmovesQ d s) := fun _ _ h => ds h

theorem fmovesD (d s : EADesc) : Statement (.fmovesD d s) := fun _ _ h => ds h

theorem fmovedL (d s : EADesc) : Statement (.fmovedL d s) := fun _ _ h => ds h

theorem fmovedQ (d s : EADesc) : Statement (.fmovedQ d s) := fun _ _ h => ds h

theorem fmovedS (d s : EADesc) : Statement (.fmovedS d s) := fun _ _ h => ds h

theorem fsavem (ea : EADesc) (m : BitVec 16) : Statement (.fsavem ea m) := fun _ _ h => em h

theorem floadm (ea : EADesc) (m : BitVec 16) : Statement (.floadm ea m) := fun _ _ h => em h

theorem clrB (ea : EADesc) : Statement (.clrB ea) := fun _ _ h => e h

theorem clrW (ea : EADesc) : Statement (.clrW ea) := fun _ _ h => e h

theorem clrL (ea : EADesc) : Statement (.clrL ea) := fun _ _ h => e h

theorem clrQ (ea : EADesc) : Statement (.clrQ ea) := fun _ _ h => e h

theorem exg (a b : Reg) : Statement (.exg a b) := by
  intro o bs h
  cases h
  simp [refLen, longestInstr]

theorem fexg (a b : Reg) : Statement (.fexg a b) := by
  intro o bs h
  cases h
  simp [refLen, longestInstr]

theorem swap (n : Reg) : Statement (.swap n) := by
  intro o bs h
  cases h
  simp [refLen, longestInstr]

theorem swapL (n : Reg) : Statement (.swapL n) := by
  intro o bs h
  cases h
  simp [refLen, longestInstr]

theorem link (n : Reg) (disp : BitVec 32) : Statement (.link n disp) := by
  intro o bs h
  cases h
  simp [refLen, longestInstr]

theorem unlk (n : Reg) : Statement (.unlk n) := by
  intro o bs h
  cases h
  simp [refLen, longestInstr]

end Sys2Proof.Laws.EncodedLength
end

