-- ==== Sys2Proof/Machine/Flags.lean ====
section
/-! DEFINITION. Flags: the machine has none (10_state.md R30, R31). No instruction of the group reads or writes a
status flag, condition code or floating point status, so no flag computation stands here and State holds no field
for one (92_eei_decisions.md D18, log entry 11). -/
end

