-- ==== Sys2Proof/Tests/Slice0.lean ====
section
/-! SUPPORT. Tests. Expected values are those of spec/95_test_vectors.md and of the worked examples in spec/40 to
spec/46, named in each comment; the decoding tests write each instruction's bytes out from the tables of
30_encoding.md R74, R79 and R87. The last part shows, for every statement with hypotheses, a state and operands that
meet them. -/

namespace Sys2Proof.Tests

open Sys2Proof.Machine Sys2Proof.Claims

/-! ## Helpers -/

/-- A launch of `text` at address 0 under `c`, data memory 0x1000 to 0x2FFF, with the listed registers and bytes and
zeros elsewhere: the defaults of 95_test_vectors.md section 2. -/
def launch (c : Config) (text : List Byte) (rs fs : List (Reg × Quad)) (m : List (Nat × Byte)) : State where
  r := rs.foldl (fun v p => v.set p.1 p.2) (Vector.replicate 16 0)
  fp := fs.foldl (fun v p => v.set p.1 p.2) (Vector.replicate 16 0)
  pc := 0
  mem := m.foldl (fun m p => m.set p.1 p.2) []
  outcome := .running
  launch := { config := c, prog := text, codeBase := 0, memValid := [{ first := 0x1000, last := 0x2FFF }] }

/-- `RefConfig` with the big byte order. -/
def bigConfig : Config := { refConfig with byteOrder := .big }

/-- `RefConfig` with `ALIGN_POLICY = fault`. -/
def alignConfig : Config := { refConfig with alignPolicy := .fault }

/-- Whether the step completes in a state with the property. -/
def goes (s : State) (p : State → Bool) : Bool :=
  match step s with
  | .next t => p t
  | .fault _ => false
  | .refused _ => false

/-- Whether the step faults so. -/
def faults (s : State) (f : Fault) : Bool :=
  match step s with
  | .next _ => false
  | .fault g => g == f
  | .refused _ => false

/-- Whether the step is refused so. -/
def refuses (s : State) (q : Refusal) : Bool :=
  match step s with
  | .next _ => false
  | .fault _ => false
  | .refused g => g == q

/-! ## Well-formedness: one ill-formed term for each check of R89 -/

theorem test_move_immediate_destination_ill_formed : (Instr.moveQ (.imm 1) (.gReg 0)).wellFormed = false := by decide
theorem test_move_immediate_source_well_formed : (Instr.moveQ (.gReg 0) (.imm 1)).wellFormed = true := by decide
theorem test_fmove_immediate_destination_ill_formed : (Instr.fmovedS (.imm 1) (.fReg 0)).wellFormed = false := by
  decide
theorem test_clr_immediate_ill_formed : (Instr.clrB (.imm 1)).wellFormed = false := by decide
theorem test_savem_indirect_ill_formed : (Instr.savem (.ind 15) 3).wellFormed = false := by decide
theorem test_loadm_register_ill_formed : (Instr.loadm (.gReg 15) 3).wellFormed = false := by decide
theorem test_fsavem_displacement_ill_formed : (Instr.fsavem (.indDisp 15 0) 3).wellFormed = false := by decide
theorem test_floadm_register_ill_formed : (Instr.floadm (.fReg 15) 3).wellFormed = false := by decide
theorem test_savem_stepping_well_formed : (Instr.savem (.preDec 15) 3).wellFormed = true := by decide

/-! ## Decoding: every constructor from bytes written out from its encoding -/

theorem test_decode_moveB : decode refConfig [0x4D, 0x02, 0x01] = .ok (.moveB (.gReg 2) (.gReg 1), 3) := by decide
theorem test_decode_moveW : decode refConfig [0x4E, 0x01, 0x21] = .ok (.moveW (.gReg 1) (.postInc 1), 3) := by decide
theorem test_decode_moveL : decode refConfig [0x4F, 0x02, 0x61, 0xFC, 0xFF, 0xFF, 0xFF] = .ok (.moveL (.gReg 2) (.indDisp 1 (-4)), 7) := by decide
theorem test_decode_moveQ : decode refConfig [0x50, 0x32, 0x41] = .ok (.moveQ (.postDec 2) (.preInc 1), 3) := by decide
theorem test_decode_savem : decode refConfig [0x51, 0x5F, 0x06, 0x01] = .ok (.savem (.preDec 15) 0x0106, 4) := by decide
theorem test_decode_loadm : decode refConfig [0x52, 0x2F, 0x06, 0x01] = .ok (.loadm (.postInc 15) 0x0106, 4) := by decide
theorem test_decode_fmovebS : decode refConfig [0x53, 0x71, 0x00] = .ok (.fmovebS (.fReg 1) (.gReg 0), 3) := by decide
theorem test_decode_fmovebD : decode refConfig [0x54, 0x21, 0x20] = .ok (.fmovebD (.postInc 1) (.postInc 0), 3) := by decide
theorem test_decode_fmovewS : decode refConfig [0x55, 0x72, 0x03] = .ok (.fmovewS (.fReg 2) (.gReg 3), 3) := by decide
theorem test_decode_fmovewD : decode refConfig [0x56, 0x72, 0x13] = .ok (.fmovewD (.fReg 2) (.ind 3), 3) := by decide
theorem test_decode_fmovelS : decode refConfig [0x57, 0x70, 0x01] = .ok (.fmovelS (.fReg 0) (.gReg 1), 3) := by decide
theorem test_decode_fmovelD : decode refConfig [0x58, 0x01, 0x02] = .ok (.fmovelD (.gReg 1) (.gReg 2), 3) := by decide
theorem test_decode_fmoveqS : decode refConfig [0x59, 0x70, 0x01] = .ok (.fmoveqS (.fReg 0) (.gReg 1), 3) := by decide
theorem test_decode_fmoveqD : decode refConfig [0x5A, 0x11, 0x12] = .ok (.fmoveqD (.ind 1) (.ind 2), 3) := by decide
theorem test_decode_fmovesL : decode refConfig [0x5B, 0x01, 0x70] = .ok (.fmovesL (.gReg 1) (.fReg 0), 3) := by decide
theorem test_decode_fmovesQ : decode refConfig [0x5C, 0x01, 0x71] = .ok (.fmovesQ (.gReg 1) (.fReg 1), 3) := by decide
theorem test_decode_fmovesD : decode refConfig [0x5D, 0x71, 0x70] = .ok (.fmovesD (.fReg 1) (.fReg 0), 3) := by decide
theorem test_decode_fmovedL : decode refConfig [0x5E, 0x51, 0x20] = .ok (.fmovedL (.preDec 1) (.postInc 0), 3) := by decide
theorem test_decode_fmovedQ : decode refConfig [0x5F, 0x01, 0x70] = .ok (.fmovedQ (.gReg 1) (.fReg 0), 3) := by decide
theorem test_decode_fmovedS : decode refConfig [0x60, 0x70, 0x51] = .ok (.fmovedS (.fReg 0) (.preDec 1), 3) := by decide
theorem test_decode_fsavem : decode refConfig [0x61, 0x20, 0x05, 0x00] = .ok (.fsavem (.postInc 0) 0x0005, 4) := by decide
theorem test_decode_floadm : decode refConfig [0x62, 0x50, 0x05, 0x00] = .ok (.floadm (.preDec 0) 0x0005, 4) := by decide
theorem test_decode_clrB : decode refConfig [0x63, 0x31] = .ok (.clrB (.postDec 1), 2) := by decide
theorem test_decode_clrW : decode refConfig [0x64, 0x21] = .ok (.clrW (.postInc 1), 2) := by decide
theorem test_decode_clrL : decode refConfig [0x65, 0x73] = .ok (.clrL (.fReg 3), 2) := by decide
theorem test_decode_clrQ : decode refConfig [0x66, 0x61, 0x08, 0x00, 0x00, 0x00] = .ok (.clrQ (.indDisp 1 8), 6) := by decide
theorem test_decode_exg : decode refConfig [0x67, 0x3A] = .ok (.exg 3 10, 2) := by decide
theorem test_decode_fexg : decode refConfig [0x68, 0xF0] = .ok (.fexg 15 0, 2) := by decide
theorem test_decode_swap : decode refConfig [0x69, 0x05] = .ok (.swap 5, 2) := by decide
theorem test_decode_swapL : decode refConfig [0x6A, 0x0F] = .ok (.swapL 15, 2) := by decide
theorem test_decode_link : decode refConfig [0x6B, 0x0E, 0xE0, 0xFF, 0xFF, 0xFF] = .ok (.link 14 0xFFFFFFE0, 6) := by decide
theorem test_decode_unlk : decode refConfig [0x6C, 0x0E] = .ok (.unlk 14, 2) := by decide
theorem test_decode_big_endian_mask : decode bigConfig [0x51, 0x5F, 0x01, 0x06] = .ok (.savem (.preDec 15) 0x0106, 4) := by
  decide
theorem test_decode_big_endian_displacement :
    decode bigConfig [0x6B, 0x0E, 0xFF, 0xFF, 0xFF, 0xE0] = .ok (.link 14 0xFFFFFFE0, 6) := by decide
theorem test_encode_link : encode .little (.link 14 0xFFFFFFE0) = some [0x6B, 0x0E, 0xE0, 0xFF, 0xFF, 0xFF] := by decide
theorem test_encode_displacement :
    encode .big (.moveL (.gReg 3) (.indDisp 0 4)) = some [0x4F, 0x03, 0x60, 0x00, 0x00, 0x00, 0x04] := by decide
theorem test_encode_immediate_has_no_spelling : encode .little (.moveB (.gReg 0) (.imm 1)) = none := by decide
theorem test_table_word_exg : decodeTableWord 16 0x3A67 = some (.exg 3 10) := by decide
theorem test_table_word_move : decodeTableWord 8 0x4D = some (.moveB (.gReg 0) (.gReg 0)) := by decide

/-! ## One step each -/

/-- Vector M1. -/
theorem test_move_b_keeps_upper_bits :
    goes (launch refConfig [0x4D, 0x02, 0x01] [(1, 0x1122334455667788), (2, 0xAAAAAAAAAAAAAAAA)] [] [])
      (fun t => t.getR 2 == 0xAAAAAAAAAAAAAA88 && t.pc == 3) = true := by decide

/-- Vector M2: the source steps the register that is also the destination. -/
theorem test_move_w_steps_then_replaces :
    goes (launch refConfig [0x4E, 0x01, 0x21] [(1, 0x1000)] [] [(0x1000, 0xEF), (0x1001, 0xBE)])
      (fun t => t.getR 1 == 0xBEEF && t.pc == 3) = true := by decide

/-- Vector M3. -/
theorem test_move_l_pushes :
    goes (launch refConfig [0x4F, 0x5F, 0x01] [(1, 0x1122334455667788), (15, 0x2000)] [] [])
      (fun t => t.getR 15 == 0x1FFC && t.mem.load 0x1FFC 4 == [0x88, 0x77, 0x66, 0x55]) = true := by decide

/-- Vector M18. -/
theorem test_move_l_pushes_big_endian :
    goes (launch bigConfig [0x4F, 0x5F, 0x01] [(1, 0x1122334455667788), (15, 0x2000)] [] [])
      (fun t => t.mem.load 0x1FFC 4 == [0x55, 0x66, 0x77, 0x88]) = true := by decide

/-- Vector M4. -/
theorem test_move_q_destination_resolves_first :
    goes (launch refConfig [0x50, 0x20, 0x20] [(0, 0x1000)] [] [(0x1008, 0x01), (0x1009, 0x02), (0x100a, 0x03), (0x100b, 0x04), (0x100c, 0x05), (0x100d, 0x06), (0x100e, 0x07), (0x100f, 0x08)])
      (fun t => t.getR 0 == 0x1010 && t.mem.load 0x1000 8 == [1, 2, 3, 4, 5, 6, 7, 8]) = true := by decide

/-- Vector M5. -/
theorem test_move_q_stores_stepped_register :
    goes (launch refConfig [0x50, 0x21, 0x01] [(1, 0x1000)] [] [])
      (fun t => t.getR 1 == 0x1008 && t.mem.load 0x1000 2 == [0x08, 0x10]) = true := by decide

/-- Vector S1. -/
theorem test_savem_all_modes_ascend :
    goes (launch refConfig [0x51, 0x5F, 0x06, 0x01] [(1, 0x1111111111111111), (2, 0x2222222222222222), (8, 0x8888888888888888), (15, 0x2000)] [] [])
      (fun t => t.getR 15 == 0x1FE8 && t.mem.get 0x1FE8 == 0x11 && t.mem.get 0x1FF0 == 0x22 && t.mem.get 0x1FFF == 0x88 && t.pc == 4) = true := by decide

/-- Vector S10. -/
theorem test_savem_stores_start_value_of_base :
    goes (launch refConfig [0x51, 0x5F, 0x01, 0x80] [(0, 0xAAAA), (15, 0x2000)] [] [])
      (fun t => t.getR 15 == 0x1FF0 && t.mem.load 0x1FF8 8 == [0x00, 0x20, 0, 0, 0, 0, 0, 0]) = true := by decide

/-- Vector S6, with shorter quads. -/
theorem test_loadm_pre_increments :
    goes (launch refConfig [0x52, 0x40, 0x06, 0x01] [(0, 0x1FE0)] [] [(0x1fe8, 0x11), (0x1ff0, 0x22), (0x1ff8, 0x88)])
      (fun t => t.getR 0 == 0x1FF8 && t.getR 1 == 0x11 && t.getR 2 == 0x22 && t.getR 8 == 0x88) = true := by decide

/-- R121 (d): the loaded base value is lost. -/
theorem test_loadm_base_ends_with_address :
    goes (launch refConfig [0x52, 0x2F, 0x00, 0x80] [(15, 0x1FF0)] [] [(0x1ff0, 0xAA)])
      (fun t => t.getR 15 == 0x1FF8) = true := by decide

/-- Vector F1. -/
theorem test_fmoveb_s :
    goes (launch refConfig [0x53, 0x70, 0x01] [(1, 0x180)] [(0, 0xFFFFFFFFFFFFFFFF)] [])
      (fun t => t.getFp 0 == 0xFFFFFFFFC3000000) = true := by decide +kernel

/-- Vector F76. -/
theorem test_fmoveb_d_steps_by_own_sizes :
    goes (launch refConfig [0x54, 0x21, 0x20] [(0, 0x1000), (1, 0x1100)] [] [(0x1000, 0xFE)])
      (fun t => t.getR 0 == 0x1001 && t.getR 1 == 0x1108 && t.mem.get 0x1107 == 0xC0 && t.mem.get 0x1106 == 0) = true := by decide +kernel

/-- Vector F8. -/
theorem test_fmovew_s :
    goes (launch refConfig [0x55, 0x70, 0x01] [(1, 0x7FFF)] [] [])
      (fun t => t.getFp 0 == 0x46FFFE00) = true := by decide +kernel

/-- Vector F9. -/
theorem test_fmovew_d :
    goes (launch refConfig [0x56, 0x70, 0x01] [(1, 0xFFFF)] [] [])
      (fun t => t.getFp 0 == 0xBFF0000000000000) = true := by decide +kernel

/-- Vector F12. -/
theorem test_fmovel_s_tie_to_even :
    goes (launch refConfig [0x57, 0x70, 0x01] [(1, 0x01000003)] [] [])
      (fun t => t.getFp 0 == 0x4B800002) = true := by decide +kernel

/-- Vector F19. -/
theorem test_fmovel_d :
    goes (launch refConfig [0x58, 0x70, 0x01] [(1, 0x80000000)] [] [])
      (fun t => t.getFp 0 == 0xC1E0000000000000) = true := by decide +kernel

/-- Vector F22. -/
theorem test_fmoveq_s_rounds_up :
    goes (launch refConfig [0x59, 0x70, 0x01] [(1, 0x0123456789ABCDEF)] [] [])
      (fun t => t.getFp 0 == 0x5B91A2B4) = true := by decide +kernel

/-- Vector F26. -/
theorem test_fmoveq_d_carries_to_next_power :
    goes (launch refConfig [0x5A, 0x70, 0x01] [(1, 0x7FFFFFFFFFFFFFFF)] [] [])
      (fun t => t.getFp 0 == 0x43E0000000000000) = true := by decide +kernel

/-- Vector F30. -/
theorem test_fmoves_l_truncates :
    goes (launch refConfig [0x5B, 0x01, 0x70] [(1, 0x1111111111111111)] [(0, 0xC0200000)] [])
      (fun t => t.getR 1 == 0x11111111FFFFFFFE) = true := by decide +kernel

/-- Vector F39. -/
theorem test_fmoves_q :
    goes (launch refConfig [0x5C, 0x01, 0x70] [] [(0, 0x501502F9)] [])
      (fun t => t.getR 1 == 0x00000002540BE400) = true := by decide +kernel

/-- Vector F45. -/
theorem test_fmoves_d_of_subnormal :
    goes (launch refConfig [0x5D, 0x71, 0x70] [] [(0, 0x00000001)] [])
      (fun t => t.getFp 1 == 0x36A0000000000000) = true := by decide +kernel

/-- Vector F52. -/
theorem test_fmoved_l_in_range_after_truncation :
    goes (launch refConfig [0x5E, 0x01, 0x70] [] [(0, 0xC1E0000000100000)] [])
      (fun t => t.getR 1 == 0x80000000) = true := by decide +kernel

/-- Vector F56. -/
theorem test_fmoved_q :
    goes (launch refConfig [0x5F, 0x01, 0x70] [] [(0, 0xC0FE240C9FBE76C9)] [])
      (fun t => t.getR 1 == 0xFFFFFFFFFFFE1DC0) = true := by decide +kernel

/-- Vector F68. -/
theorem test_fmoved_s_gradual_underflow :
    goes (launch refConfig [0x60, 0x71, 0x70] [] [(0, 0x37A16C262777579C)] [])
      (fun t => t.getFp 1 == 0x000116C2) = true := by decide +kernel

/-- Vector F67. -/
theorem test_fmoved_s_overflows_to_infinity :
    goes (launch refConfig [0x60, 0x71, 0x70] [] [(0, 0xC7EFFFFFF0000000)] [])
      (fun t => t.getFp 1 == 0xFF800000) = true := by decide +kernel

/-- Vector FS3. -/
theorem test_fsavem_saves_fp15 :
    goes (launch refConfig [0x61, 0x5F, 0x00, 0x80] [(15, 0x2000)] [(15, 0x7FF8000000000001)] [])
      (fun t => t.getR 15 == 0x1FF8 && t.mem.load 0x1FF8 8 == [0x01, 0, 0, 0, 0, 0, 0xF8, 0x7F]) = true := by decide

/-- Vector FS5. -/
theorem test_floadm :
    goes (launch refConfig [0x62, 0x50, 0x05, 0x00] [(0, 0x1010)] [] [(0x1002, 0xC0), (0x1003, 0x3F), (0x1004, 0xFF), (0x1005, 0xFF), (0x1006, 0xFF), (0x1007, 0xFF), (0x100e, 0x04), (0x100f, 0xC0)])
      (fun t => t.getR 0 == 0x1000 && t.getFp 0 == 0xFFFFFFFF3FC00000 && t.getFp 2 == 0xC004000000000000) = true := by decide

/-- Vector C1. -/
theorem test_clr_b :
    goes (launch refConfig [0x63, 0x03] [(3, 0x1122334455667788)] [] [])
      (fun t => t.getR 3 == 0x1122334455667700 && t.pc == 2) = true := by decide

/-- Vector C5. -/
theorem test_clr_w_steps :
    goes (launch refConfig [0x64, 0x21] [(1, 0x1000)] [] [(0x1000, 0xAA), (0x1001, 0xBB), (0x1002, 0xCC)])
      (fun t => t.getR 1 == 0x1002 && t.mem.load 0x1000 3 == [0, 0, 0xCC]) = true := by decide

/-- Vector C7. -/
theorem test_clr_l_of_fpr :
    goes (launch refConfig [0x65, 0x73] [] [(3, 0xBFF00000BF800000)] [])
      (fun t => t.getFp 3 == 0xBFF0000000000000) = true := by decide

/-- Vector C6. -/
theorem test_clr_q_pushes_zero :
    goes (launch refConfig [0x66, 0x5F] [(15, 0x2000)] [] [(0x1ff8, 0xFF), (0x1ff9, 0xFF), (0x1ffa, 0xFF), (0x1ffb, 0xFF), (0x1ffc, 0xFF), (0x1ffd, 0xFF), (0x1ffe, 0xFF), (0x1fff, 0xFF)])
      (fun t => t.getR 15 == 0x1FF8 && t.mem == []) = true := by decide

/-- Vector X1. -/
theorem test_exg :
    goes (launch refConfig [0x67, 0x3A] [(3, 0x1111111111111111), (10, 0x2222222222222222)] [] [])
      (fun t => t.getR 3 == 0x2222222222222222 && t.getR 10 == 0x1111111111111111 && t.pc == 2) = true := by decide

/-- Vector X6. -/
theorem test_fexg_leaves_gprs :
    goes (launch refConfig [0x68, 0xF0] [(0, 0x1234), (15, 0x5678)] [(0, 0x7FF8000000000001), (15, 0xFFFFFFFF)] [])
      (fun t => t.getFp 0 == 0xFFFFFFFF && t.getFp 15 == 0x7FF8000000000001 && t.getR 15 == 0x5678) = true := by decide

/-- Vector X7. -/
theorem test_swap :
    goes (launch refConfig [0x69, 0x05] [(5, 0x1122334455667788)] [] [])
      (fun t => t.getR 5 == 0x1122334477885566) = true := by decide

/-- Vector X8. -/
theorem test_swap_l :
    goes (launch refConfig [0x6A, 0x05] [(5, 0x1122334455667788)] [] [])
      (fun t => t.getR 5 == 0x5566778811223344) = true := by decide

/-- Vector L1. -/
theorem test_link :
    goes (launch refConfig [0x6B, 0x0E, 0xE0, 0xFF, 0xFF, 0xFF] [(14, 0xAAAA), (15, 0x2000)] [] [])
      (fun t => t.getR 14 == 0x1FF8 && t.getR 15 == 0x1FD8 && t.mem.load 0x1FF8 2 == [0xAA, 0xAA] && t.pc == 6) = true := by decide

/-- Vector L5. -/
theorem test_link_sp :
    goes (launch refConfig [0x6B, 0x0F, 0xF0, 0xFF, 0xFF, 0xFF] [(15, 0x2000)] [] [])
      (fun t => t.getR 15 == 0x1FE8 && t.mem.load 0x1FF8 2 == [0xF8, 0x1F]) = true := by decide

/-- Vector L2. -/
theorem test_unlk :
    goes (launch refConfig [0x6C, 0x0E] [(14, 0x1FF8), (15, 0x1FD8)] [] [(0x1ff8, 0xAA), (0x1ff9, 0xAA)])
      (fun t => t.getR 14 == 0xAAAA && t.getR 15 == 0x2000 && t.pc == 2) = true := by decide

/-- Vector L6. -/
theorem test_unlk_sp :
    goes (launch refConfig [0x6C, 0x0F] [(15, 0x1FF8)] [] [(0x1ff9, 0x28)])
      (fun t => t.getR 15 == 0x2808) = true := by decide

/-- Vector G5. -/
theorem test_end_of_text :
    goes (launch refConfig [] [] [] [])
      (fun t => t.outcome == .ended) = true := by decide

/-- Vector M14. -/
theorem test_read_fault_first :
    faults (launch refConfig [0x50, 0x12, 0x11] [(1, 0x5000), (2, 0x6000)] [] []) (.memAccess 0x5000 8 .read) = true := by decide

/-- Vector M16. -/
theorem test_misaligned :
    faults (launch alignConfig [0x4F, 0x02, 0x11] [(1, 0x1002)] [] []) (.misaligned 0x1002 4) = true := by decide

/-- Vector S17. -/
theorem test_mode_check_before_mask :
    faults (launch refConfig [0x51, 0x1F] [] [] []) (.illegalEAMode 0) = true := by decide

/-- Vector S18. -/
theorem test_mask_cut_short :
    faults (launch refConfig [0x51, 0x5F, 0x06] [] [] []) (.fetchPastEnd 3) = true := by decide

/-- Vector L10. -/
theorem test_reserved_nibble :
    faults (launch refConfig [0x6B, 0x1E, 0xE0, 0xFF, 0xFF, 0xFF] [] [] []) (.reservedBits 0 0x1E) = true := by decide

/-- Vector L12. -/
theorem test_slot_off_the_top :
    faults (launch refConfig [0x6B, 0x0E, 0xE0, 0xFF, 0xFF, 0xFF] [(15, 4)] [] []) (.memAccess 0xFFFFFFFFFFFFFFFC 8 .write) = true := by decide

/-- Vector G1. -/
theorem test_opcode_out_of_group :
    refuses (launch refConfig [0x4C] [] [] []) (.opcodeOutOfGroup 0 0x4C) = true := by decide

/-- Vector M19. -/
theorem test_unmodelled_mode :
    refuses (launch refConfig [0x4D, 0x82, 0x01] [] [] []) (.unmodelledEA 0 1 0x82) = true := by decide

/-! ## Witnesses: what meets each statement's hypotheses -/

/-- `State.accessible`, computed. -/
def accessibleB (s : State) (loc : Loc) (n : Nat) (kind : AccessKind) : Bool :=
  match loc with
  | .mem a => s.accessFault a n kind == none
  | .gReg _ | .fReg _ | .imm _ => true

theorem accessible_of (s : State) (loc : Loc) (n : Nat) (kind : AccessKind) (h : accessibleB s loc n kind = true) :
    s.accessible loc n kind := by
  intro a ha
  subst ha
  simpa [accessibleB] using h

/-- Two registers that point into memory, a third that does not, and some bytes, under `c` with the text `text`. -/
def sample (c : Config) (text : List Byte) : State :=
  launch c text [(1, 0x1000), (2, 0x1100), (3, 0x5000), (14, 0x1FF8), (15, 0x2000)] [(0, 0xC0200000)]
    [(0x1000, 0x11), (0x1001, 0x22)]

/-! ### Encoding and decoding -/

theorem witness_EncodedInstructionDecodesToItself :
    refConfig.eaCodec = .ref ∧
      (Instr.moveL (.indDisp 1 (-2147483648)) (.indDisp 2 2147483647)).wellFormed = true ∧
      (Instr.moveL (.indDisp 1 (-2147483648)) (.indDisp 2 2147483647)).refEncodable = true := by decide

theorem witness_DecodedBytesAreTheEncoding :
    bigConfig.eaCodec = .ref ∧
      decode bigConfig [0x6B, 0x0E, 0xFF, 0xFF, 0xFF, 0xE0, 0x4C] = .ok (.link 14 0xFFFFFFE0, 6) := by decide

theorem witness_DecodedInstructionIsWellFormedAndFits :
    decode refConfig [0x51, 0x5F, 0x06, 0x01] = .ok (.savem (.preDec 15) 0x0106, 4) := by decide

theorem witness_OpcodeByteSelectsInstruction :
    decode refConfig (0x6C :: [0x0E]) = .ok (.unlk 14, 2) := by decide

theorem witness_ReferenceCodecFollowsItsTable : 8 ≤ (8 : Reg).val ∧ 8 ≤ (15 : Reg).val := by decide

theorem witness_OpcodeOutOfGroupIsRefused :
    (sample refConfig [0x4C]).outcome = .running ∧ (sample refConfig [0x4C]).textAt = 0x4C :: [] ∧
      (0x4C : Byte).toNat < 0x4D ∧ (sample refConfig [0x6D, 0x00]).textAt = 0x6D :: [0x00] ∧
      0x6C < (0x6D : Byte).toNat := by decide

theorem witness_UnmodelledModeIsRefused :
    (sample refConfig [0x66, 0x80]).outcome = .running ∧ (sample refConfig [0x66, 0x80]).launch.config.eaCodec = .ref ∧
      0x80 ≤ (0x80 : Byte).toNat ∧ (sample refConfig [0x66, 0x80]).textAt = 0x66 :: 0x80 :: [] ∧
      (sample refConfig [0x4D, 0xFF]).textAt = 0x4D :: 0xFF :: [] := by decide

theorem witness_UnmodelledModeIsRefused_source :
    encodeEA .little (.gReg 2) = some [0x02] ∧
      (sample refConfig [0x60, 0x02, 0x80]).textAt = 0x60 :: [0x02] ++ 0x80 :: [] ∧
      (sample refConfig [0x4D, 0x02, 0xFF]).textAt = 0x4D :: [0x02] ++ 0xFF :: [] := by decide

theorem witness_IllegalModeFaultsBeforeMask :
    (sample refConfig [0x51, 0x1F]).outcome = .running ∧ (sample refConfig [0x51, 0x1F]).textAt = 0x51 :: 0x1F :: [] ∧
      codecAnswer (sample refConfig [0x51, 0x1F]).launch.config 0x1F [] = some (.ok (.ind 15) 0) ∧ 0 ≤ ([] : List Byte).length ∧
      (EADesc.ind 15).isStepping = false := by decide

theorem witness_TruncatedInstructionFaults :
    (sample refConfig [0x6B]).outcome = .running ∧ (Instr.link 14 0xFFFFFFE0).wellFormed = true ∧
      encode .little (.link 14 0xFFFFFFE0) = some [0x6B, 0x0E, 0xE0, 0xFF, 0xFF, 0xFF] ∧
      (sample refConfig [0x6B]).textAt = [0x6B, 0x0E, 0xE0, 0xFF, 0xFF, 0xFF].take 1 ∧
      (sample refConfig [0x6B, 0x0E, 0xE0, 0xFF, 0xFF]).textAt = [0x6B, 0x0E, 0xE0, 0xFF, 0xFF, 0xFF].take 5 := by decide

theorem witness_DecodeFailureStopsByName :
    (sample refConfig [0x51, 0x1F]).outcome = .running ∧
      (sample refConfig [0x51, 0x1F]).pc.toNat ≠ (sample refConfig [0x51, 0x1F]).launch.codeEnd ∧
      (sample refConfig [0x51, 0x1F]).decodeAt = .error .illegalEAMode ∧
      (sample refConfig [0x4C]).decodeAt = .error (.opcodeOutOfGroup 0x4C) ∧
      (sample refConfig [0x69, 0x15]).decodeAt = .error (.reservedBits 0x15) ∧
      (sample refConfig [0x63, 0x9A]).decodeAt = .error (.unmodelledEA 1 0x9A) ∧
      (sample refConfig [0x66]).decodeAt = .error (.pastEnd 1) := by decide

theorem witness_IllFormedInstructionFaults :
    (Instr.clrB (.imm 1)).wellFormed = false ∧ (Instr.savem (.ind 15) 3).wellFormed = false := by decide

/-! ### Memory and operands -/

theorem witness_BytesAndValueAreInverse : 0 < 256 ^ 0 ∧ 255 < 256 ^ 1 ∧ 256 ^ 8 - 1 < 256 ^ 8 := by decide

theorem witness_MemReadGivesTheBytes :
    ((sample alignConfig []).launch.config.alignPolicy = .fault ∧ (0x1001 : Addr).toNat % Size.w.bytes ≠ 0) ∧
      ((sample refConfig []).launch.admitted 0x2FF9 Size.q.bytes = false) ∧
      ((sample refConfig []).launch.admitted 0x2FF8 Size.q.bytes = true) := by decide

theorem witness_MemWriteChangesExactlyItsBytes :
    ((sample alignConfig []).launch.config.alignPolicy = .fault ∧ (0x1001 : Addr).toNat % Size.l.bytes ≠ 0) ∧
      ((sample refConfig []).launch.admitted 0x0FFF Size.b.bytes = false) ∧
      ((sample refConfig []).launch.admitted 0x1000 Size.b.bytes = true) := by decide

theorem witness_ReadAfterWriteGivesTheValue :
    ∃ t, (sample refConfig []).memWrite 0x2FF8 .q 0x1122334455667788 = .ok t := ⟨_, rfl⟩

theorem witness_StoredQuadReadsBackByPieces :
    (∃ t, (sample refConfig []).memWrite 0x1000 .q 0x1122334455667788 = .ok t) ∧
      (sample refConfig []).launch.config.byteOrder = .little ∧
      (∃ t, (sample bigConfig []).memWrite 0x1000 .q 0x1122334455667788 = .ok t) ∧
      (sample bigConfig []).launch.config.byteOrder = .big ∧ 0 < 8 ∧ 7 < 8 := ⟨⟨_, rfl⟩, rfl, ⟨_, rfl⟩, rfl, by decide⟩

theorem witness_NarrowRegisterWriteKeepsUpperBits : 0 < 64 ∧ 63 < 64 := by decide

/-- Operands that can be accessed: a stepping source and a memory destination, of every pair of sizes. -/
theorem witness_operands (ds ss : Size) : OperandsOk (sample refConfig []) (.postInc 1) (.preDec 2) ds ss := by
  cases ds <;> cases ss <;> exact ⟨rfl, accessible_of _ _ _ _ (by decide), accessible_of _ _ _ _ (by decide)⟩

theorem witness_MoveCompletesWithCopiedValue : OperandsOk (sample refConfig []) (.postInc 1) (.preDec 2) .q .q :=
  witness_operands .q .q

theorem witness_ClrCompletesWithZero :
    (EADesc.preDec 15).isImm = false ∧
      ((sample refConfig []).stepEA (.preDec 15) Size.q.bytes).accessible
        ((sample refConfig []).locOf (.preDec 15) Size.q.bytes) Size.q.bytes .write :=
  ⟨rfl, accessible_of _ _ _ _ (by decide)⟩

theorem witness_IntegerToFloatCompletes : OperandsOk (sample refConfig []) (.postInc 1) (.preDec 2) .l .b :=
  witness_operands .l .b

theorem witness_FloatConversionCompletes : OperandsOk (sample refConfig []) (.postInc 1) (.preDec 2) .l .q :=
  witness_operands .l .q

theorem witness_MoveAndConversionFrame :
    (∃ t, exec (.moveQ (.postInc 1) (.gReg 2)) (sample refConfig []) = .next t) ∧
      EADesc.postInc 1 ≠ .gReg 4 ∧ steppedBy (.postInc 1) 4 = false ∧ steppedBy (.gReg 2) 4 = false ∧
      EADesc.postInc 1 ≠ .fReg 0 ∧ ((sample refConfig []).locOf (.postInc 1) 8).misses 8 0x1008 :=
  ⟨⟨_, rfl⟩, by decide, by decide, by decide, by decide, by intro a h; cases h; exact .inr (by decide)⟩

theorem witness_ClrFrame :
    (∃ t, exec (.clrW (.preDec 2)) (sample refConfig []) = .next t) ∧
      EADesc.preDec 2 ≠ .gReg 1 ∧ steppedBy (.preDec 2) 1 = false ∧ EADesc.preDec 2 ≠ .fReg 15 ∧
      ((sample refConfig []).locOf (.preDec 2) 2).misses 2 0x10FD :=
  ⟨⟨_, rfl⟩, by decide, by decide, by decide, by intro a h; cases h; exact .inl (by decide)⟩

theorem witness_OverlappingMoveCopiesOldBytes :
    (∃ t, exec (.moveW (.ind 1) (.ind 2)) (sample refConfig []) = .next t) ∧
      (∃ t, exec (.moveL (.ind 1) (.ind 1)) (sample refConfig []) = .next t) ∧
      (∃ t, exec (.moveQ (.ind 2) (.ind 1)) (sample refConfig []) = .next t) := ⟨⟨_, rfl⟩, ⟨_, rfl⟩, ⟨_, rfl⟩⟩

theorem witness_OperandFaultsAreReportedInOrder :
    (EADesc.ind 3).isImm = false ∧ sourceLoc (sample refConfig []) (.ind 3) (.ind 3) 8 8 = .mem 0x5000 ∧
      (resolved (sample refConfig []) (.ind 3) (.ind 3) 8 8).accessFault 0x5000 8 .read =
        some (.memAccess 0x5000 8 .read) ∧
      (sample refConfig []).locOf (.ind 3) 8 = .mem 0x5000 ∧
      (resolved (sample refConfig []) (.ind 3) (.gReg 1) 8 8).accessFault 0x5000 8 .write =
        some (.memAccess 0x5000 8 .write) ∧
      ((sample refConfig []).stepEA (.ind 3) 8).accessFault 0x5000 8 .write = some (.memAccess 0x5000 8 .write) := by
  decide

theorem witness_OperandFaultsAreReportedInOrder_source :
    (resolved (sample refConfig []) (.ind 3) (.gReg 1) 8 8).accessible
      (sourceLoc (sample refConfig []) (.ind 3) (.gReg 1) 8 8) 8 .read := by
  intro a h
  cases h

/-! ### Sets of registers -/

theorem witness_SaveWritesAscendingImage :
    stepModeOf (.preDec 15) = some (.preDec, 15) ∧
      SlotsOk (sample refConfig []) .preDec ((sample refConfig []).getR 15) (maskRegs 0xFFFF).length .write ∧
      15 < (maskRegs 0xFFFF).length := by
  refine ⟨rfl, ?_, by decide⟩
  unfold SlotsOk
  decide

theorem witness_LoadReadsAscendingImage :
    stepModeOf (.postDec 2) = some (.postDec, 2) ∧
      SlotsOk (sample refConfig []) .postDec ((sample refConfig []).getR 2) (maskRegs 0x8005).length .read ∧
      (0 < (maskRegs 0x8005).length ∧ (maskRegs 0x8005)[0]! ≠ 2) ∧ (4 : Reg) ≠ 2 ∧
      (0x8005 : BitVec 16).getLsbD (4 : Reg).val = false := by
  refine ⟨rfl, ?_, by decide, by decide, by decide⟩
  unfold SlotsOk
  decide

theorem witness_TransferStopsAtFirstBadSlot :
    stepModeOf (.preDec 1) = some (.preDec, 1) ∧ 0 < (maskRegs 0x0003).length ∧
      (sample refConfig []).accessFault (imageSlot .preDec ((sample refConfig []).getR 1) 2 (2 - 1 - 0)) 8 .write =
        some (.memAccess 0xFF8 8 .write) ∧
      stepModeOf (.postInc 3) = some (.postInc, 3) ∧
      (sample refConfig []).accessFault (imageSlot .postInc ((sample refConfig []).getR 3) 2 0) 8 .read =
        some (.memAccess 0x5000 8 .read) := by decide

/-- The first slot can be accessed and the second cannot, at the end of the valid addresses. -/
theorem witness_TransferStopsAtFirstBadSlot_second :
    1 < (maskRegs 0x0003).length ∧ (launch refConfig [] [(1, 0x2FF8)] [] []).getR 1 = 0x2FF8 ∧
      (∀ j < 1, (launch refConfig [] [(1, 0x2FF8)] [] []).accessFault (imageSlot .postInc 0x2FF8 2 j) 8 .read = none) ∧
      (launch refConfig [] [(1, 0x2FF8)] [] []).accessFault (imageSlot .postInc 0x2FF8 2 1) 8 .read =
        some (.memAccess 0x3000 8 .read) := by decide

theorem witness_SaveThenOppositeLoadRestores :
    ∃ t, exec (saveInstr .gpr (.preDec 15) 0x0106) (sample refConfig []) = .next t ∧
      stepModeOf (.preDec 15) = some (.preDec, 15) ∧ stepModeOf (.postInc 15) = some (StepMode.preDec.opposite, 15) ∧
      t.launch = t.launch ∧ t.getR 15 = t.getR 15 := ⟨_, rfl, rfl, rfl, rfl, rfl⟩

/-! ### Registers and frames -/

theorem witness_ExgExchangesRegisters :
    Fetches (sample refConfig [0x67, 0x3A]) [0x67, nibbles 3 10] ∧ (sample refConfig [0x67]).textAt = [0x67] ∧
      (0 : Reg) ≠ 3 ∧ (0 : Reg) ≠ 10 := ⟨⟨rfl, [], by decide⟩, by decide, by decide, by decide⟩

theorem witness_FexgExchangesRegisters :
    Fetches (sample refConfig [0x68, 0xF0]) [0x68, nibbles 15 0] ∧ (sample refConfig [0x68]).textAt = [0x68] ∧
      (1 : Reg) ≠ 15 ∧ (1 : Reg) ≠ 0 := ⟨⟨rfl, [], by decide⟩, by decide, by decide, by decide⟩

theorem witness_SwapExchangesLowHalfwords :
    Fetches (sample refConfig [0x69, 0x05]) [0x69, nibbles 0 5] ∧ (sample refConfig [0x69]).textAt = [0x69] ∧
      (sample refConfig [0x69, 0x15]).textAt = 0x69 :: 0x15 :: [] ∧ highNibble 0x15 ≠ 0 ∧ (0 : Reg) ≠ 5 :=
  ⟨⟨rfl, [], by decide⟩, by decide, by decide, by decide, by decide⟩

theorem witness_SwapLExchangesHalves :
    Fetches (sample refConfig [0x6A, 0x05]) [0x6A, nibbles 0 5] ∧ (sample refConfig [0x6A]).textAt = [0x6A] ∧
      (sample refConfig [0x6A, 0xF5]).textAt = 0x6A :: 0xF5 :: [] ∧ highNibble 0xF5 ≠ 0 ∧ (0 : Reg) ≠ 5 :=
  ⟨⟨rfl, [], by decide⟩, by decide, by decide, by decide, by decide⟩

theorem witness_ExchangesUndoThemselves :
    (∃ t, exec (.swap 1) (sample refConfig []) = .next t) ∧ (∃ t, exec (.swapL 1) (sample refConfig []) = .next t) ∧
      (∃ t, exec (.exg 1 2) (sample refConfig []) = .next t) ∧
      (∃ t, exec (.fexg 0 1) (sample refConfig []) = .next t) := ⟨⟨_, rfl⟩, ⟨_, rfl⟩, ⟨_, rfl⟩, ⟨_, rfl⟩⟩

theorem witness_RegisterInstructionsIgnoreConfigAndMemory :
    Instr.swap 3 = .exg 3 4 ∨ Instr.swap 3 = .fexg 3 4 ∨ Instr.swap 3 = .swap 3 ∨ Instr.swap 3 = .swapL 3 := by decide

theorem witness_LinkPushesAndAllocates :
    (sample refConfig []).accessFault ((sample refConfig []).sp - 8) 8 .write = none ∧
      (14 : Reg) ≠ (sample refConfig []).spIndex ∧ (15 : Reg) = (sample refConfig []).spIndex ∧
      (launch refConfig [] [(15, 4)] [] []).accessFault (4 - 8) 8 .write =
        some (.memAccess 0xFFFFFFFFFFFFFFFC 8 .write) ∧
      (sample refConfig [0x6B]).textAt = (0x6B :: nibbles 0 14 :: toBytes .little 4 0xFFFFFFE0).take 1 ∧
      (sample refConfig [0x6B, 0x0E, 0xE0, 0xFF, 0xFF]).textAt =
        (0x6B :: nibbles 0 14 :: toBytes .little 4 0xFFFFFFE0).take 5 ∧
      (sample refConfig [0x6B, 0x1E]).textAt = 0x6B :: 0x1E :: [] ∧ highNibble 0x1E ≠ 0 := by decide

theorem witness_LinkPushesAndAllocates_fetch :
    Fetches (sample refConfig [0x6B, 0x0E, 0xE0, 0xFF, 0xFF, 0xFF, 0x4C])
      (0x6B :: nibbles 0 14 :: toBytes .little 4 0xFFFFFFE0) := ⟨rfl, [0x4C], by decide⟩

theorem witness_UnlkPopsFrame :
    (sample refConfig []).accessFault ((sample refConfig []).getR 14) 8 .read = none ∧
      (14 : Reg) ≠ (sample refConfig []).spIndex ∧ (15 : Reg) = (sample refConfig []).spIndex ∧
      (sample refConfig []).accessFault ((sample refConfig []).getR 15) 8 .read = none ∧
      (sample refConfig []).accessFault ((sample refConfig []).getR 3) 8 .read = some (.memAccess 0x5000 8 .read) ∧
      (sample refConfig [0x6C]).textAt = [0x6C] ∧ (sample refConfig [0x6C, 0x2E]).textAt = 0x6C :: 0x2E :: [] ∧
      highNibble 0x2E ≠ 0 := by decide

theorem witness_UnlkPopsFrame_fetch : Fetches (sample refConfig [0x6C, 0x0E]) [0x6C, nibbles 0 14] :=
  ⟨rfl, [], by decide⟩

theorem witness_LinkThenUnlkRestores :
    ∃ t, exec (.link 14 0xFFFFFFE0) (sample refConfig []) = .next t ∧ (14 : Reg) ≠ (sample refConfig []).spIndex ∧
      t.launch = t.launch ∧ t.getR 14 = t.getR 14 := ⟨_, rfl, by decide, rfl, rfl⟩

/-! ### The conversions' values -/

theorem witness_IntegerConversionIsExactWhenRepresentable :
    -(2 ^ 63) ≤ (-9223372036854775808 : Int) ∧ (-9223372036854775808 : Int).natAbs = 2 ^ 63 ∧
      (16777216 : Int).natAbs ≤ 2 ^ 24 ∧ (9007199254740992 : Int).natAbs ≤ 2 ^ 53 ∧ (9007199254740992 : Int) < 2 ^ 63 ∧
      Fmt.isFinite .single 0x4B800001#32 = true ∧ Fmt.val .single 0x4B800001#32 = 16777218 * 2 ^ 149 ∧
      Fmt.isFinite .double 0x4340000000000001#64 = true ∧
      Fmt.val .double 0x4340000000000001#64 = 9007199254740994 * 2 ^ 1074 := by decide +kernel

theorem witness_SingleToDoubleIsExact :
    Fmt.isInf .single 0xFF800000#32 = true ∧ Fmt.isFinite .single 0x00000001#32 = true ∧
      Fmt.isFinite .single 0x7F7FFFFF#32 = true := by decide

theorem witness_IntegerValuedFloatConvertsExactly :
    -(2 ^ (32 - 1)) ≤ (-2147483648 : Int) ∧ (-2147483648 : Int) < 2 ^ (32 - 1) ∧
      Fmt.isFinite .single 0xCF000000#32 = true ∧ Fmt.val .single 0xCF000000#32 = -2147483648 * 2 ^ 149 ∧
      Fmt.isFinite .double 0x41DFFFFFFFC00000#64 = true ∧
      Fmt.val .double 0x41DFFFFFFFC00000#64 = 2147483647 * 2 ^ 1074 := by decide +kernel

theorem witness_DoubleToSingleIsExactWhenRepresentable :
    Fmt.isInf .double 0x7FF0000000000000#64 = true ∧ Fmt.isFinite .double 0x47EFFFFFE0000000#64 = true ∧
      Fmt.isFinite .single 0x7F7FFFFF#32 = true ∧
      Fmt.val .single 0x7F7FFFFF#32 * 2 ^ 925 = Fmt.val .double 0x47EFFFFFE0000000#64 := by decide +kernel

theorem witness_ReferenceFloatToIntegerTruncates :
    Fmt.isFinite .single 0xC0200000#32 = true ∧ (Fmt.val .single 0xC0200000#32).tdiv (2 ^ 149) = -2 ∧
      -(2 ^ (64 - 1)) ≤ (-2 : Int) ∧ (-2 : Int) < 2 ^ (64 - 1) ∧ Fmt.isFinite .double 0xC1E0000000100000#64 = true ∧
      (Fmt.val .double 0xC1E0000000100000#64).tdiv (2 ^ 1074) = -(2 ^ (32 - 1)) := by decide +kernel

theorem witness_ReferenceIntegerToFloatIsNearestEven :
    -(2 ^ 63) ≤ (9223372036854775807 : Int) ∧ (9223372036854775807 : Int) < 2 ^ 63 ∧
      Fmt.isFinite .single 0x00000000#32 = true ∧ Fmt.isFinite .double 0xFFEFFFFFFFFFFFFF#64 = true := by decide

theorem witness_ReferenceDoubleToSingleIsNearestEven :
    Fmt.isFinite .double 0x47EFFFFFEFFFFFFF#64 = true ∧
      Fmt.mag .double 0x47EFFFFFEFFFFFFF#64 < Fmt.mag .double 0x47EFFFFFF0000000#64 ∧
      Fmt.isFinite .double 0xC7EFFFFFF0000000#64 = true ∧
      Fmt.mag .double 0x47EFFFFFF0000000#64 ≤ Fmt.mag .double 0xC7EFFFFFF0000000#64 := by decide +kernel

theorem witness_NanConvertsToNan :
    Fmt.isNaN .single 0x7FC00001#32 = true ∧ Fmt.isNaN .double 0x7FF0000000000001#64 = true := by decide

theorem witness_ExactConversionsRoundTrip : Fmt.isNaN .single 0x80000000#32 = false := by decide

/-! ### The machine -/

theorem witness_StepRunsDecodedInstruction :
    (sample refConfig [0x67, 0x12]).outcome = .running ∧
      (sample refConfig [0x67, 0x12]).pc.toNat ≠ (sample refConfig [0x67, 0x12]).launch.codeEnd ∧
      (sample refConfig [0x67, 0x12]).decodeAt = .ok (.exg 1 2, 2) ∧
      (∃ t, exec (.exg 1 2) (sample refConfig [0x67, 0x12]) = .next t) ∧
      (sample refConfig [0x6C, 0x03]).decodeAt = .ok (.unlk 3, 2) ∧
      exec (.unlk 3) (sample refConfig [0x6C, 0x03]) = .fault (.memAccess 0x5000 8 .read) :=
  ⟨rfl, by decide, by decide, ⟨_, rfl⟩, by decide, rfl⟩

theorem witness_StepAdvancesPcByLength :
    ∃ t, (sample refConfig [0x67, 0x12]).outcome = .running ∧
      (sample refConfig [0x67, 0x12]).pc.toNat ≠ (sample refConfig [0x67, 0x12]).launch.codeEnd ∧
      step (sample refConfig [0x67, 0x12]) = .next t := ⟨_, rfl, by decide, rfl⟩

theorem witness_RunEndsAtCodeEnd :
    (sample refConfig []).outcome = .running ∧
      (sample refConfig []).pc.toNat = (sample refConfig []).launch.codeEnd := by decide

theorem witness_StoppedRunStaysStopped :
    { sample refConfig [] with outcome := .ended }.outcome ≠ .running ∧
      step (sample refConfig [0x66]) = .fault (.fetchPastEnd 1) ∧
      step (sample refConfig [0x4C]) = .refused (.opcodeOutOfGroup 0 0x4C) := ⟨by decide, rfl, rfl⟩

theorem witness_StepNeverChangesLaunch : ∃ t, step (sample refConfig [0x66, 0x5F]) = .next t := ⟨_, rfl⟩

theorem witness_InstructionEffectIgnoresPc : ∃ t, exec (.savem (.preDec 15) 0x0106) (sample refConfig []) = .next t :=
  ⟨_, rfl⟩

/-- A state with the invariant whose memory is not empty and whose text is not at its end. -/
theorem sample_inv : (sample refConfig [0x66, 0x5F]).Inv where
  launchWf := by unfold Launch.wf; decide
  pcInText := by unfold State.pcInText; decide
  memWf := by decide
  memInValid := by unfold State.memInValid; decide
  endedAtEnd := by decide

theorem witness_StepKeepsMachineInvariant :
    ∃ t, (sample refConfig [0x66, 0x5F]).Inv ∧ step (sample refConfig [0x66, 0x5F]) = .next t := ⟨_, sample_inv, rfl⟩

theorem witness_RunStopsWithinHalfTheText :
    ∃ t, (sample refConfig [0x66, 0x5F]).Inv ∧ (sample refConfig [0x66, 0x5F]).outcome = .running ∧
      Host.Core.run core
        (((sample refConfig [0x66, 0x5F]).launch.codeEnd - (sample refConfig [0x66, 0x5F]).pc.toNat) / 2 + 1)
        (sample refConfig [0x66, 0x5F]) = .next t := ⟨_, sample_inv, rfl, rfl⟩

end Sys2Proof.Tests
end

