-- ==== Sys2Proof/Proofs/Step.lean ====
section
/-! PROOFS. Everything a step that completes can do, said once (R234), and from it that no step changes what the launch
fixed (R35). -/

namespace Sys2Proof.Machine

/-- An instruction completes as its effect does, followed by the advance of `pc` (R28). -/
theorem runInstr_next {i : Instr} {len : Nat} {s t : State} :
    runInstr i len s = .next t ↔ ∃ u, exec i s = .next u ∧ t = u.advance len := by
  cases h : exec i s <;> simp [runInstr, h, eq_comm]

/-- A failed decoding always stops the run. -/
@[simp] theorem decodeStop_ne_next {pc : Addr} {e : DecodeError} {t : State} : decodeStop pc e ≠ .next t := by
  cases e <;> simp [decodeStop]

/-- A step that completes stays at the end of an ended run, ends a run at the end of its text, or runs the instruction
decoded at `pc` (R234). -/
theorem step_next {s t : State} :
    step s = .next t ↔
      (s.outcome = .ended ∧ t = s) ∨
      (s.outcome = .running ∧ s.pc.toNat = s.launch.codeEnd ∧ t = { s with outcome := .ended }) ∨
      (s.outcome = .running ∧ s.pc.toNat ≠ s.launch.codeEnd ∧
        ∃ i len u, s.decodeAt = .ok (i, len) ∧ exec i s = .next u ∧ t = u.advance len) := by
  cases ho : s.outcome with
  | faulted f => simp [step, ho]
  | refused q => simp [step, ho]
  | ended => simp [step, ho, eq_comm]
  | running =>
    by_cases hpc : s.pc.toNat = s.launch.codeEnd
    · simp [step, ho, hpc, eq_comm]
    · cases hd : s.decodeAt with
      | error e => simp [step, ho, hpc, hd]
      | ok p => simp [step, ho, hpc, hd, runInstr_next, Prod.ext_iff]

/-- A step that completes leaves the launch as it was: no instruction writes it, nor does the end of the run (R35). -/
theorem step_launch {s t : State} (h : step s = .next t) : t.launch = s.launch := by
  obtain ⟨_, rfl⟩ | ⟨_, _, rfl⟩ | ⟨_, _, i, len, u, _, hu, rfl⟩ := step_next.mp h
  · rfl
  · rfl
  · obtain ⟨_, _, hlaunch⟩ := exec_same hu
    rw [advance_launch, hlaunch]

/-- Keeping the reason a run stopped for changes the outcome only, so the launch is that of the step's state. -/
theorem record_launch {s : State} {o : Host.Outcome State Fault Refusal}
    (h : ∀ t, o = .next t → t.launch = s.launch) : (s.record o).launch = s.launch := by
  cases o with
  | next t => exact h t rfl
  | fault f => rfl
  | refused q => rfl

@[simp] theorem runStep_launch (s : State) : (runStep s).launch = s.launch :=
  record_launch fun _ => step_launch

/-- Settles O55: every completed step keeps the launch, and recording a fault or refusal does not touch it. -/
theorem stepNeverChangesLaunch : Obligations.StepNeverChangesLaunch :=
  ⟨fun _ _ => step_launch, runStep_launch⟩

end Sys2Proof.Machine
end

section
/-! PROOFS. The bytes of a value in memory (20_memory.md R41), said once as base-256 digits, and from it what a read
gives (R47) and what a write changes (R48). -/

namespace Sys2Proof.Machine

/-! ## Base-256 digits -/

theorem leDigits_getElem {n k : Nat} (v : Nat) (hk : k < (leDigits n v).length) :
    (leDigits n v)[k] = BitVec.ofNat 8 (v / 256 ^ k) := by
  induction n generalizing v k with
  | zero => simp [leDigits] at hk
  | succ n ih =>
    cases k with
    | zero => simp [leDigits]
    | succ k => simp [leDigits, ih, Nat.div_div_eq_div_mul, Nat.pow_succ']

theorem leValue_digit {bs : List Byte} {k : Nat} (hk : k < bs.length) :
    BitVec.ofNat 8 (leValue bs / 256 ^ k) = bs[k] := by
  induction bs generalizing k with
  | nil => simp at hk
  | cons b bs ih =>
    have hb : b.toNat < 256 := b.isLt
    cases k with
    | zero => apply BitVec.eq_of_toNat_eq; simp [leValue]; omega
    | succ k =>
      have hdiv : (b.toNat + 256 * leValue bs) / 256 = leValue bs := by omega
      rw [leValue, Nat.pow_succ', ← Nat.div_div_eq_div_mul, hdiv, ih (by simpa using hk), List.getElem_cons_succ]

theorem leValue_lt (bs : List Byte) : leValue bs < 256 ^ bs.length := by
  induction bs with
  | nil => simp [leValue]
  | cons b bs ih =>
    have hb : b.toNat < 256 := b.isLt
    simp only [leValue, List.length_cons, Nat.pow_succ']
    omega

/-! ## Bytes in address order -/

/-- Which base-256 digit of an `n`-byte value stands `k` bytes above its address: the lowest first under `little`, the
highest first under `big` (R41). -/
def digitAt (o : ByteOrder) (n k : Nat) : Nat :=
  match o with
  | .little => k
  | .big => n - 1 - k

theorem toBytes_getElem (o : ByteOrder) {n k : Nat} (v : Nat) (hk : k < (toBytes o n v).length) :
    (toBytes o n v)[k] = BitVec.ofNat 8 (v / 256 ^ digitAt o n k) := by
  cases o <;> simp [toBytes, leOrder, digitAt, leDigits_getElem]

theorem fromBytes_digit (o : ByteOrder) {bs : List Byte} {k : Nat} (hk : k < bs.length) :
    BitVec.ofNat 8 (fromBytes o bs / 256 ^ digitAt o bs.length k) = bs[k] := by
  cases o with
  | little => exact leValue_digit hk
  | big =>
    have hrev : bs.length - 1 - k < bs.reverse.length := by rw [List.length_reverse]; omega
    have hback : bs.length - 1 - (bs.length - 1 - k) = k := by omega
    simp only [fromBytes, leOrder, digitAt, leValue_digit hrev, List.getElem_reverse, hback]

theorem fromBytes_lt (o : ByteOrder) (bs : List Byte) : fromBytes o bs < 256 ^ bs.length := by
  simpa [fromBytes] using leValue_lt (leOrder o bs)

theorem extractLsb'_byte {w : Nat} (v : BitVec w) (j : Nat) :
    v.extractLsb' (8 * j) 8 = BitVec.ofNat 8 (v.toNat / 256 ^ j) := by
  rw [BitVec.extractLsb', Nat.shiftRight_eq_div_pow, Nat.pow_mul]

theorem two_pow_bits (sz : Size) : 2 ^ sz.bits = 256 ^ sz.bytes := by cases sz <;> rfl

/-! ## The bytes a read sees and a write leaves -/

/-- The bytes of the value read are those at the address (R41, R47). -/
theorem peek_byte (s : State) (a : Addr) {sz : Size} {k : Nat} (hk : k < sz.bytes) :
    (s.peek a sz).extractLsb' (8 * digitAt s.launch.config.byteOrder sz.bytes k) 8 = s.mem.get (a.toNat + k) := by
  have hlen : k < (s.mem.load a.toNat sz.bytes).length := by simpa using hk
  have hlt := fromBytes_lt s.launch.config.byteOrder (s.mem.load a.toNat sz.bytes)
  have hdigit := fromBytes_digit s.launch.config.byteOrder hlen
  rw [Memory.load_length] at hlt hdigit
  rw [extractLsb'_byte, State.peek, BitVec.toNat_ofNat, two_pow_bits, Nat.mod_eq_of_lt hlt, hdigit]
  simp [Memory.load]

/-- The bytes at the address after a write are those of the value written (R41, R48). -/
theorem poke_get_inside (s : State) (a : Addr) {sz : Size} (v : BitVec sz.bits) {k : Nat} (hk : k < sz.bytes) :
    (s.poke a sz v).mem.get (a.toNat + k) =
      v.extractLsb' (8 * digitAt s.launch.config.byteOrder sz.bytes k) 8 := by
  rw [poke_mem, Memory.get_store, dif_pos (by simpa using hk), toBytes_getElem, Nat.add_sub_cancel_left,
    extractLsb'_byte]

/-! ## The fault of an access, alignment first (R211) -/

section AccessFault

variable {s : State} {a : Addr} {n : Nat}

theorem accessFault_of_misaligned (kind : AccessKind)
    (h : s.launch.config.alignPolicy = .fault ∧ a.toNat % n ≠ 0) :
    s.accessFault a n kind = some (.misaligned a n) := if_pos h

theorem accessFault_of_not_admitted (kind : AccessKind)
    (h : ¬ (s.launch.config.alignPolicy = .fault ∧ a.toNat % n ≠ 0)) (hadm : s.launch.admitted a n = false) :
    s.accessFault a n kind = some (.memAccess a n kind) := by
  rw [State.accessFault, if_neg h, if_neg (by simp [hadm])]

theorem accessFault_of_admitted (kind : AccessKind)
    (h : ¬ (s.launch.config.alignPolicy = .fault ∧ a.toNat % n ≠ 0)) (hadm : ¬ s.launch.admitted a n = false) :
    s.accessFault a n kind = none := by
  rw [State.accessFault, if_neg h, if_pos (by simpa using hadm)]

end AccessFault

/-! ## The obligations -/

/-- Settles O15: the two faults are those of the access, and the value read has the bytes at the address. -/
theorem memReadGivesTheBytes : Obligations.MemReadGivesTheBytes := by
  intro s a sz
  split_ifs with halign hadm
  · exact memRead_error.mpr (accessFault_of_misaligned .read halign)
  · exact memRead_error.mpr (accessFault_of_not_admitted .read halign hadm)
  · refine ⟨s.peek a sz, memRead_ok.mpr ⟨accessFault_of_admitted .read halign hadm, rfl⟩, fun k hk => ?_⟩
    rw [← peek_byte s a hk]
    cases s.launch.config.byteOrder <;> rfl

/-- Settles O16: the two faults are those of the access, the bytes at the address are those of the value, and a store
leaves every other byte alone. -/
theorem memWriteChangesExactlyItsBytes : Obligations.MemWriteChangesExactlyItsBytes := by
  intro s a sz v
  split_ifs with halign hadm
  · exact memWrite_error.mpr (accessFault_of_misaligned .write halign)
  · exact memWrite_error.mpr (accessFault_of_not_admitted .write halign hadm)
  · refine ⟨(s.poke a sz v).mem, memWrite_ok.mpr ⟨accessFault_of_admitted .write halign hadm, rfl⟩,
      fun k hk => ?_, poke_get_outside s a sz v⟩
    rw [poke_get_inside s a v hk]
    cases s.launch.config.byteOrder <;> rfl

end Sys2Proof.Machine
end

section
/-! PROOFS. What the next step does where the bytes at `pc` decode, and where they do not (R71, R234), and from it what
the formats of the register instructions, `rr` and `r`, make of their register byte (R74, R86). -/

namespace Sys2Proof.Machine

open Sys2Proof.Claims

/-! ## From decoding to the step -/

section StepOfDecode

variable {s t : State} {op : Byte} {bs : List Byte}

/-- Where a byte is left to fetch, `pc` is not at the end of the text, so the run does not end there. -/
theorem pc_ne_codeEnd_of_textAt (h : s.textAt = op :: bs) : s.pc.toNat ≠ s.launch.codeEnd := by
  intro hend
  rw [Launch.codeEnd] at hend
  have hempty : s.textAt = [] := by
    rw [State.textAt, if_neg (by omega), List.drop_eq_nil_iff]
    omega
  simp [hempty] at h

theorem step_of_decode_error {e : DecodeError} (hrun : s.outcome = .running) (htext : s.textAt = op :: bs)
    (hdec : decode s.launch.config (op :: bs) = .error e) : step s = decodeStop s.pc e := by
  simp [step, hrun, pc_ne_codeEnd_of_textAt htext, State.decodeAt, htext, hdec]

/-- The step on fetched bytes that decode, whatever follows them, to an instruction that completes and leaves `pc`. -/
theorem stepsPast_of_decode {i : Instr} {len : Nat}
    (hdec : ∀ rest, decode s.launch.config (op :: bs ++ rest) = .ok (i, len))
    (hexec : exec i s = .next t) (hpc : t.pc = s.pc) (hf : Fetches s (op :: bs)) : StepsPast s t len := by
  obtain ⟨hrun, rest, htext⟩ := hf
  have hat : s.decodeAt = .ok (i, len) := by rw [State.decodeAt, htext, hdec]
  refine step_next.mpr (.inr (.inr ⟨hrun, pc_ne_codeEnd_of_textAt htext, i, len, t, hat, hexec, ?_⟩))
  rw [State.advance, hpc]

theorem cutShortFaults_of_decode
    (hdec : decode s.launch.config (op :: bs) = .error (.pastEnd (op :: bs).length)) :
    CutShortFaults s (op :: bs) :=
  fun hrun htext => step_of_decode_error hrun htext hdec

end StepOfDecode

/-! ## The formats of two registers and of one -/

section RegisterFormats

variable {s t : State} {op : Byte}

/-- Format `rr`: the step fetches the opcode and the two registers in one byte. -/
theorem stepsPast_of_rr {mk : Reg → Reg → Instr} {a b : Reg} (hop : formatOf op = some (.rr mk))
    (hexec : exec (mk a b) s = .next t) (hpc : t.pc = s.pc) (hf : Fetches s [op, nibbles a b]) :
    StepsPast s t 2 := by
  refine stepsPast_of_decode (fun rest => ?_) hexec hpc hf
  rw [List.cons_append, decode_cons, hop]
  simp [decodeOperands, takeByte, bind, Except.bind]

/-- Format `rr` without its register byte. -/
theorem cutShortFaults_of_rr {mk : Reg → Reg → Instr} (hop : formatOf op = some (.rr mk)) :
    CutShortFaults s [op] := by
  apply cutShortFaults_of_decode
  rw [decode_cons, hop]
  rfl

variable {mk : Reg → Instr}

/-- Format `r`: the step fetches the opcode and a register byte with a zero high nibble. -/
theorem stepsPast_of_r {n : Reg} (hop : formatOf op = some (.r mk)) (hexec : exec (mk n) s = .next t)
    (hpc : t.pc = s.pc) (hf : Fetches s [op, nibbles 0 n]) : StepsPast s t 2 := by
  refine stepsPast_of_decode (fun rest => ?_) hexec hpc hf
  have hreg : takeReg 1 (nibbles 0 n :: rest) = .ok n := takeReg_ok.mpr ⟨_, rest, rfl, by simp, by simp⟩
  rw [List.cons_append, decode_cons, hop]
  simp [decodeOperands, hreg, bind, Except.bind]

/-- Format `r` without its register byte. -/
theorem cutShortFaults_of_r (hop : formatOf op = some (.r mk)) : CutShortFaults s [op] := by
  apply cutShortFaults_of_decode
  rw [decode_cons, hop]
  rfl

theorem takeReg_reserved {off : Nat} {b : Byte} (rest : List Byte) (h : highNibble b ≠ 0) :
    takeReg off (b :: rest) = .error (.reservedBits b) := by
  simp [takeReg, takeByte, bind, Except.bind, h]

/-- Format `r` with a reserved nibble that is not zero (R86). -/
theorem nibbleMustBeZero_of_r (hop : formatOf op = some (.r mk)) : NibbleMustBeZero s op := by
  intro b rest hrun htext hb
  refine step_of_decode_error (e := .reservedBits b) hrun htext ?_
  rw [decode_cons, hop]
  simp [decodeOperands, takeReg_reserved rest hb, bind, Except.bind]

end RegisterFormats

end Sys2Proof.Machine
end

section
/-! PROOFS. EXG, FEXG, SWAP and SWAP.L (45_exg_fexg_swap.md R181 to R184). -/

namespace Sys2Proof.Machine

/-! ## The registers after an exchange -/

section Exchanged

variable (s : State) (a b i : Reg)

/-- After `exg` each register holds what the register exchanged with it held; also where `a = b` (R181). -/
theorem exchange_getR :
    ((s.setR b (s.getR a)).setR a (s.getR b)).getR i = s.getR (Equiv.swap a b i) := by
  simp only [setR_getR, Equiv.swap_apply_def]
  split_ifs <;> rfl

/-- After `fexg` each register holds what the register exchanged with it held; also where `a = b` (R182). -/
theorem exchange_getFp :
    ((s.setFp b (s.getFp a)).setFp a (s.getFp b)).getFp i = s.getFp (Equiv.swap a b i) := by
  simp only [setFp_getFp, Equiv.swap_apply_def]
  split_ifs <;> rfl

end Exchanged

/-! ## The fields of a swapped value -/

section SwappedFields

variable (v : Quad)

theorem swapHalfwords_upper : (swapHalfwords v).extractLsb' 32 32 = v.extractLsb' 32 32 :=
  (BitVec.extractLsb'_append_eq_of_le (by omega)).trans BitVec.extractLsb'_append_eq_left

theorem swapHalfwords_middle : (swapHalfwords v).extractLsb' 16 16 = v.extractLsb' 0 16 :=
  (BitVec.extractLsb'_append_eq_of_le (by omega)).trans BitVec.extractLsb'_append_eq_right

theorem swapHalfwords_low : (swapHalfwords v).extractLsb' 0 16 = v.extractLsb' 16 16 :=
  BitVec.extractLsb'_append_eq_right

theorem swapLongs_upper : (swapLongs v).extractLsb' 32 32 = v.extractLsb' 0 32 :=
  BitVec.extractLsb'_append_eq_left

theorem swapLongs_lower : (swapLongs v).extractLsb' 0 32 = v.extractLsb' 32 32 :=
  BitVec.extractLsb'_append_eq_right

end SwappedFields

/-! ## The obligations -/

/-- Settles O33: each register holds the other's value, and nothing but registers is written. -/
theorem exgExchangesRegisters : Obligations.ExgExchangesRegisters := by
  intro s a b
  refine ⟨_, rfl, ?_, ?_, fun i hia hib => ?_, rfl, rfl, rfl, rfl, rfl,
    stepsPast_of_rr rfl rfl rfl, cutShortFaults_of_rr rfl⟩
  · rw [exchange_getR, Equiv.swap_apply_right]
  · rw [exchange_getR, Equiv.swap_apply_left]
  · rw [exchange_getR, Equiv.swap_apply_of_ne_of_ne hia hib]

/-- Settles O34: each register holds the other's pattern, and nothing but floating point registers is written. -/
theorem fexgExchangesRegisters : Obligations.FexgExchangesRegisters := by
  intro s a b
  refine ⟨_, rfl, ?_, ?_, fun i hia hib => ?_, rfl, rfl, rfl, rfl, rfl,
    stepsPast_of_rr rfl rfl rfl, cutShortFaults_of_rr rfl⟩
  · rw [exchange_getFp, Equiv.swap_apply_right]
  · rw [exchange_getFp, Equiv.swap_apply_left]
  · rw [exchange_getFp, Equiv.swap_apply_of_ne_of_ne hia hib]

/-- Settles O35: the register holds its value with the two low halfwords exchanged, and only it is written. -/
theorem swapExchangesLowHalfwords : Obligations.SwapExchangesLowHalfwords := by
  intro s n
  refine ⟨_, rfl, ?_, ?_, ?_, fun i hi => setR_getR_ne _ _ _ _ hi, rfl, rfl, rfl, rfl, rfl,
    stepsPast_of_r rfl rfl rfl, cutShortFaults_of_r rfl, nibbleMustBeZero_of_r rfl⟩
  · rw [setR_getR_same, swapHalfwords_upper]
  · rw [setR_getR_same, swapHalfwords_middle]
  · rw [setR_getR_same, swapHalfwords_low]

/-- Settles O36: the register holds its value with the two halves exchanged, and only it is written. -/
theorem swapLExchangesHalves : Obligations.SwapLExchangesHalves := by
  intro s n
  refine ⟨_, rfl, ?_, ?_, fun i hi => setR_getR_ne _ _ _ _ hi, rfl, rfl, rfl, rfl, rfl,
    stepsPast_of_r rfl rfl rfl, cutShortFaults_of_r rfl, nibbleMustBeZero_of_r rfl⟩
  · rw [setR_getR_same, swapLongs_upper]
  · rw [setR_getR_same, swapLongs_lower]

end Sys2Proof.Machine
end

section
/-! PROOFS. A value written as bytes and read back (20_memory.md R41), and from it what a read of the place just written
gives (R47, R48). -/

namespace Sys2Proof.Machine

theorem leValue_leDigits (n v : Nat) : leValue (leDigits n v) = v % 256 ^ n := by
  induction n generalizing v with
  | zero => simp [leDigits, leValue, Nat.mod_one]
  | succ n ih => rw [leDigits, leValue, ih, Nat.pow_succ', Nat.mod_mul, BitVec.toNat_ofNat]

@[simp] theorem leOrder_leOrder (o : ByteOrder) (bs : List Byte) : leOrder o (leOrder o bs) = bs := by
  cases o with
  | little => rfl
  | big => exact List.reverse_reverse bs

theorem fromBytes_toBytes (o : ByteOrder) (n v : Nat) : fromBytes o (toBytes o n v) = v % 256 ^ n := by
  rw [fromBytes, toBytes, leOrder_leOrder, leValue_leDigits]

/-- The bytes of a value of some size read back as the value, under either order. -/
theorem ofNat_fromBytes_toBytes (o : ByteOrder) {sz : Size} (v : BitVec sz.bits) :
    BitVec.ofNat sz.bits (fromBytes o (toBytes o sz.bytes v.toNat)) = v := by
  rw [fromBytes_toBytes, ← two_pow_bits, Nat.mod_eq_of_lt v.isLt, BitVec.ofNat_toNat, BitVec.setWidth_eq]

/-- A read of the place just written gives the value written. -/
theorem poke_peek_same (s : State) (a : Addr) {sz : Size} (v : BitVec sz.bits) : (s.poke a sz v).peek a sz = v := by
  have hload := Memory.load_store (toBytes s.launch.config.byteOrder sz.bytes v.toNat) s.mem a.toNat
  rw [toBytes_length] at hload
  rw [State.peek, poke_mem, hload]
  exact ofNat_fromBytes_toBytes _ v

end Sys2Proof.Machine
end

section
/-! PROOFS. What the format `rd` makes of its register byte and its displacement field (R72, R74, R84, R86). -/

namespace Sys2Proof.Machine

open Sys2Proof.Claims

theorem takeReg_nibbles (off : Nat) (n : Reg) (rest : List Byte) : takeReg off (nibbles 0 n :: rest) = .ok n :=
  takeReg_ok.mpr ⟨_, rest, rfl, by simp, by simp⟩

/-- A field spelled in the machine's byte order is fetched as its value, whatever follows it. -/
theorem takeField_toBytes (c : Config) (off k v : Nat) (rest : List Byte) :
    takeField c off k (toBytes c.byteOrder k v ++ rest) = .ok (v % 256 ^ k) :=
  takeField_ok.mpr ⟨by simp, by rw [List.take_left' (toBytes_length ..), fromBytes_toBytes]⟩

theorem takeField_cut {c : Config} {k : Nat} {bs : List Byte} (off : Nat) (h : bs.length < k) :
    takeField c off k bs = .error (.pastEnd (off + bs.length)) :=
  if_neg (by omega)

section RegisterDisplacementFormat

variable {s t : State} {op : Byte} {mk : Reg → BitVec 32 → Instr} {n : Reg}

/-- Format `rd`: the step fetches the opcode, a register byte with a zero high nibble and the displacement. -/
theorem stepsPast_of_rd {disp : BitVec 32} (hop : formatOf op = some (.rd mk)) (hexec : exec (mk n disp) s = .next t)
    (hpc : t.pc = s.pc)
    (hf : Fetches s (op :: nibbles 0 n :: toBytes s.launch.config.byteOrder 4 disp.toNat)) : StepsPast s t 6 := by
  refine stepsPast_of_decode (fun rest => ?_) hexec hpc hf
  have hfield : takeField s.launch.config 2 4 (toBytes s.launch.config.byteOrder 4 disp.toNat ++ rest) =
      .ok disp.toNat := by rw [takeField_toBytes, Nat.mod_eq_of_lt (show disp.toNat < 256 ^ 4 from disp.isLt)]
  rw [List.cons_append, decode_cons, hop]
  simp [decodeOperands, takeReg_nibbles, hfield, bind, Except.bind]

/-- Format `rd` without its register byte. -/
theorem cutShortFaults_of_rd_opcode (hop : formatOf op = some (.rd mk)) : CutShortFaults s [op] := by
  apply cutShortFaults_of_decode
  rw [decode_cons, hop]
  rfl

/-- Format `rd` with only some of the displacement's four bytes. -/
theorem cutShortFaults_of_rd_field {field : List Byte} (hop : formatOf op = some (.rd mk)) (hlen : field.length < 4) :
    CutShortFaults s (op :: nibbles 0 n :: field) := by
  have hend : 2 + field.length = field.length + 1 + 1 := by omega
  apply cutShortFaults_of_decode
  rw [decode_cons, hop]
  simp [decodeOperands, takeReg_nibbles, takeField_cut 2 hlen, hend, bind, Except.bind]

/-- Format `rd` with a reserved nibble that is not zero (R86). -/
theorem nibbleMustBeZero_of_rd (hop : formatOf op = some (.rd mk)) : NibbleMustBeZero s op := by
  intro b rest hrun htext hb
  refine step_of_decode_error (e := .reservedBits b) hrun htext ?_
  rw [decode_cons, hop]
  simp [decodeOperands, takeReg_reserved rest hb, bind, Except.bind]

end RegisterDisplacementFormat

end Sys2Proof.Machine
end

section
/-! PROOFS. LINK and UNLK (46_link_unlk.md R191, R192): the registers, the slot and the fault of each, said once with
the cases in which `N` names `sp` itself. -/

namespace Sys2Proof.Machine

/-- `sp` after a write of any register, which may be `sp`'s own. -/
theorem setR_sp (s : State) (i : Reg) (v : Quad) : (s.setR i v).sp = if s.spIndex = i then v else s.sp :=
  setR_getR s i s.spIndex v

theorem setSp_getR (s : State) (i : Reg) (v : Quad) : (s.setSp v).getR i = if i = s.spIndex then v else s.getR i :=
  setR_getR s s.spIndex i v

@[simp] theorem setR_peek (s : State) (i : Reg) (v : Quad) (a : Addr) (sz : Size) :
    (s.setR i v).peek a sz = s.peek a sz := rfl

@[simp] theorem setSp_peek (s : State) (v : Quad) (a : Addr) (sz : Size) : (s.setSp v).peek a sz = s.peek a sz := rfl

/-! ## LINK -/

section Link

variable {n : Reg} {disp : BitVec 32} {s t : State}

theorem link_error {f : Fault} : link n disp s = .error f ↔ s.accessFault (s.sp - 8) 8 .write = some f := by
  have hslot : (s.setSp (s.sp - 8)).accessFault (s.sp - 8) 8 .write = s.accessFault (s.sp - 8) 8 .write :=
    accessFault_congr rfl _ _ _
  simp only [link, State.memWrite, setSp_sp, hslot]
  cases s.accessFault (s.sp - 8) 8 .write <;> simp [bind, Except.bind]

/-- The displacement is added last, so `sp` moves past the slot's address also where `N` is `sp`. -/
theorem link_getR (h : link n disp s = .ok t) (i : Reg) :
    t.getR i =
      if i = s.spIndex then s.sp - 8 + disp.signExtend 64 else if i = n then s.sp - 8 else s.getR i := by
  obtain ⟨_, rfl⟩ := link_ok.mp h
  by_cases hi : i = s.spIndex
  · simp [setSp_getR, setR_sp, hi]
  · simp [setSp_getR, setR_getR, hi]

/-- `sp` moves before the register is pushed, so `link sp` pushes the decremented `sp`. -/
theorem link_slot (h : link n disp s = .ok t) :
    t.peek (s.sp - 8) .q = if n = s.spIndex then s.sp - 8 else s.getR n := by
  obtain ⟨_, rfl⟩ := link_ok.mp h
  rw [setSp_peek, setR_peek, poke_peek_same, setSp_getR]

theorem link_get_outside (h : link n disp s = .ok t) {x : Nat} (hx : (Loc.mem (s.sp - 8)).misses 8 x) :
    t.mem.get x = s.mem.get x := by
  obtain ⟨_, rfl⟩ := link_ok.mp h
  exact poke_get_outside _ (s.sp - 8) .q _ x (hx _ rfl)

theorem link_fp (h : link n disp s = .ok t) : t.fp = s.fp := by
  obtain ⟨_, rfl⟩ := link_ok.mp h
  rfl

end Link

/-! ## UNLK -/

section Unlink

variable {n : Reg} {s t : State}

theorem unlink_error {f : Fault} : unlink n s = .error f ↔ s.accessFault (s.getR n) 8 .read = some f := by
  have hslot : (s.setSp (s.getR n)).accessFault (s.getR n) 8 .read = s.accessFault (s.getR n) 8 .read :=
    accessFault_congr rfl _ _ _
  simp only [unlink, State.memRead, setSp_sp, hslot]
  cases s.accessFault (s.getR n) 8 .read <;> simp [bind, Except.bind]

/-- `sp` is moved past the slot last, so `unlk sp` ends 8 above the popped quad and not above the slot. -/
theorem unlink_getR (h : unlink n s = .ok t) (i : Reg) :
    t.getR i =
      if i = s.spIndex then (if n = s.spIndex then s.peek (s.getR n) .q else s.getR n) + 8
      else if i = n then s.peek (s.getR n) .q else s.getR i := by
  obtain ⟨_, rfl⟩ := unlink_ok.mp h
  by_cases hi : i = s.spIndex
  · simp [setSp_getR, setR_sp, hi, eq_comm (a := n)]
  · simp [setSp_getR, setR_getR, hi]

theorem unlink_fp (h : unlink n s = .ok t) : t.fp = s.fp := by
  obtain ⟨_, rfl⟩ := unlink_ok.mp h
  rfl

theorem unlink_mem (h : unlink n s = .ok t) : t.mem = s.mem := by
  obtain ⟨_, rfl⟩ := unlink_ok.mp h
  rfl

end Unlink

/-! ## The obligations -/

/-- Settles O39: the slot's access decides between the completed `link` and its fault, and the six bytes decode only
whole and with a zero nibble. -/
theorem linkPushesAndAllocates : Obligations.LinkPushesAndAllocates := by
  intro s n disp
  refine ⟨fun hslot => ?_, fun f hf => finish_fault.mpr (link_error.mpr hf), fun k hk hk6 => ?_,
    nibbleMustBeZero_of_rd rfl⟩
  · obtain ⟨t, ht⟩ : ∃ t, link n disp s = .ok t := ⟨_, link_ok.mpr ⟨hslot, rfl⟩⟩
    obtain ⟨hpc, houtcome, hlaunch⟩ := link_same ht
    have hexec : exec (.link n disp) s = .next t := finish_next.mpr ht
    refine ⟨t, hexec, ?_, fun hn => ⟨?_, ?_⟩, fun hn => ?_, fun i hin hisp => ?_, link_fp ht,
      fun x => link_get_outside ht, hpc, houtcome, hlaunch, stepsPast_of_rd rfl hexec hpc⟩
    · rw [State.sp, State.spIndex, hlaunch]
      exact (link_getR ht _).trans (if_pos rfl)
    · rw [link_getR ht, if_neg hn, if_pos rfl]
    · rw [link_slot ht, if_neg hn]
    · rw [link_slot ht, if_pos hn]
    · rw [link_getR ht, if_neg hisp, if_neg hin]
  · match k with
    | 1 => exact cutShortFaults_of_rd_opcode rfl
    | j + 2 => exact cutShortFaults_of_rd_field rfl (by rw [List.length_take, toBytes_length]; omega)

/-- Settles O40: the slot's access decides between the completed `unlk` and its fault, and the two bytes decode only
whole and with a zero nibble. -/
theorem unlkPopsFrame : Obligations.UnlkPopsFrame := by
  intro s n
  refine ⟨fun hslot => ?_, fun f hf => finish_fault.mpr (unlink_error.mpr hf), cutShortFaults_of_r rfl,
    nibbleMustBeZero_of_r rfl⟩
  obtain ⟨t, ht⟩ : ∃ t, unlink n s = .ok t := ⟨_, unlink_ok.mpr ⟨hslot, rfl⟩⟩
  obtain ⟨hpc, houtcome, hlaunch⟩ := unlink_same ht
  have hexec : exec (.unlk n) s = .next t := finish_next.mpr ht
  have hsp : t.sp = (if n = s.spIndex then s.peek (s.getR n) .q else s.getR n) + 8 := by
    rw [State.sp, State.spIndex, hlaunch]
    exact (unlink_getR ht _).trans (if_pos rfl)
  refine ⟨t, hexec, fun hn => ⟨?_, ?_⟩, fun hn => ?_, fun i hin hisp => ?_, unlink_fp ht, unlink_mem ht, hpc,
    houtcome, hlaunch, stepsPast_of_r rfl hexec hpc⟩
  · rw [unlink_getR ht, if_neg hn, if_pos rfl]
  · rw [hsp, if_neg hn]
  · rw [hsp, if_pos hn, hn, State.sp]
  · rw [unlink_getR ht, if_neg hisp, if_neg hin]

end Sys2Proof.Machine
end

section
/-! PROOFS. Decoding that stops at the opcode byte (60_exceptions.md R206), and at an effective address that is no
stepping mode, before the mask is fetched (R203). -/

namespace Sys2Proof.Machine

/-! ## The opcode byte -/

/-- The opcode map has a hole nowhere in 0x4D to 0x6C and an entry nowhere else (R87, R88). -/
theorem formatOf_eq_none {op : Byte} : formatOf op = none ↔ op.toNat < 0x4D ∨ 0x6C < op.toNat := by
  unfold formatOf
  split
  case h_33 => simp only [true_iff, imp_false] at *; omega
  all_goals simp only [reduceCtorEq, false_iff]; omega

/-- Settles O7: the opcode map has no entry, and decoding looks at nothing else before it. -/
theorem opcodeOutOfGroupIsRefused : Obligations.OpcodeOutOfGroupIsRefused := by
  intro s op rest hrun htext hop
  refine step_of_decode_error (e := .opcodeOutOfGroup op) hrun htext ?_
  rw [decode_cons, formatOf_eq_none.mpr hop]

/-! ## The format of the multi-register transfers -/

/-- The opcode bytes of `savem`, `loadm`, `fsavem` and `floadm` have the format `em` (R87). -/
theorem formatOf_multi {op : Byte} (h : op = 0x51 ∨ op = 0x52 ∨ op = 0x61 ∨ op = 0x62) :
    ∃ mk, formatOf op = some (.em mk) := by
  obtain rfl | rfl | rfl | rfl := h
  · exact ⟨.savem, rfl⟩
  · exact ⟨.loadm, rfl⟩
  · exact ⟨.fsavem, rfl⟩
  · exact ⟨.floadm, rfl⟩

/-- Format `em` checks the shape as soon as the effective address is decoded, so the mask's offset and bytes do not
matter. -/
theorem decodeOperands_em_illegal {c : Config} {mk : EADesc → BitVec 16 → Instr} {bs : List Byte} {p : EADesc × Nat}
    (hea : takeEA c 1 bs = .ok p) (hshape : p.1.isStepping = false) :
    decodeOperands c (.em mk) bs = .error .illegalEAMode := by
  simp [decodeOperands, hea, hshape, bind, Except.bind]

/-- Settles O9: the effective address decodes within the text, and its shape is checked before the mask. -/
theorem illegalModeFaultsBeforeMask : Obligations.IllegalModeFaultsBeforeMask := by
  intro s op first ext ea extra hrun htext hop hcodec hfits hshape
  obtain ⟨mk, hformat⟩ := formatOf_multi hop
  have hea : takeEA s.launch.config 1 (first :: ext) = .ok (ea, 1 + extra) :=
    takeEA_ok.mpr ⟨first, ext, rfl, by simpa using hcodec, by simp, by simp; omega⟩
  refine step_of_decode_error (e := .illegalEAMode) hrun htext ?_
  rw [decode_cons, hformat]
  exact decodeOperands_em_illegal hea hshape

end Sys2Proof.Machine
end

section
/-! PROOFS. The decoder said once by formats (30_encoding.md R74, R87, R90): the operands an instruction carries, and
when bytes decode to an instruction; from it what every codec's decoding gives. -/

namespace Sys2Proof.Machine

/-! ## Instructions by their operands -/

/-- The operands of an instruction in byte-stream order, one constructor for each format (R74). -/
inductive Operands where
  | ds (d s : EADesc)
  | e (ea : EADesc)
  | em (ea : EADesc) (mask : BitVec 16)
  | rr (a b : Reg)
  | r (n : Reg)
  | rd (n : Reg) (disp : BitVec 32)

/-- The operands of an instruction, which with `opcodeOf` determine it (`formatOf_opcodeOf`). -/
def operandsOf : Instr → Operands
  | .moveB d s | .moveW d s | .moveL d s | .moveQ d s => .ds d s
  | .fmovebS d s | .fmovebD d s | .fmovewS d s | .fmovewD d s => .ds d s
  | .fmovelS d s | .fmovelD d s | .fmoveqS d s | .fmoveqD d s => .ds d s
  | .fmovesL d s | .fmovesQ d s | .fmovesD d s => .ds d s
  | .fmovedL d s | .fmovedQ d s | .fmovedS d s => .ds d s
  | .clrB ea | .clrW ea | .clrL ea | .clrQ ea => .e ea
  | .savem ea m | .loadm ea m | .fsavem ea m | .floadm ea m => .em ea m
  | .exg a b | .fexg a b => .rr a b
  | .swap n | .swapL n | .unlk n => .r n
  | .link n disp => .rd n disp

/-- The instruction a format builds from operands of its own kind. -/
inductive Builds : Format → Operands → Instr → Prop
  | ds {mk d s} : Builds (.ds mk) (.ds d s) (mk d s)
  | e {mk ea} : Builds (.e mk) (.e ea) (mk ea)
  | em {mk ea m} : Builds (.em mk) (.em ea m) (mk ea m)
  | rr {mk a b} : Builds (.rr mk) (.rr a b) (mk a b)
  | r {mk n} : Builds (.r mk) (.r n) (mk n)
  | rd {mk n disp} : Builds (.rd mk) (.rd n disp) (mk n disp)

/-- The opcode map sends the opcode of an instruction to the format that builds it from its operands. -/
theorem formatOf_opcodeOf (i : Instr) : ∃ f, formatOf (opcodeOf i) = some f ∧ Builds f (operandsOf i) i := by
  cases i with
  | savem | loadm | fsavem | floadm => exact ⟨_, rfl, .em⟩
  | clrB | clrW | clrL | clrQ => exact ⟨_, rfl, .e⟩
  | exg | fexg => exact ⟨_, rfl, .rr⟩
  | swap | swapL | unlk => exact ⟨_, rfl, .r⟩
  | link => exact ⟨_, rfl, .rd⟩
  | _ => exact ⟨_, rfl, .ds⟩

/-- What the opcode map's format of a byte builds has that opcode and those operands. -/
theorem opcodeOf_of_builds {op : Byte} {f : Format} {ops : Operands} {i : Instr} (hop : formatOf op = some f)
    (h : Builds f ops i) : opcodeOf i = op ∧ operandsOf i = ops := by
  unfold formatOf at hop
  split at hop
  case h_33 => cases hop
  all_goals
    rename_i hbyte
    cases hop
    cases h
    exact ⟨(BitVec.eq_of_toNat_eq hbyte).symm, rfl⟩

/-! ## When bytes decode -/

/-- The operands fetched from the text after the opcode byte, and the length of the instruction (R74, R75, R90). -/
inductive OperandsAt (c : Config) (bs : List Byte) : Operands → Nat → Prop
  | ds {p q : EADesc × Nat} : takeEA c 1 bs = .ok p → takeEA c (1 + p.2) (bs.drop p.2) = .ok q →
      p.1.isImm = false → OperandsAt c bs (.ds p.1 q.1) (1 + p.2 + q.2)
  | e {p : EADesc × Nat} : takeEA c 1 bs = .ok p → p.1.isImm = false → OperandsAt c bs (.e p.1) (1 + p.2)
  | em {p : EADesc × Nat} {m : Nat} : takeEA c 1 bs = .ok p → p.1.isStepping = true →
      takeField c (1 + p.2) 2 (bs.drop p.2) = .ok m → OperandsAt c bs (.em p.1 (BitVec.ofNat 16 m)) (3 + p.2)
  | rr {b : Byte} : takeByte 1 bs = .ok b → OperandsAt c bs (.rr (highNibble b) (lowNibble b)) 2
  | r {n : Reg} : takeReg 1 bs = .ok n → OperandsAt c bs (.r n) 2
  | rd {n : Reg} {v : Nat} : takeReg 1 bs = .ok n → takeField c 2 4 (bs.drop 1) = .ok v →
      OperandsAt c bs (.rd n (BitVec.ofNat 32 v)) 6

theorem bind_ok {ε α β : Type} {x : Except ε α} {g : α → Except ε β} {b : β} :
    x >>= g = .ok b ↔ ∃ a, x = .ok a ∧ g a = .ok b := by
  cases x <;> simp [bind, Except.bind]

theorem decodeOperands_ok {c : Config} {f : Format} {bs : List Byte} {i : Instr} {len : Nat} :
    decodeOperands c f bs = .ok (i, len) ↔ ∃ ops, Builds f ops i ∧ OperandsAt c bs ops len := by
  constructor
  · intro h
    cases f with
    | ds mk =>
      obtain ⟨p, hp, h⟩ := bind_ok.mp h
      obtain ⟨q, hq, h⟩ := bind_ok.mp h
      split at h
      · cases h
      · next himm => cases h; exact ⟨_, .ds, .ds hp hq (by simpa using himm)⟩
    | e mk =>
      obtain ⟨p, hp, h⟩ := bind_ok.mp h
      split at h
      · cases h
      · next himm => cases h; exact ⟨_, .e, .e hp (by simpa using himm)⟩
    | em mk =>
      obtain ⟨p, hp, h⟩ := bind_ok.mp h
      split at h
      · cases h
      · next hstep =>
        obtain ⟨m, hm, h⟩ := bind_ok.mp h
        cases h
        exact ⟨_, .em, .em hp (by simpa using hstep) hm⟩
    | rr mk =>
      obtain ⟨b, hb, h⟩ := bind_ok.mp h
      cases h
      exact ⟨_, .rr, .rr hb⟩
    | r mk =>
      obtain ⟨n, hn, h⟩ := bind_ok.mp h
      cases h
      exact ⟨_, .r, .r hn⟩
    | rd mk =>
      obtain ⟨n, hn, h⟩ := bind_ok.mp h
      obtain ⟨v, hv, h⟩ := bind_ok.mp h
      cases h
      exact ⟨_, .rd, .rd hn hv⟩
  · rintro ⟨ops, hb, ho⟩
    cases ho with
    | ds hp hq himm => cases hb; simp [decodeOperands, hp, hq, himm, bind, Except.bind]
    | e hp himm => cases hb; simp [decodeOperands, hp, himm, bind, Except.bind]
    | em hp hstep hm => cases hb; simp [decodeOperands, hp, hstep, hm, bind, Except.bind]
    | rr h => cases hb; simp [decodeOperands, h, bind, Except.bind]
    | r h => cases hb; simp [decodeOperands, h, bind, Except.bind]
    | rd hn hv => cases hb; simp [decodeOperands, hn, List.drop_one ▸ hv, bind, Except.bind]

/-- When bytes decode (R90): the first is the instruction's opcode and its operands stand after it. -/
theorem decode_ok {c : Config} {bs : List Byte} {i : Instr} {len : Nat} :
    decode c bs = .ok (i, len) ↔ ∃ rest, bs = opcodeOf i :: rest ∧ OperandsAt c rest (operandsOf i) len := by
  constructor
  · intro h
    cases bs with
    | nil => cases h
    | cons op rest =>
      rw [decode_cons] at h
      cases hop : formatOf op with
      | none => simp [hop] at h
      | some f =>
        rw [hop] at h
        obtain ⟨ops, hb, ho⟩ := decodeOperands_ok.mp h
        obtain ⟨rfl, rfl⟩ := opcodeOf_of_builds hop hb
        exact ⟨rest, rfl, ho⟩
  · rintro ⟨rest, rfl, ho⟩
    obtain ⟨f, hop, hb⟩ := formatOf_opcodeOf i
    rw [decode_cons, hop]
    exact decodeOperands_ok.mpr ⟨_, hb, ho⟩

/-! ## What every codec's decoding gives -/

/-- The shape checks of R89 by formats. -/
def Operands.wellFormed : Operands → Bool
  | .ds d _ => !d.isImm
  | .e ea => !ea.isImm
  | .em ea _ => ea.isStepping
  | .rr _ _ | .r _ | .rd _ _ => true

theorem wellFormed_operandsOf (i : Instr) : (operandsOf i).wellFormed = i.wellFormed := by cases i <;> rfl

theorem OperandsAt.wellFormed {c : Config} {bs : List Byte} {ops : Operands} {len : Nat}
    (h : OperandsAt c bs ops len) : ops.wellFormed = true := by
  cases h <;> simp_all [Operands.wellFormed]

/-- The operands fetched take at least one byte and lie within the text. -/
theorem OperandsAt.length {c : Config} {bs : List Byte} {ops : Operands} {len : Nat} (h : OperandsAt c bs ops len) :
    2 ≤ len ∧ len ≤ bs.length + 1 := by
  cases h with
  | ds hp hq _ =>
    obtain ⟨_, _, _, _, hp1, hp2⟩ := takeEA_ok.mp hp
    obtain ⟨_, _, _, _, hq1, hq2⟩ := takeEA_ok.mp hq
    rw [List.length_drop] at hq2
    omega
  | e hp _ =>
    obtain ⟨_, _, _, _, hp1, hp2⟩ := takeEA_ok.mp hp
    omega
  | em hp _ hm =>
    obtain ⟨_, _, _, _, hp1, hp2⟩ := takeEA_ok.mp hp
    have hm2 := (takeField_ok.mp hm).1
    rw [List.length_drop] at hm2
    omega
  | rr hb =>
    obtain ⟨_, rfl⟩ := takeByte_ok.mp hb
    simp
  | r hn =>
    obtain ⟨_, _, rfl, _⟩ := takeReg_ok.mp hn
    simp
  | rd hn hv =>
    have hv2 := (takeField_ok.mp hv).1
    rw [List.length_drop] at hv2
    omega

/-- Settles O3: the operands fetched pass the shape checks, take a byte at least and lie within the text. -/
theorem decodedInstructionIsWellFormedAndFits : Obligations.DecodedInstructionIsWellFormedAndFits := by
  intro c bs i len h
  obtain ⟨rest, rfl, ho⟩ := decode_ok.mp h
  exact ⟨(wellFormed_operandsOf i).symm.trans ho.wellFormed, ho.length⟩

/-- Settles O4: the first byte of bytes that decode is the instruction's opcode. -/
theorem opcodeByteSelectsInstruction : Obligations.OpcodeByteSelectsInstruction := by
  intro c op rest i len h
  obtain ⟨rest', hbytes, _⟩ := decode_ok.mp h
  exact (List.cons.inj hbytes).1.symm

end Sys2Proof.Machine
end

section
/-! PROOFS. The reference codec (30_encoding.md R79): its answer by the nibbles of the first byte, the bytes of a value
and back (20_memory.md R41), and that decoding and encoding of effective addresses are inverse. -/

namespace Sys2Proof.Machine

/-! ## Bytes to value and back -/

theorem toBytes_fromBytes (o : ByteOrder) (bs : List Byte) : toBytes o bs.length (fromBytes o bs) = bs := by
  refine List.ext_getElem (toBytes_length ..) fun k h1 h2 => ?_
  rw [toBytes_getElem, fromBytes_digit o h2]

/-- Settles O13: the value of a value's bytes is the value modulo what they hold, and a value's bytes are its digits. -/
theorem bytesAndValueAreInverse : Obligations.BytesAndValueAreInverse :=
  ⟨fun o n v hv => by rw [fromBytes_toBytes, Nat.mod_eq_of_lt hv], toBytes_fromBytes⟩

theorem fromBytes_lt_two_pow (o : ByteOrder) {bs : List Byte} {w : Nat} (h : 8 * bs.length = w) :
    fromBytes o bs < 2 ^ w := by
  rw [← h, Nat.pow_mul]
  exact fromBytes_lt o bs

/-- A field of `k` bytes read as a word of their width and spelled again is the field. -/
theorem toBytes_ofNat_fromBytes (o : ByteOrder) {w k : Nat} {bs : List Byte} (hk : bs.length = k) (hw : 8 * k = w) :
    toBytes o k (BitVec.ofNat w (fromBytes o bs)).toNat = bs := by
  rw [BitVec.toNat_ofNat, Nat.mod_eq_of_lt (fromBytes_lt_two_pow o (hk ▸ hw)), ← hk, toBytes_fromBytes]

/-- A word spelled in the bytes of its width and read again is the word. -/
theorem ofNat_mod_toNat {w k : Nat} (v : BitVec w) (hw : 8 * k = w) : BitVec.ofNat w (v.toNat % 256 ^ k) = v := by
  subst hw
  have hlt : v.toNat < 256 ^ k := by
    rw [show 256 = 2 ^ 8 from rfl, ← Nat.pow_mul]
    exact v.isLt
  rw [Nat.mod_eq_of_lt hlt, BitVec.ofNat_toNat, BitVec.setWidth_eq]

/-! ## The nibbles of a byte -/

theorem nibbles_of_byte (b : Byte) : nibbles (highNibble b) (lowNibble b) = b := by
  revert b
  decide

/-- A byte is spelled by its nibbles. -/
theorem nibbles_lowNibble {b : Byte} {h : Reg} (hb : (highNibble b).val = h.val) : nibbles h (lowNibble b) = b := by
  rw [← Fin.ext hb, nibbles_of_byte]

theorem highNibble_val (b : Byte) : (highNibble b).val = b.toNat / 16 := by
  revert b
  decide

/-! ## The answers of the reference codec -/

/-- Settles O5: the reference codec's answer is read off the two nibbles of the first byte. -/
theorem referenceCodecFollowsItsTable : Obligations.ReferenceCodecFollowsItsTable := by
  intro o i ext
  refine ⟨?_, ?_, ?_, ?_, ?_, ?_, ?_, ?_, fun h hh => ?_⟩
  case refine_9 =>
    rw [refEA, highNibble_nibbles]
    split
    case h_9 => rfl
    all_goals omega
  all_goals simp [refEA]

/-- The bytes 0x80 to 0xFF are modes without a meaning (R78, R79). -/
theorem refEA_of_ge {b : Byte} (h : 0x80 ≤ b.toNat) (o : ByteOrder) (ext : List Byte) :
    refEA o b ext = .unmodelled := by
  obtain ⟨_, _, _, _, _, _, _, _, hhigh⟩ := referenceCodecFollowsItsTable o (lowNibble b) ext
  have hnibble : 8 ≤ (highNibble b).val := by rw [highNibble_val]; omega
  rw [← hhigh _ hnibble, nibbles_of_byte]

/-- A displacement is spelled by its low 32 bits, from which the codec extends it (R79). -/
theorem setWidth_signExtend_disp (v : BitVec 32) : (v.signExtend 64).setWidth 32 = v := by
  refine BitVec.eq_of_getLsbD_eq fun j hj => ?_
  have hj64 : j < 64 := by omega
  rw [BitVec.getLsbD_setWidth, BitVec.getLsbD_signExtend]
  simp [hj, hj64]

/-- How many extension bytes the reference codec consumes is fixed by the first byte. -/
theorem refEA_extra {o : ByteOrder} {first : Byte} {ext : List Byte} {ea : EADesc} {extra : Nat}
    (h : refEA o first ext = .ok ea extra) (ext' : List Byte) : ∃ ea', refEA o first ext' = .ok ea' extra := by
  unfold refEA at h
  split at h
  case h_9 => cases h
  all_goals
    next hn =>
      obtain ⟨_, rfl⟩ := CodecAnswer.ok.inj h
      simp [refEA, hn]

/-- Spelling the shape the reference codec answers gives the bytes it has consumed. -/
theorem encodeEA_of_refEA {o : ByteOrder} {first : Byte} {ext : List Byte} {ea : EADesc} {extra : Nat}
    (h : refEA o first ext = .ok ea extra) (hfits : extra ≤ ext.length) :
    encodeEA o ea = some (first :: ext.take extra) := by
  unfold refEA at h
  split at h
  case h_9 => cases h
  case h_7 hn =>
    cases h
    have hdisp : toBytes o 4 (BitVec.ofNat 32 (fromBytes o (ext.take 4))).toNat = ext.take 4 :=
      toBytes_ofNat_fromBytes o (List.length_take_of_le hfits) rfl
    rw [encodeEA, setWidth_signExtend_disp, if_pos rfl, hdisp, nibbles_lowNibble hn]
  all_goals
    next hn =>
      cases h
      exact congrArg (fun b => some [b]) (nibbles_lowNibble hn)

/-- The reference codec reads a shape's spelling as the shape, whatever follows it. -/
theorem refEA_of_encodeEA {o : ByteOrder} {ea : EADesc} {eb : List Byte} (h : encodeEA o ea = some eb)
    (rest : List Byte) : ∃ first ext, eb = first :: ext ∧ refEA o first (ext ++ rest) = .ok ea ext.length := by
  cases ea with
  | imm => cases h
  | indDisp i d =>
    rw [encodeEA] at h
    split at h
    · next hd =>
      cases h
      have hval : BitVec.ofNat 32 (fromBytes o (toBytes o 4 (d.setWidth 32).toNat)) = d.setWidth 32 := by
        rw [fromBytes_toBytes]
        exact ofNat_mod_toNat _ rfl
      refine ⟨_, _, rfl, ?_⟩
      obtain ⟨_, _, _, _, _, _, hrow, _⟩ :=
        referenceCodecFollowsItsTable o i (toBytes o 4 (d.setWidth 32).toNat ++ rest)
      rw [hrow, List.take_left' (toBytes_length ..), hval, hd, toBytes_length]
    · cases h
  | _ => cases h; exact ⟨_, [], rfl, by simp [refEA]⟩

theorem refEncodable_iff {o : ByteOrder} {ea : EADesc} : ea.refEncodable = true ↔ ∃ eb, encodeEA o ea = some eb := by
  cases ea <;> simp [EADesc.refEncodable, encodeEA]

theorem isImm_of_encodeEA {o : ByteOrder} {ea : EADesc} {eb : List Byte} (h : encodeEA o ea = some eb) :
    ea.isImm = false := by
  cases ea with
  | imm => cases h
  | _ => rfl

/-! ## Effective addresses under the reference codec -/

section ReferenceEA

variable {c : Config} (hc : c.eaCodec = .ref)
include hc

theorem codecAnswer_ref (first : Byte) (ext : List Byte) :
    codecAnswer c first ext = some (refEA c.byteOrder first ext) := by
  rw [codecAnswer, hc]

/-- A spelled effective address decodes to itself, whatever follows it. -/
theorem takeEA_of_encodeEA {ea : EADesc} {eb : List Byte} (h : encodeEA c.byteOrder ea = some eb) (off : Nat)
    (rest : List Byte) : takeEA c off (eb ++ rest) = .ok (ea, eb.length) := by
  obtain ⟨first, ext, rfl, hread⟩ := refEA_of_encodeEA h rest
  exact takeEA_ok.mpr ⟨first, ext ++ rest, rfl, by simp [codecAnswer_ref hc, hread], by simp, by simp⟩

/-- An effective address that decodes is spelled by the bytes it has consumed. -/
theorem encodeEA_of_takeEA {off : Nat} {bs : List Byte} {p : EADesc × Nat} (h : takeEA c off bs = .ok p) :
    encodeEA c.byteOrder p.1 = some (bs.take p.2) := by
  obtain ⟨first, ext, rfl, ha, h1, hl⟩ := takeEA_ok.mp h
  rw [codecAnswer_ref hc, Option.some.injEq] at ha
  rw [List.length_cons] at hl
  obtain ⟨extra, hextra⟩ : ∃ extra, p.2 = extra + 1 := ⟨p.2 - 1, by omega⟩
  rw [hextra, Nat.add_sub_cancel] at ha
  rw [encodeEA_of_refEA ha (by omega), hextra, List.take_succ_cons]

/-- An effective address cut short is a fetch past its end (R71): at its first byte, or in the displacement. -/
theorem takeEA_cut {ea : EADesc} {eb : List Byte} (h : encodeEA c.byteOrder ea = some eb) (off : Nat) {j : Nat}
    (hj : j < eb.length) : takeEA c off (eb.take j) = .error (.pastEnd (off + j)) := by
  cases j with
  | zero => rfl
  | succ j =>
    obtain ⟨first, ext, rfl, hread⟩ := refEA_of_encodeEA h []
    rw [List.length_cons] at hj
    have hlen : (ext.take j).length = j := List.length_take_of_le (by omega)
    obtain ⟨ea', hcut⟩ := refEA_extra hread (ext.take j)
    rw [List.take_succ_cons, takeEA, codecAnswer_ref hc, hcut]
    simp only [hlen]
    rw [if_neg (by omega), Nat.add_assoc, Nat.add_comm 1 j]

/-- A first byte of 0x80 to 0xFF is a mode without a meaning, with its place and the byte (R78). -/
theorem takeEA_unmodelled {b : Byte} (hb : 0x80 ≤ b.toNat) (off : Nat) (rest : List Byte) :
    takeEA c off (b :: rest) = .error (.unmodelledEA off b) := by
  rw [takeEA, codecAnswer_ref hc, refEA_of_ge hb]

end ReferenceEA

end Sys2Proof.Machine
end

section
/-! PROOFS. Whole instructions under the reference codec (30_encoding.md R74, R79, R90): encode and decode are inverse,
and what a mode without a meaning and a text cut short give (60_exceptions.md R207, R210). -/

namespace Sys2Proof.Machine

open Sys2Proof.Claims

/-! ## The encoder by formats -/

/-- The bytes of an instruction's operands under the reference codec (R74). -/
def encodeOperands (o : ByteOrder) : Operands → Option (List Byte)
  | .ds d s => do
    let db ← encodeEA o d
    let sb ← encodeEA o s
    some (db ++ sb)
  | .e ea => encodeEA o ea
  | .em ea m => do
    let eb ← encodeEA o ea
    some (eb ++ toBytes o 2 m.toNat)
  | .rr a b => some [nibbles a b]
  | .r n => some [nibbles 0 n]
  | .rd n disp => some (nibbles 0 n :: toBytes o 4 disp.toNat)

theorem encodeDS_eq (o : ByteOrder) (op : Byte) (d s : EADesc) :
    encodeDS o op d s = (encodeOperands o (.ds d s)).map (op :: ·) := by
  cases hd : encodeEA o d <;> cases hs : encodeEA o s <;> simp [encodeDS, encodeOperands, hd, hs]

theorem encodeE_eq (o : ByteOrder) (op : Byte) (ea : EADesc) :
    encodeE o op ea = (encodeOperands o (.e ea)).map (op :: ·) := by
  cases he : encodeEA o ea <;> simp [encodeE, encodeOperands, he]

theorem encodeEM_eq (o : ByteOrder) (op : Byte) (ea : EADesc) (m : BitVec 16) :
    encodeEM o op ea m = (encodeOperands o (.em ea m)).map (op :: ·) := by
  cases he : encodeEA o ea <;> simp [encodeEM, encodeOperands, he]

/-- An instruction is spelled by its opcode and its operands (R70, R74). -/
theorem encode_eq (o : ByteOrder) (i : Instr) :
    encode o i = (encodeOperands o (operandsOf i)).map (opcodeOf i :: ·) := by
  cases i with
  | savem | loadm | fsavem | floadm => exact encodeEM_eq ..
  | clrB | clrW | clrL | clrQ => exact encodeE_eq ..
  | exg | fexg | swap | swapL | unlk | link => rfl
  | _ => exact encodeDS_eq ..

theorem encode_some {o : ByteOrder} {i : Instr} {bs : List Byte} :
    encode o i = some bs ↔ ∃ body, encodeOperands o (operandsOf i) = some body ∧ bs = opcodeOf i :: body := by
  rw [encode_eq, Option.map_eq_some_iff]
  simp only [eq_comm]

theorem encodeOperands_ds {o : ByteOrder} {d s : EADesc} {body : List Byte} :
    encodeOperands o (.ds d s) = some body ↔
      ∃ db sb, encodeEA o d = some db ∧ encodeEA o s = some sb ∧ body = db ++ sb := by
  cases hd : encodeEA o d <;> cases hs : encodeEA o s <;> simp [encodeOperands, hd, hs, eq_comm]

theorem encodeOperands_em {o : ByteOrder} {ea : EADesc} {m : BitVec 16} {body : List Byte} :
    encodeOperands o (.em ea m) = some body ↔
      ∃ eb, encodeEA o ea = some eb ∧ body = eb ++ toBytes o 2 m.toNat := by
  cases he : encodeEA o ea <;> simp [encodeOperands, he, eq_comm]

/-- Whether the reference codec spells the operands (R79). -/
def Operands.refEncodable : Operands → Bool
  | .ds d s => d.refEncodable && s.refEncodable
  | .e ea | .em ea _ => ea.refEncodable
  | .rr _ _ | .r _ | .rd _ _ => true

theorem refEncodable_operandsOf (i : Instr) : (operandsOf i).refEncodable = i.refEncodable := by cases i <;> rfl

theorem encodeOperands_of_refEncodable {ops : Operands} (h : ops.refEncodable = true) (o : ByteOrder) :
    ∃ body, encodeOperands o ops = some body := by
  cases ops with
  | ds d s =>
    obtain ⟨hd, hs⟩ := Bool.and_eq_true_iff.mp h
    obtain ⟨db, hdb⟩ := refEncodable_iff.mp hd
    obtain ⟨sb, hsb⟩ := refEncodable_iff.mp hs
    exact ⟨_, encodeOperands_ds.mpr ⟨db, sb, hdb, hsb, rfl⟩⟩
  | e ea => exact refEncodable_iff.mp h
  | em ea m =>
    obtain ⟨eb, heb⟩ := refEncodable_iff.mp h
    exact ⟨_, encodeOperands_em.mpr ⟨eb, heb, rfl⟩⟩
  | rr | r | rd => exact ⟨_, rfl⟩

/-! ## Decoding what was encoded -/

section ReferenceOperands

variable {c : Config} (hc : c.eaCodec = .ref) {ops : Operands}
include hc

theorem operandsAt_of_encodeOperands {body : List Byte} (hwf : ops.wellFormed = true)
    (h : encodeOperands c.byteOrder ops = some body) (rest : List Byte) :
    OperandsAt c (body ++ rest) ops (body.length + 1) := by
  cases ops with
  | ds d s =>
    obtain ⟨db, sb, hd, hs, rfl⟩ := encodeOperands_ds.mp h
    have hfirst := takeEA_of_encodeEA hc hd 1 (sb ++ rest)
    have hsecond := takeEA_of_encodeEA hc hs (1 + db.length) rest
    rw [← List.drop_left (l₁ := db) (l₂ := sb ++ rest)] at hsecond
    rw [List.append_assoc]
    convert OperandsAt.ds hfirst hsecond (isImm_of_encodeEA hd) using 1
    rw [List.length_append]
    omega
  | e ea =>
    convert OperandsAt.e (takeEA_of_encodeEA hc h 1 rest) (isImm_of_encodeEA h) using 1
    omega
  | em ea m =>
    obtain ⟨eb, he, rfl⟩ := encodeOperands_em.mp h
    have hfirst := takeEA_of_encodeEA hc he 1 (toBytes c.byteOrder 2 m.toNat ++ rest)
    have hmask := takeField_toBytes c (1 + eb.length) 2 m.toNat rest
    rw [← List.drop_left (l₁ := eb) (l₂ := toBytes c.byteOrder 2 m.toNat ++ rest)] at hmask
    have hat := OperandsAt.em hfirst hwf hmask
    rw [ofNat_mod_toNat (w := 16) m rfl] at hat
    rw [List.append_assoc]
    convert hat using 1
    rw [List.length_append, toBytes_length]
    omega
  | rr a b =>
    cases h
    have hat := OperandsAt.rr (c := c) (takeByte_ok.mpr ⟨rest, rfl⟩ : takeByte 1 (nibbles a b :: rest) = _)
    rwa [highNibble_nibbles, lowNibble_nibbles] at hat
  | r n =>
    cases h
    exact .r (takeReg_nibbles 1 n rest)
  | rd n disp =>
    cases h
    have hat := OperandsAt.rd (takeReg_nibbles 1 n (toBytes c.byteOrder 4 disp.toNat ++ rest))
      (takeField_toBytes c 2 4 disp.toNat rest)
    rw [ofNat_mod_toNat (w := 32) disp rfl] at hat
    rw [List.length_cons, toBytes_length]
    exact hat

/-- The bytes the operands were fetched from spell them. -/
theorem encodeOperands_of_operandsAt {bs : List Byte} {len : Nat} (h : OperandsAt c bs ops len) :
    encodeOperands c.byteOrder ops = some (bs.take (len - 1)) := by
  cases h with
  | @ds p q hp hq =>
    have hd := encodeEA_of_takeEA hc hp
    have hs := encodeEA_of_takeEA hc hq
    refine encodeOperands_ds.mpr ⟨_, _, hd, hs, ?_⟩
    rw [show 1 + p.2 + q.2 - 1 = p.2 + q.2 by omega, List.take_add]
  | @e p hp =>
    rw [Nat.add_sub_cancel_left]
    exact encodeEA_of_takeEA hc hp
  | @em p m hp hstep hm =>
    obtain ⟨hlen, rfl⟩ := takeField_ok.mp hm
    have hmask : toBytes c.byteOrder 2 (BitVec.ofNat 16 (fromBytes c.byteOrder ((bs.drop p.2).take 2))).toNat =
        (bs.drop p.2).take 2 := toBytes_ofNat_fromBytes _ (List.length_take_of_le hlen) rfl
    refine encodeOperands_em.mpr ⟨_, encodeEA_of_takeEA hc hp, ?_⟩
    rw [hmask, show 3 + p.2 - 1 = p.2 + 2 by omega, List.take_add]
  | rr hb =>
    obtain ⟨rest, rfl⟩ := takeByte_ok.mp hb
    exact congrArg (fun b => some [b]) (nibbles_of_byte _)
  | r hn =>
    obtain ⟨b, rest, rfl, hhigh, rfl⟩ := takeReg_ok.mp hn
    exact congrArg (fun b => some [b]) (nibbles_lowNibble (congrArg Fin.val hhigh))
  | rd hn hv =>
    obtain ⟨b, rest, rfl, hhigh, rfl⟩ := takeReg_ok.mp hn
    obtain ⟨hlen, rfl⟩ := takeField_ok.mp hv
    rw [List.drop_succ_cons, List.drop_zero] at hlen ⊢
    have hdisp : toBytes c.byteOrder 4 (BitVec.ofNat 32 (fromBytes c.byteOrder (rest.take 4))).toNat = rest.take 4 :=
      toBytes_ofNat_fromBytes _ (List.length_take_of_le hlen) rfl
    rw [encodeOperands, nibbles_lowNibble (congrArg Fin.val hhigh), hdisp]
    rfl

end ReferenceOperands

/-- The length of R75 is that of the encoding. -/
theorem length_of_encode {o : ByteOrder} {i : Instr} {bs : List Byte} (h : encode o i = some bs) :
    bs.length = refLen i := by
  cases i with
  | savem | loadm | fsavem | floadm => exact (Laws.EncodedLength.em h).1
  | clrB | clrW | clrL | clrQ => exact (Laws.EncodedLength.e h).1
  | exg | fexg | swap | swapL | unlk | link => cases h; simp [refLen]
  | _ => exact (Laws.EncodedLength.ds h).1

/-- Settles O1: the operands of a well-formed instruction are spelled after its opcode and decode there to
themselves. -/
theorem encodedInstructionDecodesToItself : Obligations.EncodedInstructionDecodesToItself := by
  intro c i rest hc hwf hrefEnc
  obtain ⟨body, hbody⟩ := encodeOperands_of_refEncodable ((refEncodable_operandsOf i).trans hrefEnc) c.byteOrder
  have hat := operandsAt_of_encodeOperands hc ((wellFormed_operandsOf i).trans hwf) hbody rest
  exact ⟨_, encode_some.mpr ⟨body, hbody, rfl⟩, decode_ok.mpr ⟨body ++ rest, rfl, hat⟩⟩

/-- Settles O2: the operands fetched are spelled by the bytes they were fetched from. -/
theorem decodedBytesAreTheEncoding : Obligations.DecodedBytesAreTheEncoding := by
  intro c bs i len hc h
  obtain ⟨_, hlen2, hfits⟩ := decodedInstructionIsWellFormedAndFits c bs i len h
  obtain ⟨rest, rfl, hat⟩ := decode_ok.mp h
  obtain ⟨n, rfl⟩ : ∃ n, len = n + 1 := ⟨len - 1, by omega⟩
  have henc : encode c.byteOrder i = some ((opcodeOf i :: rest).take (n + 1)) :=
    encode_some.mpr ⟨_, encodeOperands_of_operandsAt hc hat, rfl⟩
  refine ⟨henc, ?_, hfits⟩
  rw [← length_of_encode henc, List.length_take_of_le hfits]

/-- Settles O6: each word's opcode and operand bytes are those of the tables. -/
theorem sampleBytesDecodeAsTabulated : Obligations.SampleBytesDecodeAsTabulated :=
  ⟨by decide, by decide, by decide, by decide, by decide, by decide, by decide, by decide⟩

/-! ## Decoding that stops at an effective address -/

section DecodeErrors

variable {c : Config} {bs : List Byte} {err : DecodeError}

/-- Formats `ds`, `e` and `em` decode an effective address first, and its failure is theirs (R90). -/
theorem decodeOperands_first_error {f : Format} (hf : (∃ mk, f = .ds mk) ∨ (∃ mk, f = .e mk) ∨ ∃ mk, f = .em mk)
    (h : takeEA c 1 bs = .error err) : decodeOperands c f bs = .error err := by
  obtain ⟨mk, rfl⟩ | ⟨mk, rfl⟩ | ⟨mk, rfl⟩ := hf <;> simp [decodeOperands, h, bind, Except.bind]

/-- Format `ds` decodes the source after the destination, before any shape is checked (R90). -/
theorem decodeOperands_source_error {mk : EADesc → EADesc → Instr} {p : EADesc × Nat}
    (hp : takeEA c 1 bs = .ok p) (h : takeEA c (1 + p.2) (bs.drop p.2) = .error err) :
    decodeOperands c (.ds mk) bs = .error err := by
  simp [decodeOperands, hp, h, bind, Except.bind]

/-- Format `em` fetches the mask after a stepping mode (R90). -/
theorem decodeOperands_mask_error {mk : EADesc → BitVec 16 → Instr} {p : EADesc × Nat} (hp : takeEA c 1 bs = .ok p)
    (hstep : p.1.isStepping = true) (h : takeField c (1 + p.2) 2 (bs.drop p.2) = .error err) :
    decodeOperands c (.em mk) bs = .error err := by
  simp [decodeOperands, hp, hstep, h, bind, Except.bind]

/-- Format `rd` fetches the displacement after the register byte (R90). -/
theorem decodeOperands_disp_error {mk : Reg → BitVec 32 → Instr} {b : Byte} {n : Reg}
    (hn : takeReg 1 (b :: bs) = .ok n) (h : takeField c 2 4 bs = .error err) :
    decodeOperands c (.rd mk) (b :: bs) = .error err := by
  simp [decodeOperands, hn, h, bind, Except.bind]

end DecodeErrors

/-- The opcodes of the instructions with a source and a destination (R87). -/
theorem formatOf_two_operands {op : Byte}
    (h : (0x4D ≤ op.toNat ∧ op.toNat ≤ 0x50) ∨ (0x53 ≤ op.toNat ∧ op.toNat ≤ 0x60)) :
    ∃ mk, formatOf op = some (.ds mk) := by
  unfold formatOf
  obtain ⟨hlo, hhi⟩ | ⟨hlo, hhi⟩ := h
  · interval_cases op.toNat <;> exact ⟨_, rfl⟩
  · interval_cases op.toNat <;> exact ⟨_, rfl⟩

/-- The opcodes of the instructions with an effective address (R87). -/
theorem formatOf_effective_address {op : Byte} (hlo : 0x4D ≤ op.toNat) (hhi : op.toNat ≤ 0x66) :
    ∃ f, formatOf op = some f ∧ ((∃ mk, f = .ds mk) ∨ (∃ mk, f = .e mk) ∨ ∃ mk, f = .em mk) := by
  unfold formatOf
  interval_cases op.toNat <;> exact ⟨_, rfl, by simp⟩

/-- Settles O8: the first effective address and the source of format `ds` are decoded before anything is checked, and a
mode without a meaning stops the decoding there. -/
theorem unmodelledModeIsRefused : Obligations.UnmodelledModeIsRefused := by
  intro s op b rest hrun hc hb
  refine ⟨fun htext hlo hhi => ?_, fun d db hd htext hop => ?_⟩
  · obtain ⟨f, hformat, hf⟩ := formatOf_effective_address hlo hhi
    refine step_of_decode_error (e := .unmodelledEA 1 b) hrun htext ?_
    rw [decode_cons, hformat]
    exact decodeOperands_first_error hf (takeEA_unmodelled hc hb 1 rest)
  · obtain ⟨mk, hformat⟩ := formatOf_two_operands hop
    rw [List.cons_append] at htext
    refine step_of_decode_error (e := .unmodelledEA (1 + db.length) b) hrun htext ?_
    rw [decode_cons, hformat]
    refine decodeOperands_source_error (takeEA_of_encodeEA hc hd 1 (b :: rest)) ?_
    rw [List.drop_left]
    exact takeEA_unmodelled hc hb _ rest

/-! ## Instructions cut short -/

/-- Operands cut short by the end of the text are a fetch at the first missing byte (R71). -/
theorem decodeOperands_cut {c : Config} (hc : c.eaCodec = .ref) {f : Format} {ops : Operands} {i : Instr}
    {body : List Byte} (hb : Builds f ops i) (hwf : ops.wellFormed = true)
    (h : encodeOperands c.byteOrder ops = some body) {j : Nat} (hj : j < body.length) :
    decodeOperands c f (body.take j) = .error (.pastEnd (1 + j)) := by
  cases hb with
  | @ds mk d s =>
    obtain ⟨db, sb, hd, hs, rfl⟩ := encodeOperands_ds.mp h
    rw [List.length_append] at hj
    rcases Nat.lt_or_ge j db.length with hcut | hcut
    · rw [List.take_append_of_le_length hcut.le]
      exact decodeOperands_first_error (.inl ⟨mk, rfl⟩) (takeEA_cut hc hd 1 hcut)
    · obtain ⟨n, rfl⟩ : ∃ n, j = db.length + n := ⟨j - db.length, by omega⟩
      rw [List.take_length_add_append]
      refine decodeOperands_source_error (takeEA_of_encodeEA hc hd 1 (sb.take n)) ?_
      rw [List.drop_left, ← Nat.add_assoc]
      exact takeEA_cut hc hs _ (by omega)
  | @e mk ea => exact decodeOperands_first_error (.inr (.inl ⟨mk, rfl⟩)) (takeEA_cut hc h 1 hj)
  | @em mk ea m =>
    obtain ⟨eb, he, rfl⟩ := encodeOperands_em.mp h
    rw [List.length_append, toBytes_length] at hj
    rcases Nat.lt_or_ge j eb.length with hcut | hcut
    · rw [List.take_append_of_le_length hcut.le]
      exact decodeOperands_first_error (.inr (.inr ⟨mk, rfl⟩)) (takeEA_cut hc he 1 hcut)
    · obtain ⟨n, rfl⟩ : ∃ n, j = eb.length + n := ⟨j - eb.length, by omega⟩
      have hlen : ((toBytes c.byteOrder 2 m.toNat).take n).length = n :=
        List.length_take_of_le (by rw [toBytes_length]; omega)
      rw [List.take_length_add_append]
      refine decodeOperands_mask_error (takeEA_of_encodeEA hc he 1 _) hwf ?_
      rw [List.drop_left, takeField_cut _ (by omega), hlen, Nat.add_assoc]
  | rr =>
    cases h
    obtain rfl : j = 0 := by simpa using hj
    rfl
  | r =>
    cases h
    obtain rfl : j = 0 := by simpa using hj
    rfl
  | @rd mk n disp =>
    cases h
    rw [List.length_cons, toBytes_length] at hj
    cases j with
    | zero => rfl
    | succ j =>
      have hlen : ((toBytes c.byteOrder 4 disp.toNat).take j).length = j :=
        List.length_take_of_le (by rw [toBytes_length]; omega)
      refine decodeOperands_disp_error (takeReg_nibbles 1 n _) ?_
      rw [takeField_cut _ (by omega), hlen, Nat.add_comm j 1, ← Nat.add_assoc]

/-- Settles O10: the opcode byte is there, and the operands cut short are a fetch at the first missing byte. -/
theorem truncatedInstructionFaults : Obligations.TruncatedInstructionFaults := by
  intro s i bs k hrun hc hwf henc hk hlen htext
  obtain ⟨body, hbody, rfl⟩ := encode_some.mp henc
  obtain ⟨j, rfl⟩ : ∃ j, k = j + 1 := ⟨k - 1, by omega⟩
  rw [List.length_cons] at hlen
  rw [List.take_succ_cons] at htext
  obtain ⟨f, hop, hb⟩ := formatOf_opcodeOf i
  refine step_of_decode_error (e := .pastEnd (j + 1)) hrun htext ?_
  rw [decode_cons, hop, Nat.add_comm]
  exact decodeOperands_cut hc hb ((wellFormed_operandsOf i).trans hwf) hbody (by omega)

end Sys2Proof.Machine
end

section
/-! PROOFS. The machine's invariant and its runs (70_reset_and_hazards.md R234): every step keeps the invariant, moves
`pc` by the length of the decoded instruction, and a run stops within half as many steps as bytes are left. -/

namespace Sys2Proof.Machine

open Sys2Proof.Claims

/-! ## Where the decoded instruction ends -/

/-- The text from `pc` on reaches to the end of the program text. -/
theorem textAt_length {s : State} (h : s.pcInText) : s.textAt.length = s.launch.codeEnd - s.pc.toNat := by
  obtain ⟨hlo, hhi⟩ := h
  rw [State.textAt, if_neg (by omega), List.length_drop]
  rw [Launch.codeEnd] at hhi ⊢
  omega

/-- The instruction decoded at `pc` is at least 2 bytes long and ends within the program text (R75, R233). -/
theorem decodeAt_fits {s : State} (h : s.pcInText) {i : Instr} {len : Nat} (hdec : s.decodeAt = .ok (i, len)) :
    2 ≤ len ∧ s.pc.toNat + len ≤ s.launch.codeEnd := by
  obtain ⟨_, hlen, hfits⟩ := decodedInstructionIsWellFormedAndFits _ _ _ _ hdec
  have htext := textAt_length h
  omega

/-- Advancing `pc` past the decoded instruction does not wrap around, the launch being one R233 allows. -/
theorem advance_toNat {s : State} (hwf : s.launch.wf) (h : s.pcInText) {i : Instr} {len : Nat}
    (hdec : s.decodeAt = .ok (i, len)) : (s.pc + BitVec.ofNat 64 len).toNat = s.pc.toNat + len := by
  obtain ⟨_, hfits⟩ := decodeAt_fits h hdec
  rw [Launch.wf] at hwf
  rw [BitVec.toNat_add, BitVec.toNat_ofNat]
  omega

/-! ## The step of a running machine -/

/-- What a completed step of a running machine before the end of its text is (R28, R234). -/
theorem step_running {s t : State} (hrun : s.outcome = .running) (hpc : s.pc.toNat ≠ s.launch.codeEnd) :
    step s = .next t ↔ ∃ i len u, s.decodeAt = .ok (i, len) ∧ exec i s = .next u ∧ t = u.advance len := by
  rw [step_next]
  simp [hrun, hpc]

/-- Settles O52: the step decodes an instruction, whose effect leaves `pc` and is followed by the advance. -/
theorem stepAdvancesPcByLength : Obligations.StepAdvancesPcByLength := by
  intro s t hrun hpc h
  obtain ⟨i, len, u, hdec, hexec, rfl⟩ := (step_running hrun hpc).mp h
  obtain ⟨hupc, _, _⟩ := exec_same hexec
  obtain ⟨_, hlen, _⟩ := decodedInstructionIsWellFormedAndFits _ _ _ _ hdec
  refine ⟨i, len, hdec, hlen, ?_, ?_⟩
  · rw [advance_pc, hupc]
  · rw [hexec, ← hupc]
    rfl

/-- Settles O57: an ended run stays, a run ends at the end of the text, and an instruction that runs ends within the
text, writes neither outcome nor launch and stores at admitted addresses only. -/
theorem stepKeepsMachineInvariant : Obligations.StepKeepsMachineInvariant := by
  intro s t hinv h
  obtain ⟨_, rfl⟩ | ⟨_, hend, rfl⟩ | ⟨hrun, _, i, len, u, hdec, hexec, rfl⟩ := step_next.mp h
  · exact hinv
  · exact ⟨hinv.launchWf, hinv.pcInText, hinv.memWf, hinv.memInValid, fun _ => hend⟩
  · obtain ⟨hupc, houtcome, hlaunch⟩ := exec_same hexec
    obtain ⟨hwf, hvalid⟩ := exec_memOk ⟨hinv.memWf, hinv.memInValid⟩ hexec
    have hpc : (u.advance len).pc.toNat = s.pc.toNat + len := by
      rw [advance_pc, hupc, advance_toNat hinv.launchWf hinv.pcInText hdec]
    obtain ⟨_, hfits⟩ := decodeAt_fits hinv.pcInText hdec
    obtain ⟨hlo, _⟩ := hinv.pcInText
    refine ⟨hlaunch ▸ hinv.launchWf, ?_, hwf, hvalid, fun hended => ?_⟩
    · rw [State.pcInText, hpc, advance_launch, hlaunch]
      omega
    · rw [advance_outcome, houtcome, hrun] at hended
      cases hended

/-! ## Runs -/

theorem hostRun_succ {M : Host.Core} {s t : M.State} {k : Nat} :
    M.run (k + 1) s = .next t ↔ ∃ u, M.step s = .next u ∧ M.run k u = .next t := by
  rw [Host.Core.run]
  cases M.step s <;> simp

/-- One step more of a run is a step and the rest of the run. -/
theorem run_succ {s t : State} {k : Nat} :
    Host.Core.run core (k + 1) s = .next t ↔ ∃ u : State, step s = .next u ∧ Host.Core.run core k u = .next t :=
  hostRun_succ

/-- The steps of an ended run leave it as it is (R234). -/
theorem run_of_ended {s t : State} (h : s.outcome = .ended) {k : Nat} (hk : Host.Core.run core k s = .next t) :
    t = s := by
  induction k with
  | zero => cases hk; rfl
  | succ k ih =>
    obtain ⟨u, hstep, hu⟩ := run_succ.mp hk
    obtain rfl : u = s := by simpa [h] using step_next.mp hstep
    exact ih hu

/-- A run with more steps to go than half the bytes left ends at the end of its text: each step before that moves `pc`
by 2 bytes at least. -/
theorem run_ends {k : Nat} {s t : State} (hinv : s.Inv) (hrun : s.outcome = .running)
    (hk : (s.launch.codeEnd - s.pc.toNat) / 2 < k) (h : Host.Core.run core k s = .next t) :
    t.finished ∧ t.pc.toNat = t.launch.codeEnd := by
  induction k generalizing s with
  | zero => omega
  | succ k ih =>
    obtain ⟨u, hstep, h⟩ := run_succ.mp h
    by_cases hend : s.pc.toNat = s.launch.codeEnd
    · obtain rfl : u = { s with outcome := .ended } := by
        simpa [hrun, hend] using step_next.mp hstep
      obtain rfl := run_of_ended rfl h
      exact ⟨rfl, hend⟩
    · have hu := stepKeepsMachineInvariant s u hinv hstep
      obtain ⟨i, len, v, hdec, hexec, rfl⟩ := (step_running hrun hend).mp hstep
      obtain ⟨hvpc, houtcome, hlaunch⟩ := exec_same hexec
      obtain ⟨hlen, hfits⟩ := decodeAt_fits hinv.pcInText hdec
      refine ih hu (houtcome.trans hrun) ?_ h
      rw [advance_launch, hlaunch, advance_pc, hvpc, advance_toNat hinv.launchWf hinv.pcInText hdec]
      omega

/-- Settles O60: the steps given are more than half the bytes left. -/
theorem runStopsWithinHalfTheText : Obligations.RunStopsWithinHalfTheText :=
  fun _ _ hinv hrun h => run_ends hinv hrun (Nat.lt_succ_self _) h

/-! ## The rest of a step -/

/-- No instruction of the group is refused once it is decoded. -/
theorem exec_ne_refused (i : Instr) (s : State) (q : Refusal) : exec i s ≠ .refused q := by
  cases i with
  | exg | fexg | swap | swapL => exact nofun
  | _ => exact finish_refused

/-- Settles O51: with the bytes decoded, the step is the effect followed by the advance, or its fault. -/
theorem stepRunsDecodedInstruction : Obligations.StepRunsDecodedInstruction := by
  intro s i len hrun hpc hdec
  refine ⟨fun t ht => ?_, fun f hf => ?_, exec_ne_refused i s⟩
  · obtain ⟨htpc, _, _⟩ := exec_same ht
    refine (step_running hrun hpc).mpr ⟨i, len, t, hdec, ht, ?_⟩
    rw [State.advance, htpc]
  · simp [step, hrun, hpc, hdec, runInstr, hf]

/-- Settles O11: a failed decoding stops the run, and each failure has its own name there. -/
theorem decodeFailureStopsByName : Obligations.DecodeFailureStopsByName := by
  intro s e hrun hpc hdec
  have hstop : step s = decodeStop s.pc e := by simp [step, hrun, hpc, hdec]
  rw [hstop]
  cases e <;> rfl

/-- Settles O53: at the end of the text the step is the ending one of the three. -/
theorem runEndsAtCodeEnd : Obligations.RunEndsAtCodeEnd :=
  fun _ hrun hend => step_next.mpr (.inr (.inl ⟨hrun, hend, rfl⟩))

/-- Settles O54: a stopped run steps to its own stop, and a fault or refusal is kept as the outcome. -/
theorem stoppedRunStaysStopped : Obligations.StoppedRunStaysStopped := by
  refine ⟨fun s hs => ?_, fun s f hf => ?_, fun s q hq => ?_⟩
  · cases ho : s.outcome with
    | running => exact absurd ho hs
    | ended => simp [runStep, step, ho, State.record]
    | faulted f =>
      have hstep : step s = .fault f := by simp [step, ho]
      rw [runStep, hstep, State.record, ← ho]
    | refused q =>
      have hstep : step s = .refused q := by simp [step, ho]
      rw [runStep, hstep, State.record, ← ho]
  · rw [runStep, hf, State.record]
  · rw [runStep, hq, State.record]

/-! ## Reset -/

/-- Settles O59: reset takes `pc` from the launch and leaves the run running. -/
theorem resetStartsRunningAtCodeBase : Obligations.ResetStartsRunningAtCodeBase := ⟨rfl, rfl⟩

/-- Settles O58: the text is empty at address 0, where `pc` is; memory lists nothing; the run has not ended. -/
theorem resetHasMachineInvariant : Obligations.ResetHasMachineInvariant where
  launchWf := Nat.zero_le _
  pcInText := ⟨le_refl _, le_refl _⟩
  memWf := reset_mem_wf
  memInValid := nofun
  endedAtEnd := nofun

end Sys2Proof.Machine
end

section
/-! PROOFS. Reads and writes of memory and registers taken apart: which accesses are admitted (20_memory.md R46), what a
read of the place just written gives, whole and by pieces (R42, R47, R48), and the bits of a register operand
(10_state.md R21, R25). -/

namespace Sys2Proof.Machine

/-! ## Admitted accesses -/

theorem valid_iff {l : Launch} {a : Nat} :
    l.valid a = true ↔ ∃ g ∈ l.memValid, g.first.toNat ≤ a ∧ a ≤ g.last.toNat := by
  simp [Launch.valid, AddrRange.contains]

/-- Settles O14: an access is admitted where it ends within the address space and each address is in a valid range. -/
theorem accessIsAdmittedOnValidAddresses : Obligations.AccessIsAdmittedOnValidAddresses := by
  intro l a n
  simp only [admitted_iff, valid_iff]

/-- An access that meets no fault ends within the address space. -/
theorem accessFault_end {s : State} {a : Addr} {n : Nat} {kind : AccessKind} (h : s.accessFault a n kind = none) :
    a.toNat + n ≤ 2 ^ 64 := ((admitted_iff _ _ _).mp ((accessFault_none_iff _ _ _ _).mp h).2).1

theorem offset_toNat {a : Addr} {k n : Nat} (h : a.toNat + n ≤ 2 ^ 64) (hk : k < n) :
    (a + BitVec.ofNat 64 k).toNat = a.toNat + k := by
  rw [BitVec.toNat_add, BitVec.toNat_ofNat]
  omega

/-- An access of `m` bytes at a multiple of `m` inside an access that meets no fault meets none (R43, R46). -/
theorem accessFault_inside {s : State} {a : Addr} {n m k : Nat} {kind kind' : AccessKind}
    (h : s.accessFault a n kind = none) (hm : 0 < m) (hmn : m ∣ n) (hmk : m ∣ k) (hk : k + m ≤ n) :
    s.accessFault (a + BitVec.ofNat 64 k) m kind' = none := by
  obtain ⟨halign, hadm⟩ := (accessFault_none_iff _ _ _ _).mp h
  obtain ⟨hend, hvalid⟩ := (admitted_iff _ _ _).mp hadm
  have hk' : (a + BitVec.ofNat 64 k).toNat = a.toNat + k := offset_toNat hend (by omega)
  refine (accessFault_none_iff _ _ _ _).mpr ⟨fun hpolicy => ?_, (admitted_iff _ _ _).mpr ⟨?_, fun j hj => ?_⟩⟩
  · have ha : m ∣ a.toNat := hmn.trans (Nat.dvd_of_mod_eq_zero (halign hpolicy))
    rw [hk']
    exact Nat.mod_eq_zero_of_dvd (Nat.dvd_add ha hmk)
  · omega
  · rw [hk', Nat.add_assoc]
    exact hvalid (k + j) (by omega)

/-! ## Reading what was written -/

/-- Settles O17: a read meets no fault where the write met none, and reads the value written. -/
theorem readAfterWriteGivesTheValue : Obligations.ReadAfterWriteGivesTheValue := by
  intro s t a sz v h
  obtain ⟨hfault, rfl⟩ := memWrite_ok.mp h
  refine memRead_ok.mpr ⟨?_, (poke_peek_same s a v).symm⟩
  rw [accessFault_congr (poke_launch s a sz v)]
  exact (accessFault_kind _ _ _ _ _).mp hfault

/-- A value is determined by its bytes. -/
theorem eq_of_bytes {n : Nat} {v w : BitVec (8 * n)}
    (h : ∀ k < n, v.extractLsb' (8 * k) 8 = w.extractLsb' (8 * k) 8) : v = w := by
  refine BitVec.eq_of_getLsbD_eq fun j hj => ?_
  have hbit := congrArg (fun b : Byte => b.getLsbD (j % 8)) (h (j / 8) (by omega))
  have hlt : j % 8 < 8 := Nat.mod_lt _ (by omega)
  simpa [BitVec.getLsbD_extractLsb', hlt, Nat.div_add_mod] using hbit

/-- The digits' places are the same in either direction. -/
theorem digitAt_digitAt (o : ByteOrder) {n k : Nat} (hk : k < n) :
    digitAt o n (digitAt o n k) = k ∧ digitAt o n k < n := by
  cases o with
  | little => exact ⟨rfl, hk⟩
  | big => simp only [digitAt]; omega

/-- A read whose bytes are those of `v` reads `v` (R41, R47). -/
theorem peek_eq {s : State} {a : Addr} {sz : Size} {v : BitVec sz.bits}
    (h : ∀ k < sz.bytes, s.mem.get (a.toNat + k) =
      v.extractLsb' (8 * digitAt s.launch.config.byteOrder sz.bytes k) 8) : s.peek a sz = v := by
  have hbytes : ∀ k < sz.bytes, (s.peek a sz).extractLsb' (8 * k) 8 = v.extractLsb' (8 * k) 8 := by
    intro k hk
    obtain ⟨hinv, hlt⟩ := digitAt_digitAt s.launch.config.byteOrder hk
    have hbyte := peek_byte s a hlt
    rwa [h _ hlt, hinv] at hbyte
  cases sz <;> exact eq_of_bytes hbytes

section Pieces

variable {s t : State} {a : Addr} {v : Quad}

/-- A byte read inside a quad just written gives the byte there. -/
theorem memRead_byte_of_quad (h : s.memWrite a .q v = .ok t) {k : Nat} (hk : k < 8) :
    t.memRead (a + BitVec.ofNat 64 k) .b = .ok (v.extractLsb' (8 * digitAt s.launch.config.byteOrder 8 k) 8) := by
  obtain ⟨hfault, rfl⟩ := memWrite_ok.mp h
  have hend : a.toNat + 8 ≤ 2 ^ 64 := accessFault_end hfault
  refine memRead_ok.mpr ⟨?_, (peek_eq (sz := .b) fun j (hj : j < 1) => ?_).symm⟩
  · rw [accessFault_congr (poke_launch s a .q v)]
    exact accessFault_inside hfault Nat.one_pos (one_dvd 8) (one_dvd k) hk
  · obtain rfl : j = 0 := by simpa using hj
    have hdigit : digitAt s.launch.config.byteOrder 1 0 = 0 := by cases s.launch.config.byteOrder <;> rfl
    rw [offset_toNat hend hk, Nat.add_zero, poke_get_inside s a (sz := .q) v hk, poke_launch, hdigit]
    simp

/-- The bytes of a long inside a quad are four of the quad's. -/
theorem extractLsb'_long (v : Quad) {i j : Nat} (hj : j < 4) :
    (v.extractLsb' (8 * i) 32).extractLsb' (8 * j) 8 = v.extractLsb' (8 * (i + j)) 8 := by
  refine BitVec.eq_of_getLsbD_eq fun b hb => ?_
  have hbit : 8 * j + b < 32 := by omega
  simp only [BitVec.getLsbD_extractLsb', hb, hbit, decide_true, Bool.true_and]
  congr 1
  omega

/-- A long read four bytes into a quad just written gives the four bytes of the quad that stand there, from its byte `i`
upward. -/
theorem memRead_long_of_quad (h : s.memWrite a .q v = .ok t) {i : Nat}
    (hi : ∀ j < 4, i + digitAt s.launch.config.byteOrder 4 j = digitAt s.launch.config.byteOrder 8 (4 + j)) :
    t.memRead (a + 4) .l = .ok (v.extractLsb' (8 * i) 32) := by
  obtain ⟨hfault, rfl⟩ := memWrite_ok.mp h
  have hend : a.toNat + 8 ≤ 2 ^ 64 := accessFault_end hfault
  refine memRead_ok.mpr ⟨?_, (peek_eq (sz := .l) fun j (hj : j < 4) => ?_).symm⟩
  · rw [accessFault_congr (poke_launch s a .q v)]
    exact accessFault_inside (k := 4) hfault (Nat.succ_pos 3) (by decide) (by decide) (by decide)
  · obtain ⟨_, hdigit⟩ := digitAt_digitAt s.launch.config.byteOrder hj
    have hoff : (a + 4).toNat = a.toNat + 4 := offset_toNat (k := 4) hend (by decide)
    rw [hoff, Nat.add_assoc, poke_get_inside s a (sz := .q) v (show 4 + j < 8 by omega),
      poke_launch, extractLsb'_long v hdigit, hi j hj]

end Pieces

/-- Settles O18: each piece read is admitted inside the quad and has the quad's bytes there. -/
theorem storedQuadReadsBackByPieces : Obligations.StoredQuadReadsBackByPieces := by
  intro s t a v h
  refine ⟨fun horder => ⟨fun k hk => ?_, ?_⟩, fun horder => ⟨fun k hk => ?_, ?_⟩⟩
  · rw [memRead_byte_of_quad h hk, horder, digitAt]
  · exact memRead_long_of_quad h (i := 4) fun j _ => by rw [horder, digitAt, digitAt]
  · rw [memRead_byte_of_quad h hk, horder, digitAt, show 8 * (8 - 1 - k) = 56 - 8 * k by omega]
  · exact memRead_long_of_quad h (i := 0) fun j _ => by rw [horder, digitAt, digitAt]; omega

/-! ## Narrow registers -/

theorem insertLow_getLsbD (sz : Size) (old : Quad) (v : BitVec sz.bits) {j : Nat} (hj : j < 64) :
    (insertLow sz old v).getLsbD j = if j < sz.bits then v.getLsbD j else old.getLsbD j := by
  have hupper : sz.bits ≤ j → sz.bits + (j - sz.bits) = j := fun h => by omega
  simp only [insertLow, BitVec.getLsbD_or, BitVec.getLsbD_shiftLeft, BitVec.getLsbD_ushiftRight,
    BitVec.getLsbD_setWidth, hj, decide_true, Bool.true_and]
  split_ifs with hlow
  · simp [hlow]
  · rw [hupper (by omega), BitVec.getLsbD_of_ge v j (by omega)]
    simp [hlow]

/-- Settles O20: a write inserts its low bits, a read cuts the register to them. -/
theorem narrowRegisterWriteKeepsUpperBits : Obligations.NarrowRegisterWriteKeepsUpperBits := by
  intro s i sz v j hj
  refine ⟨?_, ?_, ?_, ?_⟩
  · rw [State.withValueAt, setR_getR_same, insertLow_getLsbD sz _ v hj]
  · rw [State.withValueAt, setFp_getFp_same, insertLow_getLsbD sz _ v hj]
  · rw [State.valueAt, BitVec.getLsbD_setWidth]
  · rw [State.valueAt, BitVec.getLsbD_setWidth]

/-- Settles O19: the nine rows of the table. -/
theorem resolveGivesLocationAndStep : Obligations.ResolveGivesLocationAndStep := by
  intro s i n d v
  exact ⟨⟨rfl, rfl⟩, ⟨rfl, rfl⟩, ⟨rfl, rfl⟩, ⟨rfl, rfl⟩, ⟨rfl, rfl⟩, ⟨rfl, rfl⟩, ⟨rfl, rfl⟩, ⟨rfl, rfl⟩, ⟨rfl, rfl⟩⟩

end Sys2Proof.Machine
end

section
/-! PROOFS. MOVE, CLR and the conversions (40_move.md R110, 42_fmove_convert.md R133, 44_clr.md R170): completion, frame
and faults, each said once of the shared operation and then read off for every instruction that runs it. -/

namespace Sys2Proof.Machine

open Sys2Proof.Claims

/-! ## Completion -/

/-- An instruction that runs a transfer completes as the transfer does (R110, R133). -/
theorem transfersValue_of {mk : EADesc → EADesc → Instr} {ss ds : Size}
    {f : State → BitVec ss.bits → BitVec ds.bits}
    (hexec : ∀ d e s, exec (mk d e) s = finish (transfer ss ds (f s) d e s)) : TransfersValue mk ss ds f := by
  intro s d e ⟨himm, hread, hwrite⟩
  rw [hexec, finish_next]
  exact transfer_ok.mpr ⟨himm, hread, hwrite, rfl⟩

/-- Settles O21: each move is a transfer of the value as it is. -/
theorem moveCompletesWithCopiedValue : Obligations.MoveCompletesWithCopiedValue :=
  ⟨transfersValue_of fun _ _ _ => rfl, transfersValue_of fun _ _ _ => rfl, transfersValue_of fun _ _ _ => rfl,
    transfersValue_of fun _ _ _ => rfl⟩

/-- Settles O23: each conversion of an integer is a transfer of the converted value. -/
theorem integerToFloatCompletes : Obligations.IntegerToFloatCompletes :=
  ⟨transfersValue_of fun _ _ _ => rfl, transfersValue_of fun _ _ _ => rfl, transfersValue_of fun _ _ _ => rfl,
    transfersValue_of fun _ _ _ => rfl, transfersValue_of fun _ _ _ => rfl, transfersValue_of fun _ _ _ => rfl,
    transfersValue_of fun _ _ _ => rfl, transfersValue_of fun _ _ _ => rfl⟩

/-- Settles O24: each conversion of a single or double is a transfer of the converted value. -/
theorem floatConversionCompletes : Obligations.FloatConversionCompletes :=
  ⟨transfersValue_of fun _ _ _ => rfl, transfersValue_of fun _ _ _ => rfl, transfersValue_of fun _ _ _ => rfl,
    transfersValue_of fun _ _ _ => rfl, transfersValue_of fun _ _ _ => rfl, transfersValue_of fun _ _ _ => rfl⟩

theorem clearsOperand_of {mk : EADesc → Instr} {sz : Size}
    (hexec : ∀ ea s, exec (mk ea) s = finish (clear sz ea s)) : ClearsOperand mk sz := by
  intro s ea himm hwrite
  rw [hexec, finish_next]
  exact clear_ok.mpr ⟨himm, hwrite, rfl⟩

/-- Settles O22: each clear writes zero at its own size. -/
theorem clrCompletesWithZero : Obligations.ClrCompletesWithZero :=
  ⟨clearsOperand_of fun _ _ => rfl, clearsOperand_of fun _ _ => rfl, clearsOperand_of fun _ _ => rfl,
    clearsOperand_of fun _ _ => rfl⟩

/-! ## Frame -/

theorem locOf_eq_gReg {s : State} {ea : EADesc} {n : Nat} {i : Reg} (h : s.locOf ea n = .gReg i) : ea = .gReg i := by
  cases ea <;> simp_all [State.locOf]

theorem locOf_eq_fReg {s : State} {ea : EADesc} {n : Nat} {i : Reg} (h : s.locOf ea n = .fReg i) : ea = .fReg i := by
  cases ea <;> simp_all [State.locOf]

/-- A write to the operand's location, in a state whose registers differ from the start only where a mode has stepped,
leaves all but what the frame allows. -/
theorem withValueAt_leaves {s u : State} {d e : EADesc} {sz : Size} (v : BitVec sz.bits)
    (hregs : ∀ r, steppedBy d r = false → steppedBy e r = false → u.getR r = s.getR r)
    (hfp : ∀ r, u.getFp r = s.getFp r) (hmem : u.mem = s.mem) (houtcome : u.outcome = s.outcome)
    (hlaunch : u.launch = s.launch) :
    let t := u.withValueAt (s.locOf d sz.bytes) sz v
    (∀ r, d ≠ .gReg r → steppedBy d r = false → steppedBy e r = false → t.getR r = s.getR r) ∧
    (∀ r, d ≠ .fReg r → t.getFp r = s.getFp r) ∧
    (∀ x, (s.locOf d sz.bytes).misses sz.bytes x → t.mem.get x = s.mem.get x) ∧
    t.outcome = s.outcome ∧ t.launch = s.launch := by
  refine ⟨fun r hd hsd hse => ?_, fun r hd => ?_, fun x hx => ?_, ?_, ?_⟩
  · rw [withValueAt_getR _ _ _ _ r fun h => hd (locOf_eq_gReg h), hregs r hsd hse]
  · rw [withValueAt_getFp _ _ _ _ r fun h => hd (locOf_eq_fReg h), hfp]
  · rw [withValueAt_get _ _ _ _ x hx, hmem]
  · rw [withValueAt_outcome, houtcome]
  · rw [withValueAt_launch, hlaunch]

theorem leavesAllBut_of_transfer {i : Instr} {d e : EADesc} {ss ds : Size} {f : State → BitVec ss.bits → BitVec ds.bits}
    (hexec : ∀ s, exec i s = finish (transfer ss ds (f s) d e s)) : LeavesAllBut i d e ds.bytes := by
  intro s t h
  rw [hexec, finish_next] at h
  obtain ⟨_, _, _, rfl⟩ := transfer_ok.mp h
  refine withValueAt_leaves _ (fun r hd he => ?_) (fun r => ?_) ?_ ?_ ?_
  · rw [stepEA_getR _ _ _ _ he, stepEA_getR _ _ _ _ hd]
  all_goals simp

/-- Settles O25: each instruction's transfer writes its destination at the size of the result. -/
theorem moveAndConversionFrame : Obligations.MoveAndConversionFrame := by
  intro d e
  refine ⟨?_, ?_, ?_, ?_, ?_, ?_, ?_, ?_, ?_, ?_, ?_, ?_, ?_, ?_, ?_, ?_, ?_, ?_⟩
  case refine_1 => exact leavesAllBut_of_transfer (ds := .b) fun _ => rfl
  case refine_2 => exact leavesAllBut_of_transfer (ds := .w) fun _ => rfl
  case refine_3 | refine_5 | refine_7 | refine_9 | refine_11 | refine_13 | refine_16 | refine_18 =>
    exact leavesAllBut_of_transfer (ds := .l) fun _ => rfl
  all_goals exact leavesAllBut_of_transfer (ds := .q) fun _ => rfl

theorem leavesAllBut_of_clear {i : Instr} {ea : EADesc} {sz : Size}
    (hexec : ∀ s, exec i s = finish (clear sz ea s)) : LeavesAllBut i ea ea sz.bytes := by
  intro s t h
  rw [hexec, finish_next] at h
  obtain ⟨_, _, rfl⟩ := clear_ok.mp h
  refine withValueAt_leaves _ (fun r hr _ => stepEA_getR _ _ _ _ hr) (fun r => ?_) ?_ ?_ ?_
  all_goals simp

/-- Settles O26: each clear writes its operand at its own size. -/
theorem clrFrame : Obligations.ClrFrame := fun _ =>
  ⟨leavesAllBut_of_clear (sz := .b) fun _ => rfl, leavesAllBut_of_clear (sz := .w) fun _ => rfl,
    leavesAllBut_of_clear (sz := .l) fun _ => rfl, leavesAllBut_of_clear (sz := .q) fun _ => rfl⟩

/-! ## Overlap -/

/-- The source is read before the destination is written, so it is the old value that stands there afterwards. -/
theorem transfer_ind_copies {sz : Size} {i j : Reg} {s t : State} (h : transfer sz sz id (.ind i) (.ind j) s = .ok t) :
    t.peek (s.getR i) sz = s.peek (s.getR j) sz := by
  obtain ⟨_, _, _, rfl⟩ := transfer_ok.mp h
  exact poke_peek_same s (s.getR i) (s.peek (s.getR j) sz)

/-- Settles O27: the three moves are such transfers. -/
theorem overlappingMoveCopiesOldBytes : Obligations.OverlappingMoveCopiesOldBytes := fun _ _ _ _ =>
  ⟨fun h => transfer_ind_copies (finish_next.mp h), fun h => transfer_ind_copies (finish_next.mp h),
    fun h => transfer_ind_copies (finish_next.mp h)⟩

/-! ## Faults -/

section Faults

variable {ss ds : Size} {f : BitVec ss.bits → BitVec ds.bits} {d e : EADesc} {s : State} {a : Addr} {x : Fault}

/-- The source is read first, so its fault is the transfer's, whatever the destination would meet (R211). -/
theorem transfer_source_fault (himm : d.isImm = false) (hloc : sourceLoc s d e ds.bytes ss.bytes = .mem a)
    (hfault : (resolved s d e ds.bytes ss.bytes).accessFault a ss.bytes .read = some x) :
    transfer ss ds f d e s = .error x := by
  have hread : (resolved s d e ds.bytes ss.bytes).readLoc (sourceLoc s d e ds.bytes ss.bytes) ss = .error x := by
    rw [hloc]
    exact memRead_error.mpr hfault
  rw [resolved, sourceLoc] at hread
  simp [transfer, himm, hread, bind, Except.bind]

theorem transfer_destination_fault (himm : d.isImm = false)
    (hread : (resolved s d e ds.bytes ss.bytes).accessible (sourceLoc s d e ds.bytes ss.bytes) ss.bytes .read)
    (hloc : s.locOf d ds.bytes = .mem a)
    (hfault : (resolved s d e ds.bytes ss.bytes).accessFault a ds.bytes .write = some x) :
    transfer ss ds f d e s = .error x := by
  have hvalue := readLoc_ok.mpr ⟨hread, rfl⟩
  rw [resolved] at hvalue hfault
  rw [sourceLoc] at hvalue
  simp [transfer, himm, hvalue, hloc, State.writeLoc, memWrite_error.mpr hfault, bind, Except.bind]

end Faults

theorem reportsSourceFaultFirst_of {mk : EADesc → EADesc → Instr} {ss ds : Size}
    {f : State → BitVec ss.bits → BitVec ds.bits}
    (hexec : ∀ d e s, exec (mk d e) s = finish (transfer ss ds (f s) d e s)) : ReportsSourceFaultFirst mk ss ds := by
  intro s d e a x himm
  rw [hexec, finish_fault]
  exact ⟨fun hloc hfault => transfer_source_fault himm hloc hfault,
    fun hread hloc hfault => transfer_destination_fault himm hread hloc hfault⟩

theorem faultsOnBadOperand_of {mk : EADesc → Instr} {sz : Size}
    (hexec : ∀ ea s, exec (mk ea) s = finish (clear sz ea s)) : FaultsOnBadOperand mk sz := by
  intro s ea a x hloc hfault
  have himm : ea.isImm = false := by cases ea <;> simp_all [State.locOf, EADesc.isImm]
  rw [hexec, finish_fault]
  simp [clear, himm, hloc, State.writeLoc, memWrite_error.mpr hfault]

/-- Settles O28: the moves and conversions are transfers, the clears write only. -/
theorem operandFaultsAreReportedInOrder : Obligations.OperandFaultsAreReportedInOrder := by
  refine ⟨?_, ?_, ?_, ?_, ?_, ?_, ?_, ?_, ?_, ?_, ?_, ?_, ?_, ?_, ?_, ?_, ?_, ?_, ?_, ?_, ?_, ?_⟩
  case refine_19 | refine_20 | refine_21 | refine_22 => exact faultsOnBadOperand_of fun _ _ => rfl
  all_goals exact reportsSourceFaultFirst_of fun _ _ _ => rfl

/-! ## Ill-formed terms -/

theorem transfer_imm {ss ds : Size} {f : BitVec ss.bits → BitVec ds.bits} {d e : EADesc} (s : State)
    (h : d.isImm = true) : transfer ss ds f d e s = .error (.immediateDestination s.pc) := if_pos h

theorem clear_imm {sz : Size} {ea : EADesc} (s : State) (h : ea.isImm = true) :
    clear sz ea s = .error (.immediateDestination s.pc) := if_pos h

theorem stepModeOf_eq_none {ea : EADesc} (h : ea.isStepping = false) : stepModeOf ea = none := by
  cases ea <;> simp_all [EADesc.isStepping, stepModeOf]

theorem saveMulti_not_stepping {file : RegFile} {ea : EADesc} (m : BitVec 16) (s : State)
    (h : ea.isStepping = false) : saveMulti file ea m s = .error (.illegalEAMode s.pc) := by
  rw [saveMulti, stepModeOf_eq_none h]

theorem loadMulti_not_stepping {file : RegFile} {ea : EADesc} (m : BitVec 16) (s : State)
    (h : ea.isStepping = false) : loadMulti file ea m s = .error (.illegalEAMode s.pc) := by
  rw [loadMulti, stepModeOf_eq_none h]

/-- Settles O12: each shared operation checks the shape first. -/
theorem illFormedInstructionFaults : Obligations.IllFormedInstructionFaults := by
  intro i s h
  cases i with
  | savem | fsavem => exact finish_fault.mpr (saveMulti_not_stepping _ s h)
  | loadm | floadm => exact finish_fault.mpr (loadMulti_not_stepping _ s h)
  | clrB | clrW | clrL | clrQ => exact finish_fault.mpr (clear_imm s (by simpa [Instr.wellFormed] using h))
  | exg | fexg | swap | swapL | link | unlk => cases h
  | _ => exact finish_fault.mpr (transfer_imm s (by simpa [Instr.wellFormed] using h))

end Sys2Proof.Machine
end

section
/-! PROOFS. Exchanges that undo themselves, LINK and UNLK as a pair (46_link_unlk.md R193), and what no instruction
reads: `pc` (10_state.md R27), and memory and launch in the exchanges (45_exg_fexg_swap.md R180). -/

namespace Sys2Proof.Machine

open Sys2Proof.Claims

/-! ## Exchanges -/

section Exchanges

variable (s : State) (a b i : Reg)

theorem setR_setR_getR (v : Quad) : (s.setR i v).setR i (s.getR i) = s := by
  refine State.ext_get (fun j => ?_) (fun _ => rfl) rfl rfl rfl rfl
  simp only [setR_getR]
  split_ifs with h
  · rw [h]
  · rfl

theorem swapHalfwords_swapHalfwords (v : Quad) : swapHalfwords (swapHalfwords v) = v := by
  have hupper : v.extractLsb' 32 32 ++ v.extractLsb' 16 16 = v.extractLsb' 16 48 :=
    BitVec.extractLsb'_append_extractLsb'_eq_extractLsb' rfl
  rw [swapHalfwords, swapHalfwords_upper, swapHalfwords_middle, swapHalfwords_low, hupper]
  exact BitVec.extractLsb'_append_extractLsb' (w := 48) (len := 16)

theorem swapLongs_swapLongs (v : Quad) : swapLongs (swapLongs v) = v := by
  rw [swapLongs, swapLongs_upper, swapLongs_lower]
  exact BitVec.extractLsb'_append_extractLsb' (w := 32) (len := 32)

/-- Exchanging two general purpose registers twice changes nothing. -/
theorem exg_exg {s t : State} (h : exec (.exg a b) s = .next t) : exec (.exg a b) t = .next s := by
  cases h
  refine congrArg Host.Outcome.next (State.ext_get (fun i => ?_) (fun _ => rfl) rfl rfl rfl rfl)
  rw [exchange_getR, exchange_getR, Equiv.swap_apply_self]

/-- Exchanging two floating point registers twice changes nothing. -/
theorem fexg_fexg {s t : State} (h : exec (.fexg a b) s = .next t) : exec (.fexg a b) t = .next s := by
  cases h
  refine congrArg Host.Outcome.next (State.ext_get (fun _ => rfl) (fun i => ?_) rfl rfl rfl rfl)
  rw [exchange_getFp, exchange_getFp, Equiv.swap_apply_self]

/-- The order of the pair does not matter to `exg`. -/
theorem exg_comm : exec (.exg a b) s = exec (.exg b a) s := by
  refine congrArg Host.Outcome.next (State.ext_get (fun i => ?_) (fun _ => rfl) rfl rfl rfl rfl)
  rw [exchange_getR, exchange_getR, Equiv.swap_comm]

/-- The order of the pair does not matter to `fexg`. -/
theorem fexg_comm : exec (.fexg a b) s = exec (.fexg b a) s := by
  refine congrArg Host.Outcome.next (State.ext_get (fun _ => rfl) (fun i => ?_) rfl rfl rfl rfl)
  rw [exchange_getFp, exchange_getFp, Equiv.swap_comm]

end Exchanges

/-- Settles O37: the swapped values swap back, and an exchange of two registers is its own inverse in either order. -/
theorem exchangesUndoThemselves : Obligations.ExchangesUndoThemselves := by
  intro s t a b
  refine ⟨fun h => ?_, fun h => ?_, fun h => ⟨exg_exg a b h, exg_comm t a b ▸ exg_exg a b h⟩,
    fun h => ⟨fexg_fexg a b h, fexg_comm t a b ▸ fexg_fexg a b h⟩⟩
  · cases h
    rw [exec, execSwap, setR_getR_same, swapHalfwords_swapHalfwords, setR_setR_getR]
  · cases h
    rw [exec, execSwapL, setR_getR_same, swapLongs_swapLongs, setR_setR_getR]

/-- Settles O38: each of the four writes registers from registers only. -/
theorem registerInstructionsIgnoreConfigAndMemory : Obligations.RegisterInstructionsIgnoreConfigAndMemory := by
  rintro i s m l a b (rfl | rfl | rfl | rfl) <;> exact ⟨_, rfl, rfl, rfl⟩

/-! ## LINK, then UNLK -/

/-- Settles O41: `link` leaves the register at the slot, which holds its old value 8 below the old `sp`. -/
theorem linkThenUnlkRestores : Obligations.LinkThenUnlkRestores := by
  intro s t s' n disp hn hlink hlaunch hreg hslot
  have ht := finish_next.mp hlink
  obtain ⟨hfault, _⟩ := link_ok.mp ht
  obtain ⟨_, _, htlaunch⟩ := link_same ht
  have hbase : t.getR n = s.sp - 8 := by rw [link_getR ht, if_neg hn, if_pos rfl]
  have hsaved : t.peek (s.sp - 8) .q = s.getR n := by rw [link_slot ht, if_neg hn]
  have hspIndex : s'.spIndex = s.spIndex := by rw [State.spIndex, hlaunch, htlaunch, State.spIndex]
  have hread : s'.accessFault (s'.getR n) 8 .read = none := by
    rw [hreg, hbase, accessFault_congr (hlaunch.trans htlaunch)]
    exact (accessFault_kind _ _ _ _ _).mp hfault
  obtain ⟨u, hu⟩ : ∃ u, unlink n s' = .ok u := ⟨_, unlink_ok.mpr ⟨hread, rfl⟩⟩
  obtain ⟨_, _, hulaunch⟩ := unlink_same hu
  refine ⟨u, finish_next.mpr hu, ?_, ?_⟩
  · rw [hbase] at hslot hreg
    rw [unlink_getR hu, hspIndex, if_neg hn, if_pos rfl, hreg, peek_congr hlaunch _ .q hslot, hsaved]
  · rw [State.sp, State.spIndex, hulaunch, unlink_getR hu, ← State.spIndex, if_pos rfl, hspIndex, if_neg hn, hreg,
      hbase, BitVec.sub_add_cancel]

/-! ## The place of `pc` -/

/-- The state with another `pc`. -/
def State.atPc (s : State) (p : Addr) : State := { s with pc := p }

section AtPc

variable {s t : State} {p : Addr}

theorem stepEA_atPc (ea : EADesc) (n : Nat) : (s.atPc p).stepEA ea n = (s.stepEA ea n).atPc p := by cases ea <;> rfl

theorem locOf_atPc (ea : EADesc) (n : Nat) : (s.atPc p).locOf ea n = s.locOf ea n := by cases ea <;> rfl

theorem valueAt_atPc (loc : Loc) (sz : Size) : (s.atPc p).valueAt loc sz = s.valueAt loc sz := by cases loc <;> rfl

theorem withValueAt_atPc (loc : Loc) (sz : Size) (v : BitVec sz.bits) :
    (s.atPc p).withValueAt loc sz v = (s.withValueAt loc sz v).atPc p := by cases loc <;> rfl

theorem setFile_atPc (file : RegFile) (i : Reg) (v : Quad) :
    (s.atPc p).setFile file i v = (s.setFile file i v).atPc p := by cases file <;> rfl

theorem getFile_atPc (file : RegFile) (i : Reg) : (s.atPc p).getFile file i = s.getFile file i := by
  cases file <;> rfl

theorem transfer_atPc {ss ds : Size} {f : BitVec ss.bits → BitVec ds.bits} {d e : EADesc}
    (h : transfer ss ds f d e s = .ok t) : transfer ss ds f d e (s.atPc p) = .ok (t.atPc p) := by
  obtain ⟨himm, hread, hwrite, rfl⟩ := transfer_ok.mp h
  rw [transfer_ok]
  simp only [stepEA_atPc, locOf_atPc, valueAt_atPc, withValueAt_atPc]
  exact ⟨himm, hread, hwrite, trivial⟩

theorem clear_atPc {sz : Size} {ea : EADesc} (h : clear sz ea s = .ok t) :
    clear sz ea (s.atPc p) = .ok (t.atPc p) := by
  obtain ⟨himm, hwrite, rfl⟩ := clear_ok.mp h
  rw [clear_ok]
  simp only [stepEA_atPc, locOf_atPc, withValueAt_atPc]
  exact ⟨himm, hwrite, trivial⟩

theorem saveLoop_atPc {file : RegFile} {mode : StepMode} {is : List Reg} {a : Addr} {q : Addr × State}
    (h : saveLoop file mode is a s = .ok q) : saveLoop file mode is a (s.atPc p) = .ok (q.1, q.2.atPc p) := by
  induction is generalizing a s with
  | nil => cases h; rfl
  | cons i is ih =>
    obtain ⟨hfault, h⟩ := saveLoop_cons_ok.mp h
    refine saveLoop_cons_ok.mpr ⟨hfault, ?_⟩
    rw [getFile_atPc]
    exact ih h

theorem loadLoop_atPc {file : RegFile} {mode : StepMode} {is : List Reg} {a : Addr} {q : Addr × State}
    (h : loadLoop file mode is a s = .ok q) : loadLoop file mode is a (s.atPc p) = .ok (q.1, q.2.atPc p) := by
  induction is generalizing a s with
  | nil => cases h; rfl
  | cons i is ih =>
    obtain ⟨hfault, h⟩ := loadLoop_cons_ok.mp h
    refine loadLoop_cons_ok.mpr ⟨hfault, ?_⟩
    rw [setFile_atPc]
    exact ih h

theorem saveMulti_atPc {file : RegFile} {ea : EADesc} {m : BitVec 16} (h : saveMulti file ea m s = .ok t) :
    saveMulti file ea m (s.atPc p) = .ok (t.atPc p) := by
  obtain ⟨mode, b, q, hmode, hloop, rfl⟩ := saveMulti_ok.mp h
  exact saveMulti_ok.mpr ⟨mode, b, _, hmode, saveLoop_atPc hloop, rfl⟩

theorem loadMulti_atPc {file : RegFile} {ea : EADesc} {m : BitVec 16} (h : loadMulti file ea m s = .ok t) :
    loadMulti file ea m (s.atPc p) = .ok (t.atPc p) := by
  obtain ⟨mode, b, q, hmode, hloop, rfl⟩ := loadMulti_ok.mp h
  exact loadMulti_ok.mpr ⟨mode, b, _, hmode, loadLoop_atPc hloop, rfl⟩

theorem link_atPc {n : Reg} {disp : BitVec 32} (h : link n disp s = .ok t) :
    link n disp (s.atPc p) = .ok (t.atPc p) := by
  obtain ⟨hfault, rfl⟩ := link_ok.mp h
  exact link_ok.mpr ⟨hfault, rfl⟩

theorem unlink_atPc {n : Reg} (h : unlink n s = .ok t) : unlink n (s.atPc p) = .ok (t.atPc p) := by
  obtain ⟨hfault, rfl⟩ := unlink_ok.mp h
  exact unlink_ok.mpr ⟨hfault, rfl⟩

end AtPc

/-- Settles O56: no shared operation reads `pc`. -/
theorem instructionEffectIgnoresPc : Obligations.InstructionEffectIgnoresPc := by
  intro i s t p h
  cases i with
  | savem | fsavem => exact finish_next.mpr (saveMulti_atPc (finish_next.mp h))
  | loadm | floadm => exact finish_next.mpr (loadMulti_atPc (finish_next.mp h))
  | clrB | clrW | clrL | clrQ => exact finish_next.mpr (clear_atPc (finish_next.mp h))
  | exg | fexg | swap | swapL => cases h; rfl
  | link => exact finish_next.mpr (link_atPc (finish_next.mp h))
  | unlk => exact finish_next.mpr (unlink_atPc (finish_next.mp h))
  | _ => exact finish_next.mpr (transfer_atPc (finish_next.mp h))

end Sys2Proof.Machine
end

section
/-! PROOFS. SAVEM, LOADM, FSAVEM and FLOADM (41_savem_loadm.md R121 to R124, 43_fsavem_floadm.md R161, R162): the two
loops as one, the slots it goes through in transfer order, and what stands in registers and memory afterwards. -/

namespace Sys2Proof.Machine

open Sys2Proof.Claims

/-! ## The slots in transfer order -/

/-- The slot of the `j`-th register to go, from base `a`: where the mode goes from the base after `j` registers. -/
def slotAt (mode : StepMode) (a : Addr) (j : Nat) : Addr := mode.before (finalBase mode a j)

/-- Which of `c` slots, counted from the lowest, is the `j`-th in transfer order (R121 (c)); and the same of
registers. -/
def StepMode.rank (mode : StepMode) (c j : Nat) : Nat :=
  match mode with
  | .postInc | .preInc => j
  | .postDec | .preDec => c - 1 - j

section Slots

variable (mode : StepMode) (a : Addr)

theorem finalBase_zero : finalBase mode a 0 = a := by cases mode <;> simp [finalBase]

/-- The base after one register and then `j` more. -/
theorem finalBase_succ (j : Nat) : finalBase mode (mode.after (mode.before a)) j = finalBase mode a (j + 1) := by
  cases mode <;> simp only [finalBase, StepMode.after, StepMode.before] <;> bv_omega

theorem slotAt_zero : slotAt mode a 0 = mode.before a := by rw [slotAt, finalBase_zero]

theorem slotAt_succ (j : Nat) : slotAt mode (mode.after (mode.before a)) j = slotAt mode a (j + 1) := by
  rw [slotAt, slotAt, finalBase_succ]

theorem slotAt_eq_imageSlot {c j : Nat} (h : j < c) : slotAt mode a j = imageSlot mode a c (mode.rank c j) := by
  cases mode <;> simp only [slotAt, finalBase, imageSlot, imageBase, StepMode.before, StepMode.rank] <;> bv_omega

variable {mode} in
theorem rank_lt {c j : Nat} (h : j < c) : mode.rank c j < c := by
  cases mode <;> simp only [StepMode.rank] <;> omega

variable {mode} in
theorem rank_rank {c j : Nat} (h : j < c) : mode.rank c (mode.rank c j) = j := by
  cases mode <;> simp only [StepMode.rank] <;> omega

theorem imageSlot_eq_slotAt {c k : Nat} (h : k < c) : imageSlot mode a c k = slotAt mode a (mode.rank c k) := by
  rw [slotAt_eq_imageSlot mode a (rank_lt h), rank_rank h]

/-- Two slots that lie in the address space do not overlap. -/
theorem slotAt_disjoint {c j k : Nat} (hc : c ≤ 16) (hj : j < c) (hk : k < c) (hne : j ≠ k)
    (hjend : (slotAt mode a j).toNat + 8 ≤ 2 ^ 64) (hkend : (slotAt mode a k).toNat + 8 ≤ 2 ^ 64) :
    (slotAt mode a j).toNat + 8 ≤ (slotAt mode a k).toNat ∨ (slotAt mode a k).toNat + 8 ≤ (slotAt mode a j).toNat := by
  cases mode <;> simp only [slotAt, finalBase, StepMode.before] at hjend hkend ⊢ <;> bv_omega

end Slots

/-! ## The registers in transfer order -/

section Registers

variable (mode : StepMode) (m : BitVec 16)

theorem maskRegs_length_le : (maskRegs m).length ≤ 16 :=
  (List.length_filter_le _ _).trans (List.length_finRange).le

theorem maskRegs_nodup : (maskRegs m).Nodup := (List.nodup_finRange 16).filter _

theorem mem_maskRegs {i : Reg} : i ∈ maskRegs m ↔ m.getLsbD i.val = true := by simp [maskRegs]

/-- The registers go in ascending number where the address ascends, in descending number where it descends. -/
theorem registers_eq : mode.registers m = maskRegs m ∨ mode.registers m = (maskRegs m).reverse := by
  cases mode <;> simp [StepMode.registers, StepMode.order, maskRegs, List.filter_reverse]

@[simp] theorem registers_length : (mode.registers m).length = (maskRegs m).length := by
  obtain h | h := registers_eq mode m <;> simp [h]

theorem registers_nodup : (mode.registers m).Nodup := by
  obtain h | h := registers_eq mode m <;> simp [h, maskRegs_nodup]

theorem not_mem_registers {i : Reg} (hi : m.getLsbD i.val = false) : i ∉ mode.registers m := by
  have hmask : i ∉ maskRegs m := by rw [mem_maskRegs, hi]; exact Bool.false_ne_true
  obtain h | h := registers_eq mode m <;> simp [h, hmask]

theorem registers_getElem {j : Nat} (h : j < (mode.registers m).length) :
    (mode.registers m)[j] =
      (maskRegs m)[mode.rank (maskRegs m).length j]'(rank_lt (by rwa [registers_length] at h)) := by
  cases mode <;> simp [StepMode.registers, StepMode.order, maskRegs, StepMode.rank, List.filter_reverse]

/-- The `k`-th lowest register of the mask goes at the `k`-th lowest slot. -/
theorem maskRegs_getElem {k : Nat} (h : k < (maskRegs m).length) :
    ∃ hj : mode.rank (maskRegs m).length k < (mode.registers m).length,
      (mode.registers m)[mode.rank (maskRegs m).length k] = (maskRegs m)[k] := by
  refine ⟨by rw [registers_length]; exact rank_lt h, ?_⟩
  simp only [registers_getElem, rank_rank h]

end Registers

/-! ## The loops of R121 as one -/

/-- What the transfer of one register does once its slot can be accessed: `eff i a s` for register `i` at address
`a`. -/
abbrev SlotEffect := Reg → Addr → State → State

/-- The register's value goes to the slot. -/
def saveEffect (file : RegFile) : SlotEffect := fun i a s => s.poke a .q (s.getFile file i)

/-- The slot's quad goes to the register. -/
def loadEffect (file : RegFile) : SlotEffect := fun i a s => s.setFile file i (s.peek a .q)

@[simp] theorem saveEffect_launch (file : RegFile) (i : Reg) (a : Addr) (s : State) :
    (saveEffect file i a s).launch = s.launch := rfl

@[simp] theorem loadEffect_launch (file : RegFile) (i : Reg) (a : Addr) (s : State) :
    (loadEffect file i a s).launch = s.launch := setFile_launch ..

@[simp] theorem loadEffect_mem (file : RegFile) (i : Reg) (a : Addr) (s : State) :
    (loadEffect file i a s).mem = s.mem := setFile_mem ..

/-- The loop of R121 for either direction: each slot in turn is accessed and the effect on it follows. -/
def transferLoop (kind : AccessKind) (eff : SlotEffect) (mode : StepMode) :
    List Reg → Addr → State → Except Fault (Addr × State)
  | [], a, s => .ok (a, s)
  | i :: is, a, s =>
    match s.accessFault (mode.before a) 8 kind with
    | some f => .error f
    | none => transferLoop kind eff mode is (mode.after (mode.before a)) (eff i (mode.before a) s)

theorem saveLoop_eq (file : RegFile) (mode : StepMode) (is : List Reg) (a : Addr) (s : State) :
    saveLoop file mode is a s = transferLoop .write (saveEffect file) mode is a s := by
  induction is generalizing a s with
  | nil => rfl
  | cons i is ih =>
    simp only [saveLoop, transferLoop, State.memWrite, ih, saveEffect]
    cases s.accessFault (mode.before a) 8 .write <;> rfl

theorem loadLoop_eq (file : RegFile) (mode : StepMode) (is : List Reg) (a : Addr) (s : State) :
    loadLoop file mode is a s = transferLoop .read (loadEffect file) mode is a s := by
  induction is generalizing a s with
  | nil => rfl
  | cons i is ih =>
    simp only [loadLoop, transferLoop, State.memRead, ih, loadEffect]
    cases s.accessFault (mode.before a) 8 .read <;> rfl

/-- The effects on all slots one after another. -/
def allEffects (eff : SlotEffect) (mode : StepMode) : List Reg → Addr → State → State
  | [], _, s => s
  | i :: is, a, s => allEffects eff mode is (mode.after (mode.before a)) (eff i (mode.before a) s)

/-- All slots can be accessed in transfer order just where they can be in ascending order. -/
theorem slotsOk_iff {s : State} {mode : StepMode} {a : Addr} {c : Nat} {kind : AccessKind} :
    SlotsOk s mode a c kind ↔ ∀ j < c, s.accessFault (slotAt mode a j) 8 kind = none := by
  refine ⟨fun h j hj => ?_, fun h k hk => ?_⟩
  · rw [slotAt_eq_imageSlot mode a hj]
    exact h _ (rank_lt hj)
  · rw [imageSlot_eq_slotAt mode a hk]
    exact h _ (rank_lt hk)

section Loop

variable {kind : AccessKind} {eff : SlotEffect} (hlaunch : ∀ i a s, (eff i a s).launch = s.launch)
  {mode : StepMode} {is : List Reg} {a : Addr} {s : State}
include hlaunch

/-- The loop completes exactly where no slot meets a fault. -/
theorem transferLoop_ok {p : Addr × State} :
    transferLoop kind eff mode is a s = .ok p ↔
      (∀ j < is.length, s.accessFault (slotAt mode a j) 8 kind = none) ∧
        p = (finalBase mode a is.length, allEffects eff mode is a s) := by
  induction is generalizing a s with
  | nil => simp [transferLoop, finalBase_zero, allEffects, eq_comm]
  | cons i is ih =>
    have hslots : (∀ j < is.length + 1, s.accessFault (slotAt mode a j) 8 kind = none) ↔
        s.accessFault (mode.before a) 8 kind = none ∧
          ∀ j < is.length, s.accessFault (slotAt mode (mode.after (mode.before a)) j) 8 kind = none := by
      rw [Nat.forall_lt_succ_left', slotAt_zero]
      simp only [slotAt_succ]
    rw [transferLoop, List.length_cons, hslots, ← finalBase_succ]
    cases s.accessFault (mode.before a) 8 kind with
    | some f => simp
    | none => simp [ih, accessFault_congr (hlaunch ..), allEffects]

/-- The loop stops at the first slot that meets a fault, with that fault. -/
theorem transferLoop_error {k : Nat} {f : Fault} (hk : k < is.length)
    (hbefore : ∀ j < k, s.accessFault (slotAt mode a j) 8 kind = none)
    (hfault : s.accessFault (slotAt mode a k) 8 kind = some f) :
    transferLoop kind eff mode is a s = .error f := by
  induction is generalizing a s k with
  | nil => simp at hk
  | cons i is ih =>
    rw [transferLoop]
    cases k with
    | zero =>
      rw [slotAt_zero] at hfault
      rw [hfault]
    | succ k =>
      have hfirst := hbefore 0 (Nat.succ_pos k)
      rw [slotAt_zero] at hfirst
      rw [hfirst]
      refine ih (Nat.lt_of_succ_lt_succ hk) (fun j hj => ?_) ?_
      · rw [accessFault_congr (hlaunch ..), slotAt_succ]
        exact hbefore (j + 1) (Nat.succ_lt_succ hj)
      · rwa [accessFault_congr (hlaunch ..), slotAt_succ]

/-- When the loop over a mask's registers completes and the base is written after it. -/
theorem transferLoop_map_ok {m : BitVec 16} {b : Reg} {t : State} :
    (transferLoop kind eff mode (mode.registers m) a s).map (fun p => p.2.setR b p.1) = .ok t ↔
      SlotsOk s mode a (maskRegs m).length kind ∧
        t = (allEffects eff mode (mode.registers m) a s).setR b (finalBase mode a (maskRegs m).length) := by
  have hmap : (transferLoop kind eff mode (mode.registers m) a s).map (fun p => p.2.setR b p.1) = .ok t ↔
      ∃ p, transferLoop kind eff mode (mode.registers m) a s = .ok p ∧ t = p.2.setR b p.1 := by
    cases transferLoop kind eff mode (mode.registers m) a s <;> simp [Except.map, eq_comm]
  simp [hmap, transferLoop_ok hlaunch, slotsOk_iff, and_assoc]

end Loop

/-! ## The instructions by the loop -/

section Instructions

variable {file : RegFile} {s t : State} {ea : EADesc} {mode : StepMode} {b : Reg} {m : BitVec 16}
  (hmode : stepModeOf ea = some (mode, b))

include hmode

theorem saveMulti_eq : saveMulti file ea m s =
    (transferLoop .write (saveEffect file) mode (mode.registers m) (s.getR b) s).map fun p => p.2.setR b p.1 := by
  rw [saveMulti, hmode]
  simp only [saveLoop_eq]
  cases transferLoop .write (saveEffect file) mode (mode.registers m) (s.getR b) s <;> rfl

theorem loadMulti_eq : loadMulti file ea m s =
    (transferLoop .read (loadEffect file) mode (mode.registers m) (s.getR b) s).map fun p => p.2.setR b p.1 := by
  rw [loadMulti, hmode]
  simp only [loadLoop_eq]
  cases transferLoop .read (loadEffect file) mode (mode.registers m) (s.getR b) s <;> rfl

theorem exec_saveInstr : exec (saveInstr file ea m) s = finish
    ((transferLoop .write (saveEffect file) mode (mode.registers m) (s.getR b) s).map fun p => p.2.setR b p.1) := by
  rw [← saveMulti_eq hmode]
  cases file <;> rfl

theorem exec_loadInstr : exec (loadInstr file ea m) s = finish
    ((transferLoop .read (loadEffect file) mode (mode.registers m) (s.getR b) s).map fun p => p.2.setR b p.1) := by
  rw [← loadMulti_eq hmode]
  cases file <;> rfl

/-- When a save completes, and with what (R121, R122, R161). -/
theorem exec_saveInstr_next : exec (saveInstr file ea m) s = .next t ↔
    SlotsOk s mode (s.getR b) (maskRegs m).length .write ∧
      t = (allEffects (saveEffect file) mode (mode.registers m) (s.getR b) s).setR b
        (finalBase mode (s.getR b) (maskRegs m).length) := by
  rw [exec_saveInstr hmode, finish_next]
  exact transferLoop_map_ok (saveEffect_launch file)

/-- When a load completes, and with what (R121, R123, R162). -/
theorem exec_loadInstr_next : exec (loadInstr file ea m) s = .next t ↔
    SlotsOk s mode (s.getR b) (maskRegs m).length .read ∧
      t = (allEffects (loadEffect file) mode (mode.registers m) (s.getR b) s).setR b
        (finalBase mode (s.getR b) (maskRegs m).length) := by
  rw [exec_loadInstr hmode, finish_next]
  exact transferLoop_map_ok (loadEffect_launch file)

end Instructions

/-! ## What a save leaves -/

section Saved

variable (file : RegFile) (mode : StepMode) (is : List Reg) (a : Addr) (s : State)

/-- Saving writes memory only. -/
theorem savedEffects_eq :
    allEffects (saveEffect file) mode is a s =
      { s with mem := (allEffects (saveEffect file) mode is a s).mem } := by
  induction is generalizing a s with
  | nil => rfl
  | cons i is ih => exact ih _ _

variable {mode is a}

theorem savedEffects_get_outside {x : Nat} (hx : ∀ j < is.length, (Loc.mem (slotAt mode a j)).misses 8 x) :
    (allEffects (saveEffect file) mode is a s).mem.get x = s.mem.get x := by
  induction is generalizing a s with
  | nil => rfl
  | cons i is ih =>
    have hfirst := hx 0 (Nat.succ_pos _) _ rfl
    rw [slotAt_zero] at hfirst
    rw [allEffects, ih, saveEffect, poke_get_outside s (mode.before a) .q _ x hfirst]
    intro j hj
    rw [slotAt_succ]
    exact hx (j + 1) (Nat.succ_lt_succ hj)

/-- Each slot holds its register: no later slot overlaps it. -/
theorem savedEffects_peek (hlen : is.length ≤ 16) (hend : ∀ j < is.length, (slotAt mode a j).toNat + 8 ≤ 2 ^ 64)
    {j : Nat} (hj : j < is.length) :
    (allEffects (saveEffect file) mode is a s).peek (slotAt mode a j) .q = s.getFile file is[j] := by
  induction is generalizing a s j with
  | nil => simp at hj
  | cons i is ih =>
    cases j with
    | zero =>
      have hrest : ∀ k < 8, (allEffects (saveEffect file) mode (i :: is) a s).mem.get ((mode.before a).toNat + k) =
          (s.poke (mode.before a) .q (s.getFile file i)).mem.get ((mode.before a).toNat + k) := by
        intro k hk
        refine savedEffects_get_outside file (saveEffect file i (mode.before a) s) fun n hn x hx => ?_
        cases hx
        rw [slotAt_succ, ← slotAt_zero]
        have hdisjoint := slotAt_disjoint mode a (k := n + 1) hlen hj (Nat.succ_lt_succ hn) (Nat.succ_ne_zero n).symm
          (hend _ hj) (hend _ (Nat.succ_lt_succ hn))
        omega
      have hlaunch : (allEffects (saveEffect file) mode (i :: is) a s).launch =
          (s.poke (mode.before a) .q (s.getFile file i)).launch := by rw [savedEffects_eq]; rfl
      rw [slotAt_zero, peek_congr hlaunch _ .q hrest, poke_peek_same, List.getElem_cons_zero]
    | succ j =>
      have hsame : (saveEffect file i (mode.before a) s).getFile file = s.getFile file := by cases file <;> rfl
      rw [← slotAt_succ, List.getElem_cons_succ, ← hsame]
      refine ih _ (Nat.le_of_succ_le hlen) (fun k hk => ?_) (Nat.lt_of_succ_lt_succ hj)
      rw [slotAt_succ]
      exact hend (k + 1) (Nat.succ_lt_succ hk)

end Saved

/-- Settles O29: the loop's effects write the slots only, each with its register, and the base is written last. -/
theorem saveWritesAscendingImage : Obligations.SaveWritesAscendingImage := by
  intro file s ea mode b m hmode hslots
  have hend : ∀ j < (mode.registers m).length, (slotAt mode (s.getR b) j).toNat + 8 ≤ 2 ^ 64 := fun j hj => by
    rw [registers_length] at hj
    exact accessFault_end (slotsOk_iff.mp hslots j hj)
  refine ⟨_, (exec_saveInstr_next hmode).mpr ⟨hslots, rfl⟩, fun k hk => ?_, setR_getR_same .., fun i hi => ?_, ?_,
    fun x hx => ?_, ?_, ?_, ?_⟩
  · obtain ⟨hj, hreg⟩ := maskRegs_getElem mode m hk
    rw [setR_peek, imageSlot_eq_slotAt mode _ hk,
      savedEffects_peek file s ((registers_length mode m).trans_le (maskRegs_length_le m)) hend hj, hreg]
  · rw [setR_getR_ne _ _ _ _ hi, savedEffects_eq]
    rfl
  · rw [setR_fp, savedEffects_eq]
  · rw [setR_mem, savedEffects_get_outside]
    intro j hj
    rw [registers_length] at hj
    rw [slotAt_eq_imageSlot mode _ hj]
    exact hx _ (rank_lt hj)
  · rw [setR_pc, savedEffects_eq]
  · rw [setR_outcome, savedEffects_eq]
  · rw [setR_launch, savedEffects_eq]

/-! ## What a load leaves -/

section Loaded

variable {file : RegFile} {mode : StepMode} {is : List Reg} {a : Addr} {s : State}

/-- Loading writes registers only. -/
theorem loadedEffects_same :
    (allEffects (loadEffect file) mode is a s).mem = s.mem ∧
      SameFixed s (allEffects (loadEffect file) mode is a s) := by
  induction is generalizing a s with
  | nil => simp [allEffects, SameFixed]
  | cons i is ih => simpa [allEffects, loadEffect, SameFixed] using ih (s := loadEffect file i (mode.before a) s)

theorem loadedEffects_getFile_of_not_mem {i : Reg} (hi : i ∉ is) :
    (allEffects (loadEffect file) mode is a s).getFile file i = s.getFile file i := by
  induction is generalizing a s with
  | nil => rfl
  | cons k is ih =>
    obtain ⟨hne, hi⟩ := not_or.mp (mt List.mem_cons.mpr hi)
    rw [allEffects, ih hi, loadEffect, setFile_getFile, if_neg hne]

/-- Each register takes the quad of its slot: no later one is the same register. -/
theorem loadedEffects_getFile (hnodup : is.Nodup) {j : Nat} (hj : j < is.length) :
    (allEffects (loadEffect file) mode is a s).getFile file is[j] = s.peek (slotAt mode a j) .q := by
  induction is generalizing a s j with
  | nil => simp at hj
  | cons i is ih =>
    obtain ⟨hi, hnodup⟩ := List.nodup_cons.mp hnodup
    cases j with
    | zero =>
      rw [List.getElem_cons_zero, allEffects, loadedEffects_getFile_of_not_mem hi, loadEffect, setFile_getFile,
        if_pos rfl, slotAt_zero]
    | succ j =>
      rw [List.getElem_cons_succ, allEffects, ih hnodup (Nat.lt_of_succ_lt_succ hj), slotAt_succ]
      exact peek_congr (loadEffect_launch ..) _ .q fun _ _ => by rw [loadEffect_mem]

theorem loadedEffects_gpr_getFp (i : Reg) : (allEffects (loadEffect .gpr) mode is a s).getFp i = s.getFp i := by
  induction is generalizing a s with
  | nil => rfl
  | cons k is ih => exact ih

theorem loadedEffects_fpr_getR (i : Reg) : (allEffects (loadEffect .fpr) mode is a s).getR i = s.getR i := by
  induction is generalizing a s with
  | nil => rfl
  | cons k is ih => exact ih

end Loaded

/-- Settles O30: the loop's effects write the masked registers only, each with its slot's quad, and the base is written
last. -/
theorem loadReadsAscendingImage : Obligations.LoadReadsAscendingImage := by
  intro file s ea mode b m hmode hslots
  obtain ⟨hmem, hpc, houtcome, hlaunch⟩ :=
    loadedEffects_same (file := file) (mode := mode) (is := mode.registers m) (a := s.getR b) (s := s)
  refine ⟨_, (exec_loadInstr_next hmode).mpr ⟨hslots, rfl⟩, fun k hk hne => ?_, setR_getR_same .., fun i hi hmask => ?_,
    fun i hmask => ?_, hmem, hpc, houtcome, hlaunch⟩
  · obtain ⟨hj, hreg⟩ := maskRegs_getElem mode m hk
    have hload :=
      loadedEffects_getFile (file := file) (mode := mode) (a := s.getR b) (s := s) (registers_nodup mode m) hj
    rw [hreg, ← imageSlot_eq_slotAt mode _ hk] at hload
    cases file with
    | gpr => exact (setR_getR_ne _ _ _ _ (hne rfl)).trans hload
    | fpr => exact hload
  · rw [setR_getR_ne _ _ _ _ hi]
    cases file with
    | gpr => exact loadedEffects_getFile_of_not_mem (file := .gpr) (not_mem_registers mode m (hmask rfl))
    | fpr => exact loadedEffects_fpr_getR i
  · rw [setR_getFp]
    cases file with
    | gpr => exact loadedEffects_gpr_getFp i
    | fpr => exact loadedEffects_getFile_of_not_mem (file := .fpr) (not_mem_registers mode m (hmask rfl))

/-! ## Faults -/

/-- Settles O31: the loop stops at the first bad slot, and its order is ascending or descending as the mode is. -/
theorem transferStopsAtFirstBadSlot : Obligations.TransferStopsAtFirstBadSlot := by
  intro file s ea mode b m k f hmode hk slot
  have hslot : ∀ j < (maskRegs m).length, slot j = slotAt mode (s.getR b) j := fun j hj => by
    rw [slotAt_eq_imageSlot mode _ hj]
    cases mode <;> rfl
  have hk' : k < (mode.registers m).length := by rwa [registers_length]
  refine ⟨fun hbefore hfault => ?_, fun hbefore hfault => ?_⟩
  · rw [exec_saveInstr hmode, transferLoop_error (saveEffect_launch file) hk'
      (fun j hj => hslot j (hj.trans hk) ▸ hbefore j hj) (hslot k hk ▸ hfault)]
    rfl
  · rw [exec_loadInstr hmode, transferLoop_error (loadEffect_launch file) hk'
      (fun j hj => hslot j (hj.trans hk) ▸ hbefore j hj) (hslot k hk ▸ hfault)]
    rfl

/-! ## A save, then a load through the opposite mode -/

section Opposite

variable (mode : StepMode) (a : Addr) (c : Nat)

/-- The opposite mode goes back to the base. -/
theorem finalBase_opposite : finalBase mode.opposite (finalBase mode a c) c = a := by
  cases mode <;> simp [finalBase, StepMode.opposite]

/-- The opposite mode goes over the same image. -/
theorem imageSlot_opposite (k : Nat) : imageSlot mode.opposite (finalBase mode a c) c k = imageSlot mode a c k := by
  cases mode <;> simp [imageSlot, imageBase, finalBase, StepMode.opposite]

end Opposite

/-- Settles O32: the load goes over the image the save has written, which holds the registers' values. -/
theorem saveThenOppositeLoadRestores : Obligations.SaveThenOppositeLoadRestores := by
  intro file s t s' ea ea' mode b m hmode hmode' hsave hlaunch hbase hbytes
  obtain ⟨hslots, _⟩ := (exec_saveInstr_next hmode).mp hsave
  obtain ⟨t', ht', hsaved, hfinal, _, _, _, _, _, htlaunch⟩ := saveWritesAscendingImage file s ea mode b m hmode hslots
  obtain rfl : t' = t := Host.Outcome.next.inj (ht'.symm.trans hsave)
  have hreads : SlotsOk s' mode.opposite (s'.getR b) (maskRegs m).length .read := fun k hk => by
    rw [hbase, hfinal, imageSlot_opposite, accessFault_congr (hlaunch.trans htlaunch)]
    exact (accessFault_kind _ _ _ _ _).mp (hslots k hk)
  obtain ⟨u, hu, hloaded, hufinal, _⟩ := loadReadsAscendingImage file s' ea' mode.opposite b m hmode' hreads
  refine ⟨u, hu, ?_, fun i hi hne => ?_⟩
  · rw [hufinal, hbase, hfinal, finalBase_opposite]
  · obtain ⟨k, hk, rfl⟩ := List.getElem_of_mem ((mem_maskRegs m).mpr hi)
    rw [hloaded k hk hne, hbase, hfinal, imageSlot_opposite, peek_congr hlaunch _ .q (hbytes k hk), hsaved k hk]

end Sys2Proof.Machine
end

section
/-! PROOFS. Rounding on naturals (42_fmove_convert.md R132): the magnitudes of a format with `w` fraction bits in rising
order, and that rounding a quotient gives the place of the nearest of them, a tie the even place. -/

namespace Sys2Proof.Machine

/-! ## Rounding to an integer -/

/-- `roundShift` is within half a unit of the quotient, and exactly half a unit away only where it is even. -/
theorem roundShift_bounds (m t : Nat) :
    2 * roundShift m t * 2 ^ t ≤ 2 * m + 2 ^ t ∧ 2 * m ≤ 2 * roundShift m t * 2 ^ t + 2 ^ t ∧
      (2 * roundShift m t * 2 ^ t = 2 * m + 2 ^ t ∨ 2 * m = 2 * roundShift m t * 2 ^ t + 2 ^ t →
        roundShift m t % 2 = 0) := by
  have hm := Nat.div_add_mod m (2 ^ t)
  have hrem : m % 2 ^ t < 2 ^ t := Nat.mod_lt _ (by positivity)
  simp only [roundShift]
  generalize hD : 2 ^ t = D at *
  generalize m / D = q at *
  generalize m % D = r at *
  subst hm
  split_ifs with hlow hhigh
  · refine ⟨by nlinarith, by nlinarith, ?_⟩
    rintro (h | h) <;> nlinarith
  · refine ⟨by nlinarith, by nlinarith, ?_⟩
    rintro (h | h) <;> nlinarith
  · have htie : 2 * r = D := by omega
    obtain h | h := Nat.mod_two_eq_zero_or_one q
    · exact ⟨by rw [h]; nlinarith, by rw [h]; nlinarith, fun _ => by omega⟩
    · exact ⟨by rw [h]; nlinarith, by rw [h]; nlinarith, fun _ => by omega⟩

/-- No integer is nearer to the quotient than `roundShift`, and another is as near only where that is even. -/
theorem roundShift_nearest (m t x : Nat) :
    ((roundShift m t * 2 ^ t : Nat) - m : Int).natAbs ≤ ((x * 2 ^ t : Nat) - m : Int).natAbs ∧
      (((roundShift m t * 2 ^ t : Nat) - m : Int).natAbs = ((x * 2 ^ t : Nat) - m : Int).natAbs →
        x ≠ roundShift m t → roundShift m t % 2 = 0) := by
  obtain ⟨hlow, hhigh, heven⟩ := roundShift_bounds m t
  rw [Nat.mul_assoc] at hlow hhigh heven
  obtain h | h | h := Nat.lt_trichotomy x (roundShift m t)
  · have hfar : x * 2 ^ t + 2 ^ t ≤ roundShift m t * 2 ^ t := by
      rw [← Nat.succ_mul]
      exact Nat.mul_le_mul_right _ h
    generalize roundShift m t * 2 ^ t = y at *
    generalize x * 2 ^ t = z at *
    exact ⟨by omega, fun heq _ => heven (by omega)⟩
  · rw [h]
    exact ⟨le_refl _, fun _ hne => absurd rfl hne⟩
  · have hfar : roundShift m t * 2 ^ t + 2 ^ t ≤ x * 2 ^ t := by
      rw [← Nat.succ_mul]
      exact Nat.mul_le_mul_right _ h
    generalize roundShift m t * 2 ^ t = y at *
    generalize x * 2 ^ t = z at *
    exact ⟨by omega, fun heq _ => heven (by omega)⟩

theorem le_roundShift {m t c : Nat} (h : c * 2 ^ t ≤ m) : c ≤ roundShift m t := by
  have hfloor : c ≤ m / 2 ^ t := (Nat.le_div_iff_mul_le (by positivity)).mpr h
  simp only [roundShift]
  split_ifs <;> omega

theorem roundShift_le {m t c : Nat} (h : m < c * 2 ^ t) : roundShift m t ≤ c := by
  have hfloor : m / 2 ^ t < c := (Nat.div_lt_iff_lt_mul (by positivity)).mpr h
  simp only [roundShift]
  split_ifs <;> omega

/-! ## The magnitudes in rising order -/

/-- The magnitude of the exponent and fraction bits `b`, in units of the smallest subnormal (`Fmt.mag_eq`). -/
def magBits (w b : Nat) : Nat := if b / 2 ^ w = 0 then b % 2 ^ w else (2 ^ w + b % 2 ^ w) * 2 ^ (b / 2 ^ w - 1)

variable (w : Nat)

/-- A significand `q`, with its leading one unless the scale is 0, and a scale `e` are the bits `e * 2 ^ w + q`; also
where `q` has carried into the next binade. -/
theorem magBits_scaled {e q : Nat} (hq : q ≤ 2 ^ (w + 1)) (hlead : e = 0 ∨ 2 ^ w ≤ q) :
    magBits w (e * 2 ^ w + q) = q * 2 ^ e := by
  have hpos : 0 < 2 ^ w := by positivity
  rw [Nat.pow_succ] at hq
  rcases Nat.lt_or_ge q (2 ^ w) with hsub | hnorm
  · obtain rfl : e = 0 := by omega
    simp [magBits, Nat.div_eq_of_lt hsub, Nat.mod_eq_of_lt hsub]
  obtain ⟨r, rfl⟩ := Nat.exists_eq_add_of_le hnorm
  rcases Nat.lt_or_ge r (2 ^ w) with hr | hr
  · have hbits : e * 2 ^ w + (2 ^ w + r) = r + 2 ^ w * (e + 1) := by ring
    rw [magBits, hbits, Nat.add_mul_div_left _ _ hpos, Nat.add_mul_mod_self_left, Nat.div_eq_of_lt hr,
      Nat.mod_eq_of_lt hr]
    simp
  · obtain rfl : r = 2 ^ w := by omega
    have hbits : e * 2 ^ w + (2 ^ w + 2 ^ w) = 2 ^ w * (e + 2) := by ring
    rw [magBits, hbits, Nat.mul_div_cancel_left _ hpos, Nat.mul_mod_right, if_neg (by omega)]
    simp only [Nat.add_zero, Nat.add_succ_sub_one]
    ring

/-- All bits are of that kind. -/
theorem exists_scaled (b : Nat) : ∃ e q, b = e * 2 ^ w + q ∧ q < 2 ^ (w + 1) ∧ (e = 0 ∨ 2 ^ w ≤ q) := by
  have hpos : 0 < 2 ^ w := by positivity
  have hb := Nat.div_add_mod' b (2 ^ w)
  have hmod := Nat.mod_lt b hpos
  rw [Nat.pow_succ]
  cases hdiv : b / 2 ^ w with
  | zero => exact ⟨0, b, by simp, by simp [hdiv] at hb; omega, .inl rfl⟩
  | succ e =>
    rw [hdiv, Nat.succ_mul] at hb
    exact ⟨e, 2 ^ w + b % 2 ^ w, by omega, by omega, .inr (Nat.le_add_right _ _)⟩

theorem magBits_strictMono : StrictMono (magBits w) := by
  refine strictMono_nat_of_lt_succ fun b => ?_
  obtain ⟨e, q, rfl, hq, hlead⟩ := exists_scaled w b
  rw [Nat.add_assoc, magBits_scaled w hq.le hlead, magBits_scaled w hq (by omega)]
  exact Nat.mul_lt_mul_of_pos_right (Nat.lt_succ_self q) (by positivity)

theorem magBits_zero : magBits w 0 = 0 := by simp [magBits]

/-! ## Rounding to a magnitude -/

/-- The places `m / 2 ^ k` is shifted down to leave `w` bits after the leading one (`Fmt.roundBits`). -/
def roundScale (m k : Nat) : Nat := Nat.log2 (m / 2 ^ k) - w

/-- The bits of the rounded quotient, without the bound of the largest finite value (`Fmt.roundBits_eq`). -/
def roundPlace (m k : Nat) : Nat := roundScale w m k * 2 ^ w + roundShift m (k + roundScale w m k)

section Place

variable {w} {m k : Nat}

/-- The quotient lies below the end of the binade of its scale. -/
theorem lt_of_roundScale_le {e : Nat} (h : roundScale w m k ≤ e) : m < 2 ^ (w + 1) * 2 ^ (k + e) := by
  have hlog : m / 2 ^ k < 2 ^ (w + e + 1) :=
    Nat.lt_log2_self.trans_le (Nat.pow_le_pow_right (by omega) (by rw [roundScale] at h; omega))
  rw [Nat.div_lt_iff_lt_mul (by positivity)] at hlog
  convert hlog using 1
  ring

/-- The quotient lies from the start of the binade of its scale on, unless that is the lowest. -/
theorem le_of_le_roundScale {e : Nat} (he : 0 < e) (h : e ≤ roundScale w m k) : 2 ^ w * 2 ^ (k + e) ≤ m := by
  rw [roundScale] at h
  have hne : m / 2 ^ k ≠ 0 := fun h0 => by
    rw [h0, Nat.log2_zero] at h
    omega
  have hlog : 2 ^ (w + e) ≤ m / 2 ^ k :=
    (Nat.pow_le_pow_right (by omega) (by omega)).trans (Nat.log2_self_le hne)
  rw [Nat.le_div_iff_mul_le (by positivity)] at hlog
  convert hlog using 1
  ring

theorem roundShift_scaled : roundShift m (k + roundScale w m k) ≤ 2 ^ (w + 1) ∧
    (roundScale w m k = 0 ∨ 2 ^ w ≤ roundShift m (k + roundScale w m k)) := by
  refine ⟨roundShift_le (lt_of_roundScale_le le_rfl), ?_⟩
  rcases Nat.eq_zero_or_pos (roundScale w m k) with h | h
  · exact .inl h
  · exact .inr (le_roundShift (le_of_le_roundScale h le_rfl))

/-- The magnitude at the rounded place is the rounded quotient, scaled back. -/
theorem magBits_roundPlace :
    magBits w (roundPlace w m k) * 2 ^ k = roundShift m (k + roundScale w m k) * 2 ^ (k + roundScale w m k) := by
  obtain ⟨hq, hlead⟩ := roundShift_scaled (w := w) (m := m) (k := k)
  rw [roundPlace, magBits_scaled w hq hlead, Nat.pow_add]
  ring

/-- No magnitude is nearer to `m / 2 ^ k` than the one at the rounded place, and another is as near only where that
place is even (R132). -/
theorem roundPlace_nearest (hw : 0 < w) (b : Nat) :
    ((magBits w (roundPlace w m k) * 2 ^ k : Nat) - m : Int).natAbs ≤ ((magBits w b * 2 ^ k : Nat) - m : Int).natAbs ∧
      (((magBits w (roundPlace w m k) * 2 ^ k : Nat) - m : Int).natAbs =
          ((magBits w b * 2 ^ k : Nat) - m : Int).natAbs →
        magBits w b ≠ magBits w (roundPlace w m k) → roundPlace w m k % 2 = 0) := by
  have hparity : roundShift m (k + roundScale w m k) % 2 = 0 → roundPlace w m k % 2 = 0 := fun h => by
    obtain ⟨v, rfl⟩ : ∃ v, w = v + 1 := ⟨w - 1, by omega⟩
    rw [roundPlace, Nat.pow_succ, ← Nat.mul_assoc, Nat.mul_add_mod_self_right, h]
  obtain ⟨e, q, rfl, hq, hlead⟩ := exists_scaled w b
  rw [magBits_roundPlace]
  rcases Nat.lt_or_ge e (roundScale w m k) with he | he
  · have hbelow : magBits w (e * 2 ^ w + q) * 2 ^ k < 2 ^ w * 2 ^ (k + roundScale w m k) := by
      obtain ⟨j, hj⟩ := Nat.exists_eq_add_of_lt he
      calc magBits w (e * 2 ^ w + q) * 2 ^ k = q * (2 ^ e * 2 ^ k) := by rw [magBits_scaled w hq.le hlead]; ring
        _ < 2 ^ (w + 1) * (2 ^ e * 2 ^ k) := Nat.mul_lt_mul_of_pos_right hq (by positivity)
        _ ≤ 2 ^ (w + 1) * (2 ^ e * 2 ^ k) * 2 ^ j := Nat.le_mul_of_pos_right _ (by positivity)
        _ = 2 ^ w * 2 ^ (k + roundScale w m k) := by rw [hj]; ring
    have hstart := le_of_le_roundScale (w := w) (m := m) (k := k) (Nat.zero_lt_of_lt he) le_rfl
    obtain ⟨hnear, _⟩ := roundShift_nearest m (k + roundScale w m k) (2 ^ w)
    generalize magBits w (e * 2 ^ w + q) * 2 ^ k = y at *
    generalize 2 ^ w * 2 ^ (k + roundScale w m k) = z at *
    exact ⟨by omega, fun heq _ => absurd heq (by omega)⟩
  · obtain ⟨j, rfl⟩ := Nat.exists_eq_add_of_le he
    have hmag : magBits w ((roundScale w m k + j) * 2 ^ w + q) * 2 ^ k = q * 2 ^ j * 2 ^ (k + roundScale w m k) := by
      rw [magBits_scaled w hq.le hlead]
      ring
    obtain ⟨hnear, heven⟩ := roundShift_nearest m (k + roundScale w m k) (q * 2 ^ j)
    rw [hmag]
    refine ⟨hnear, fun heq hne => hparity (heven heq fun h => hne ?_)⟩
    refine Nat.eq_of_mul_eq_mul_right (Nat.pow_pos (n := k) Nat.two_pos) ?_
    rw [hmag, h, magBits_roundPlace]

/-- Rounding a magnitude gives its own place: no rounding is exact elsewhere. -/
theorem roundPlace_magBits (hw : 0 < w) (b : Nat) : roundPlace w (magBits w b * 2 ^ k) k = b := by
  obtain ⟨hnear, _⟩ := roundPlace_nearest (m := magBits w b * 2 ^ k) (k := k) hw b
  have hexact : magBits w (roundPlace w (magBits w b * 2 ^ k) k) * 2 ^ k = magBits w b * 2 ^ k := by omega
  exact (magBits_strictMono w).injective (Nat.eq_of_mul_eq_mul_right (by positivity) hexact)

/-- What is no more than a magnitude is rounded to no more than it. -/
theorem roundPlace_le (hw : 0 < w) {b : Nat} (h : m ≤ magBits w b * 2 ^ k) : roundPlace w m k ≤ b := by
  by_contra hlt
  obtain ⟨hnear, _⟩ := roundPlace_nearest (m := m) (k := k) hw b
  have hmag := Nat.mul_lt_mul_of_pos_right (magBits_strictMono w (not_le.mp hlt)) (Nat.pow_pos (n := k) Nat.two_pos)
  omega

/-- The bits after the last of a binade, and the last ones. -/
theorem magBits_binade (e : Nat) :
    magBits w (e * 2 ^ w + 2 ^ (w + 1)) = 2 ^ (w + 1) * 2 ^ e ∧
      magBits w (e * 2 ^ w + (2 ^ (w + 1) - 1)) = (2 ^ (w + 1) - 1) * 2 ^ e := by
  have hpos : 0 < 2 ^ w := by positivity
  have hsucc := Nat.pow_succ 2 w
  exact ⟨magBits_scaled w le_rfl (by omega), magBits_scaled w (by omega) (by omega)⟩

/-- What is rounded to the end of a binade or above: the quotients from half a place below the end on, as the last bits
of a binade are odd. -/
theorem le_roundPlace_iff (hw : 0 < w) (e : Nat) :
    e * 2 ^ w + 2 ^ (w + 1) ≤ roundPlace w m k ↔ (2 ^ (w + 2) - 1) * 2 ^ (k + e) ≤ 2 * m := by
  have hpos : 0 < 2 ^ (w + 1) := by positivity
  obtain ⟨hend, hlast⟩ := magBits_binade (w := w) e
  have hsum : magBits w (e * 2 ^ w + (2 ^ (w + 1) - 1)) * 2 ^ k + magBits w (e * 2 ^ w + 2 ^ (w + 1)) * 2 ^ k =
      (2 ^ (w + 2) - 1) * 2 ^ (k + e) := by
    have hcoeff : 2 ^ (w + 2) - 1 = 2 ^ (w + 1) - 1 + 2 ^ (w + 1) := by
      have hsucc : 2 ^ (w + 2) = 2 ^ (w + 1) * 2 := Nat.pow_succ ..
      omega
    rw [hend, hlast, hcoeff]
    ring
  rw [← hsum]
  have hpow : 0 < 2 ^ k := by positivity
  have hgap := Nat.mul_lt_mul_of_pos_right
    (magBits_strictMono w (show e * 2 ^ w + (2 ^ (w + 1) - 1) < e * 2 ^ w + 2 ^ (w + 1) by omega)) hpow
  constructor
  · intro h
    obtain ⟨hnear, _⟩ := roundPlace_nearest (m := m) (k := k) hw (e * 2 ^ w + (2 ^ (w + 1) - 1))
    have hmag := Nat.mul_le_mul_right (2 ^ k) ((magBits_strictMono w).monotone h)
    omega
  · intro h
    by_contra hlt
    have hle : roundPlace w m k ≤ e * 2 ^ w + (2 ^ (w + 1) - 1) := by omega
    obtain ⟨hnear, heven⟩ := roundPlace_nearest (m := m) (k := k) hw (e * 2 ^ w + 2 ^ (w + 1))
    have hmag := Nat.mul_le_mul_right (2 ^ k) ((magBits_strictMono w).monotone hle)
    have htie : magBits w (roundPlace w m k) * 2 ^ k = magBits w (e * 2 ^ w + (2 ^ (w + 1) - 1)) * 2 ^ k := by omega
    have hplace := (magBits_strictMono w).injective (Nat.eq_of_mul_eq_mul_right hpow htie)
    have hne : magBits w (e * 2 ^ w + 2 ^ (w + 1)) ≠ magBits w (roundPlace w m k) :=
      fun heq => hlt ((magBits_strictMono w).injective heq).le
    have hplaceEven := heven (by omega) hne
    obtain ⟨v, rfl⟩ : ∃ v, w = v + 1 := ⟨w - 1, by omega⟩
    have hodd : (e * 2 ^ (v + 1) + (2 ^ (v + 1 + 1) - 1)) % 2 = 1 := by
      rw [Nat.pow_succ 2 v, ← Nat.mul_assoc, Nat.mul_add_mod_self_right]
      omega
    omega

end Place

end Sys2Proof.Machine
end

section
/-! PROOFS. Patterns of the two formats as a sign and the bits below it (42_fmove_convert.md R131, R132): what they
denote by those bits, and what rounding to a pattern gives. -/

namespace Sys2Proof.Machine

open Sys2Proof.Claims

/-! ## The sign and the other bits -/

/-- The exponent and fraction bits of a pattern. -/
def Fmt.bits (f : Fmt) (p : BitVec f.width) : Nat := p.toNat % 2 ^ (f.width - 1)

/-- The bits of infinity, the first that are no finite number's. -/
def Fmt.infBits (f : Fmt) : Nat := f.expTop * 2 ^ f.fracBits

/-- Below the sign are the exponent field, up to `expTop`, and the fraction field. -/
theorem Fmt.two_pow_width (f : Fmt) :
    2 ^ (f.width - 1) = (f.expTop + 1) * 2 ^ f.fracBits ∧ 2 ^ f.width = 2 * 2 ^ (f.width - 1) := by
  cases f <;> decide

theorem Fmt.fracBits_pos (f : Fmt) : 0 < f.fracBits := by cases f <;> decide

theorem Fmt.infBits_lt (f : Fmt) : f.infBits < 2 ^ (f.width - 1) := by cases f <;> decide

variable {f : Fmt}

section OfPattern

variable (p : BitVec f.width)

theorem Fmt.exp_eq : f.exp p = f.bits p / 2 ^ f.fracBits := by
  rw [Fmt.exp, Fmt.bits, f.two_pow_width.1, Nat.mod_mul_left_div_self]

theorem Fmt.frac_eq : f.frac p = f.bits p % 2 ^ f.fracBits := by
  rw [Fmt.frac, Fmt.bits, f.two_pow_width.1, Nat.mod_mul_left_mod]

theorem Fmt.neg_eq : f.neg p = decide (2 ^ (f.width - 1) ≤ p.toNat) := BitVec.msb_eq_decide p

theorem Fmt.mag_eq : f.mag p = magBits f.fracBits (f.bits p) := by
  rw [Fmt.mag, magBits, Fmt.exp_eq, Fmt.frac_eq]

/-- The exponent field is all ones from the bits of infinity on. -/
theorem Fmt.exp_eq_expTop_iff : f.exp p = f.expTop ↔ f.infBits ≤ f.bits p := by
  have hlt : f.bits p < (f.expTop + 1) * 2 ^ f.fracBits := f.two_pow_width.1 ▸ Nat.mod_lt _ (by positivity)
  have hexp : f.bits p / 2 ^ f.fracBits < f.expTop + 1 := (Nat.div_lt_iff_lt_mul (by positivity)).mpr hlt
  rw [Fmt.exp_eq, Fmt.infBits, ← Nat.le_div_iff_mul_le (by positivity)]
  omega

theorem Fmt.isFinite_iff : f.isFinite p = true ↔ f.bits p < f.infBits := by
  rw [Fmt.isFinite, bne_iff_ne, Ne, Fmt.exp_eq_expTop_iff, not_le]

/-- With the exponent field all ones, the fraction is what the bits exceed those of infinity by. -/
theorem Fmt.bits_of_exp (h : f.exp p = f.expTop) : f.bits p = f.infBits + f.frac p := by
  rw [Fmt.exp_eq] at h
  rw [Fmt.frac_eq, Fmt.infBits, ← h, Nat.div_add_mod']

theorem Fmt.isInf_iff : f.isInf p = true ↔ f.bits p = f.infBits := by
  have hexp := f.exp_eq_expTop_iff p
  have hbits := f.bits_of_exp p
  rw [Fmt.isInf, Bool.and_eq_true_iff, beq_iff_eq, beq_iff_eq]
  omega

theorem Fmt.isNaN_iff : f.isNaN p = true ↔ f.infBits < f.bits p := by
  have hexp := f.exp_eq_expTop_iff p
  have hbits := f.bits_of_exp p
  rw [Fmt.isNaN, Bool.and_eq_true_iff, beq_iff_eq, bne_iff_ne]
  omega

theorem Fmt.toNat_eq : p.toNat = (if f.neg p then 2 ^ (f.width - 1) else 0) + f.bits p := by
  have hlt := p.isLt
  rw [f.two_pow_width.2] at hlt
  rw [Fmt.neg_eq, Fmt.bits]
  by_cases h : 2 ^ (f.width - 1) ≤ p.toNat
  · rw [if_pos (decide_eq_true h), Nat.mod_eq_sub_mod h, Nat.mod_eq_of_lt (by omega)]
    omega
  · rw [if_neg (by simpa using h), Nat.mod_eq_of_lt (by omega), Nat.zero_add]

theorem Fmt.pattern_neg_bits : f.pattern (f.neg p) (f.bits p) = p := by
  rw [Fmt.pattern, ← Fmt.toNat_eq, BitVec.ofNat_toNat, BitVec.setWidth_eq]

end OfPattern

section Pattern

variable (neg : Bool) {b : Nat} (hb : b < 2 ^ (f.width - 1))
include hb

theorem Fmt.pattern_toNat : (f.pattern neg b).toNat = (if neg then 2 ^ (f.width - 1) else 0) + b := by
  rw [Fmt.pattern, BitVec.toNat_ofNat, Nat.mod_eq_of_lt]
  rw [f.two_pow_width.2]
  split_ifs <;> omega

theorem Fmt.bits_pattern : f.bits (f.pattern neg b) = b := by
  rw [Fmt.bits, Fmt.pattern_toNat neg hb]
  cases neg <;> simp [Nat.mod_eq_of_lt hb]

theorem Fmt.neg_pattern : f.neg (f.pattern neg b) = neg := by
  rw [Fmt.neg_eq, Fmt.pattern_toNat neg hb]
  cases neg <;> simp [hb]

end Pattern

/-! ## The value of a pattern -/

/-- The number of a sign and a magnitude. -/
def signed (neg : Bool) (n : Nat) : Int := if neg then -(n : Int) else n

@[simp] theorem natAbs_signed (neg : Bool) (n : Nat) : (signed neg n).natAbs = n := by cases neg <;> simp [signed]

theorem signed_mul (neg : Bool) (n k : Nat) : signed neg n * k = signed neg (n * k) := by
  cases neg <;> simp [signed]

theorem signed_mul_two_pow (neg : Bool) (n j : Nat) : signed neg n * 2 ^ j = signed neg (n * 2 ^ j) := by
  cases neg <;> simp [signed]

theorem signed_natAbs (x : Int) : signed (decide (x < 0)) x.natAbs = x := by
  by_cases h : x < 0
  · rw [signed, if_pos (decide_eq_true h)]
    omega
  · rw [signed, if_neg (by simpa using h)]
    omega

/-- Numbers of one sign are as far apart as their magnitudes, numbers of two signs by the sum of them. -/
theorem natAbs_signed_sub (neg neg' : Bool) (a b : Nat) :
    (signed neg' a - signed neg b).natAbs = if neg' = neg then (a - b : Int).natAbs else a + b := by
  cases neg <;> cases neg' <;> simp [signed] <;> omega

theorem signed_eq_zero {neg : Bool} : signed neg 0 = 0 := by cases neg <;> rfl

theorem Fmt.val_eq (p : BitVec f.width) : f.val p = signed (f.neg p) (f.mag p) := rfl

theorem Fmt.trunc_eq (p : BitVec f.width) : f.trunc p = signed (f.neg p) (f.mag p / 2 ^ f.unit) := rfl

theorem Fmt.natAbs_val (p : BitVec f.width) : (f.val p).natAbs = f.mag p := natAbs_signed ..

/-- Patterns of the same sign and number are the same. -/
theorem Fmt.eq_of_neg_of_mag {p q : BitVec f.width} (hneg : f.neg p = f.neg q) (hmag : f.mag p = f.mag q) : p = q := by
  rw [Fmt.mag_eq, Fmt.mag_eq] at hmag
  rw [← f.pattern_neg_bits p, ← f.pattern_neg_bits q, hneg, (magBits_strictMono _).injective hmag]

/-! ## Rounding to a pattern -/

theorem Fmt.roundBits_eq (f : Fmt) (m k : Nat) : f.roundBits m k = min (roundPlace f.fracBits m k) f.infBits := rfl

/-- The pattern `m / 2 ^ k` units round to, with a sign. -/
def Fmt.rounded (f : Fmt) (neg : Bool) (m k : Nat) : BitVec f.width := f.pattern neg (f.roundBits m k)

section Rounded

variable (neg : Bool) {m k : Nat}

theorem Fmt.roundBits_lt (f : Fmt) (m k : Nat) : f.roundBits m k < 2 ^ (f.width - 1) :=
  (Nat.min_le_right ..).trans_lt f.infBits_lt

@[simp] theorem Fmt.neg_rounded : f.neg (f.rounded neg m k) = neg := f.neg_pattern neg (f.roundBits_lt m k)

@[simp] theorem Fmt.bits_rounded : f.bits (f.rounded neg m k) = f.roundBits m k :=
  f.bits_pattern neg (f.roundBits_lt m k)

theorem Fmt.isFinite_rounded : f.isFinite (f.rounded neg m k) = true ↔ roundPlace f.fracBits m k < f.infBits := by
  rw [Fmt.isFinite_iff, Fmt.bits_rounded, Fmt.roundBits_eq]
  omega

theorem Fmt.rounded_eq_infinity (h : f.infBits ≤ roundPlace f.fracBits m k) : f.rounded neg m k = f.infinity neg := by
  rw [Fmt.rounded, Fmt.roundBits_eq, Nat.min_eq_right h]
  rfl

theorem Fmt.mag_rounded (h : roundPlace f.fracBits m k < f.infBits) :
    f.mag (f.rounded neg m k) = magBits f.fracBits (roundPlace f.fracBits m k) := by
  rw [Fmt.mag_eq, Fmt.bits_rounded, Fmt.roundBits_eq, Nat.min_eq_left h.le]

/-- A finite pattern's number rounds to the pattern, up to the sign: its magnitude is exact. -/
theorem Fmt.rounded_mag {p : BitVec f.width} (hp : f.isFinite p = true) :
    f.isFinite (f.rounded neg (f.mag p * 2 ^ k) k) = true ∧ f.mag (f.rounded neg (f.mag p * 2 ^ k) k) = f.mag p := by
  have hplace : roundPlace f.fracBits (f.mag p * 2 ^ k) k = f.bits p := by
    rw [Fmt.mag_eq, roundPlace_magBits f.fracBits_pos]
  rw [Fmt.isFinite_iff] at hp
  rw [← hplace] at hp
  exact ⟨(f.isFinite_rounded neg).mpr hp, by rw [f.mag_rounded neg hp, hplace, ← Fmt.mag_eq]⟩

/-- What rounds to a finite pattern rounds to a nearest one, to the even fraction on a tie (R132). -/
theorem Fmt.rounded_nearest (h : roundPlace f.fracBits m k < f.infBits) :
    IsNearestEven f (signed neg m) (2 ^ k) (f.rounded neg m k) := by
  refine ⟨(f.isFinite_rounded neg).mpr h, fun q _ => ?_⟩
  have hfrac : roundPlace f.fracBits m k % 2 = 0 → f.frac (f.rounded neg m k) % 2 = 0 := fun heven => by
    rw [Fmt.frac_eq, Fmt.bits_rounded, Fmt.roundBits_eq, Nat.min_eq_left h.le,
      Nat.mod_mod_of_dvd _ (dvd_pow_self 2 f.fracBits_pos.ne'), heven]
  rw [Fmt.val_eq, Fmt.val_eq, Fmt.neg_rounded, f.mag_rounded neg h, signed_mul, signed_mul, natAbs_signed_sub,
    natAbs_signed_sub, if_pos rfl]
  by_cases hsign : f.neg q = neg
  · obtain ⟨hnear, heven⟩ := roundPlace_nearest (m := m) (k := k) f.fracBits_pos (f.bits q)
    rw [← Fmt.mag_eq] at hnear heven
    rw [if_pos hsign, hsign]
    exact ⟨hnear, fun heq hne => hfrac (heven heq fun hmag => hne (by rw [hmag]))⟩
  · obtain ⟨hnear, heven⟩ := roundPlace_nearest (m := m) (k := k) f.fracBits_pos 0
    rw [magBits_zero, Nat.zero_mul] at hnear heven
    rw [if_neg hsign]
    refine ⟨by omega, fun heq hne => hfrac (heven (by omega) fun hmag => hne ?_)⟩
    have hzero : f.mag q * 2 ^ k = 0 := by omega
    have hmagq : f.mag q = 0 := (Nat.mul_eq_zero.mp hzero).resolve_right (by positivity)
    rw [← hmag, hmagq, signed_eq_zero, signed_eq_zero]

end Rounded

end Sys2Proof.Machine
end

section
/-! PROOFS. The conversions of integers (42_fmove_convert.md R132, R148): which integers some pattern denotes, that
those convert exactly under every numerics, and the nearest pattern of the others. -/

namespace Sys2Proof.Machine

open Sys2Proof.Claims

variable {f : Fmt}

/-! ## Numbers that a pattern denotes -/

/-- A significand of at most the leading one and `w` bits is the magnitude of some bits, at every scale. -/
theorem exists_magBits (w : Nat) {c : Nat} (hc : c < 2 ^ (w + 1)) (j : Nat) :
    ∃ b < j * 2 ^ w + 2 ^ (w + 1), magBits w b = c * 2 ^ j := by
  have hsucc : 2 ^ (w + 1) = 2 ^ w * 2 := Nat.pow_succ ..
  induction j generalizing c with
  | zero => exact ⟨0 * 2 ^ w + c, by omega, magBits_scaled w hc.le (.inl rfl)⟩
  | succ j ih =>
    rcases Nat.lt_or_ge c (2 ^ w) with hsmall | hlead
    · obtain ⟨b, hb, hmag⟩ := ih (c := 2 * c) (by omega)
      exact ⟨b, by rw [Nat.succ_mul]; omega, by rw [hmag]; ring⟩
    · exact ⟨(j + 1) * 2 ^ w + c, by omega, magBits_scaled w hc.le (.inr hlead)⟩

/-- A significand scaled below the largest exponent is the magnitude of a finite pattern. -/
theorem Fmt.exists_mag {c j : Nat} (hc : c < 2 ^ (f.fracBits + 1)) (hj : j + 2 ≤ f.expTop) :
    ∃ p, f.isFinite p = true ∧ f.mag p = c * 2 ^ j := by
  obtain ⟨b, hb, hmag⟩ := exists_magBits f.fracBits hc j
  have hfin : b < f.infBits := calc
    b < j * 2 ^ f.fracBits + 2 ^ (f.fracBits + 1) := hb
    _ = (j + 2) * 2 ^ f.fracBits := by ring
    _ ≤ f.infBits := Nat.mul_le_mul_right _ hj
  have hbits := f.bits_pattern false (hfin.trans f.infBits_lt)
  exact ⟨f.pattern false b, by rw [Fmt.isFinite_iff, hbits]; exact hfin, by rw [Fmt.mag_eq, hbits, hmag]⟩

/-- The exponents reach past 64-bit integers. -/
theorem Fmt.unit_lt_expTop (f : Fmt) : f.unit + 63 + 2 ≤ f.expTop := by cases f <;> decide

theorem Fmt.exists_mag_two_pow {k : Nat} (hk : k ≤ 63) : ∃ p, f.isFinite p = true ∧ f.mag p = 2 ^ k * 2 ^ f.unit := by
  have hone : 1 < 2 ^ (f.fracBits + 1) := Nat.one_lt_two_pow (Nat.succ_ne_zero _)
  have hrange := f.unit_lt_expTop
  obtain ⟨p, hp, hmag⟩ := f.exists_mag hone (show k + f.unit + 2 ≤ f.expTop by omega)
  exact ⟨p, hp, by rw [hmag, Nat.one_mul, Nat.pow_add]⟩

theorem Fmt.natAbs_of_val {p : BitVec f.width} {x : Int} {j : Nat} (h : f.val p = x * 2 ^ j) :
    f.mag p = x.natAbs * 2 ^ j := by
  rw [← f.natAbs_val, h, Int.natAbs_mul, Int.natAbs_pow]
  rfl

/-- The integers of R148 (a), (b): what a pattern denotes, what fits a significand, and the powers of two. -/
theorem Fmt.exists_mag_int {x : Int} (hx : x.natAbs ≤ 2 ^ 63)
    (h : (∃ p, f.isFinite p = true ∧ f.val p = x * 2 ^ f.unit) ∨ x.natAbs ≤ 2 ^ (f.fracBits + 1) ∨
      ∃ k, x.natAbs = 2 ^ k) : ∃ p, f.isFinite p = true ∧ f.mag p = x.natAbs * 2 ^ f.unit := by
  have hpow : ∀ k, x.natAbs = 2 ^ k → ∃ p, f.isFinite p = true ∧ f.mag p = x.natAbs * 2 ^ f.unit := fun k hk => by
    rw [hk] at hx ⊢
    exact f.exists_mag_two_pow ((Nat.pow_le_pow_iff_right (by decide)).mp hx)
  obtain ⟨p, hp, hval⟩ | hsmall | ⟨k, hk⟩ := h
  · exact ⟨p, hp, f.natAbs_of_val hval⟩
  · rcases hsmall.lt_or_eq with hlt | heq
    · have hrange := f.unit_lt_expTop
      exact f.exists_mag hlt (by omega)
    · exact hpow _ heq
  · exact hpow k hk

/-! ## Integers to patterns -/

theorem refIntToFloat_eq (f : Fmt) (x : Int) :
    refIntToFloat f x = f.rounded (decide (x < 0)) (x.natAbs * 2 ^ f.unit) 0 := rfl

/-- An integer whose magnitude a pattern has converts exactly (R132). -/
theorem refIntToFloat_exact {x : Int} (h : ∃ p, f.isFinite p = true ∧ f.mag p = x.natAbs * 2 ^ f.unit) :
    intIsExact f x = true ∧ f.isFinite (refIntToFloat f x) = true ∧ f.val (refIntToFloat f x) = x * 2 ^ f.unit := by
  obtain ⟨p, hp, hmag⟩ := h
  have hround := f.rounded_mag (decide (x < 0)) (k := 0) hp
  rw [Nat.pow_zero, Nat.mul_one, hmag, ← refIntToFloat_eq] at hround
  obtain ⟨hfin, hexact⟩ := hround
  refine ⟨beq_iff_eq.mpr hexact, hfin, ?_⟩
  rw [Fmt.val_eq, hexact, ← signed_mul_two_pow, refIntToFloat_eq, Fmt.neg_rounded, signed_natAbs]

theorem i2s_of_exact {x : Int} (h : intIsExact .single x = true) (nm : Numerics) :
    i2s nm x = refIntToFloat .single x := by
  cases nm with
  | ref => rfl
  | other id => exact if_pos h

theorem i2d_of_exact {x : Int} (h : intIsExact .double x = true) (nm : Numerics) :
    i2d nm x = refIntToFloat .double x := by
  cases nm with
  | ref => rfl
  | other id => exact if_pos h

/-- Zero converts to all bits clear: its sign is clear and its magnitude zero. -/
theorem refIntToFloat_zero (f : Fmt) : intIsExact f 0 = true ∧ refIntToFloat f 0 = 0 := by
  have hmag := f.exists_mag_int (x := 0) (Nat.zero_le _) (.inr (.inl (Nat.zero_le _)))
  obtain ⟨hexact, _, hval⟩ := refIntToFloat_exact hmag
  refine ⟨hexact, f.eq_of_neg_of_mag ?_ ?_⟩
  · rw [refIntToFloat_eq, Fmt.neg_rounded, Fmt.neg_eq]
    simp
  · rw [f.natAbs_of_val hval, Fmt.mag_eq]
    simp [Fmt.bits, magBits_zero]

/-- Settles O42: each of these integers is some pattern's number, and so exact under every numerics. -/
theorem integerConversionIsExactWhenRepresentable : Obligations.IntegerConversionIsExactWhenRepresentable := by
  intro nm x hlo hhi
  have hx : x.natAbs ≤ 2 ^ 63 := by omega
  refine ⟨fun h => ?_, fun h => ?_, ?_, ?_⟩
  · obtain ⟨hexact, hfin, hval⟩ := refIntToFloat_exact (Fmt.exists_mag_int (f := .single) hx h)
    rw [i2s_of_exact hexact]
    exact ⟨hfin, hval⟩
  · obtain ⟨hexact, hfin, hval⟩ := refIntToFloat_exact (Fmt.exists_mag_int (f := .double) hx h)
    rw [i2d_of_exact hexact]
    exact ⟨hfin, hval⟩
  · obtain ⟨hexact, hzero⟩ := refIntToFloat_zero .single
    rw [i2s_of_exact hexact, hzero]
  · obtain ⟨hexact, hzero⟩ := refIntToFloat_zero .double
    rw [i2d_of_exact hexact, hzero]

/-- The nearest pattern of a 64-bit integer is finite: it lies no higher than that of 2^63 (R132). -/
theorem refIntToFloat_nearest {x : Int} (hx : x.natAbs ≤ 2 ^ 63) :
    IsNearestEven f (x * 2 ^ f.unit) 1 (refIntToFloat f x) := by
  obtain ⟨p, hp, hmag⟩ := f.exists_mag_two_pow (k := 63) le_rfl
  rw [Fmt.isFinite_iff] at hp
  rw [Fmt.mag_eq] at hmag
  have hbound : x.natAbs * 2 ^ f.unit ≤ magBits f.fracBits (f.bits p) * 2 ^ 0 := by
    rw [hmag, Nat.pow_zero, Nat.mul_one]
    exact Nat.mul_le_mul_right _ hx
  have hnear := f.rounded_nearest (decide (x < 0)) ((roundPlace_le f.fracBits_pos hbound).trans_lt hp)
  rw [← signed_mul_two_pow, signed_natAbs, ← refIntToFloat_eq, Nat.pow_zero] at hnear
  exact hnear

/-- Settles O47: both formats' conversions round to a nearest pattern. -/
theorem referenceIntegerToFloatIsNearestEven : Obligations.ReferenceIntegerToFloatIsNearestEven := by
  intro x hlo hhi
  have hx : x.natAbs ≤ 2 ^ 63 := by omega
  exact ⟨refIntToFloat_nearest (f := .single) hx, refIntToFloat_nearest (f := .double) hx⟩

end Sys2Proof.Machine
end

section
/-! PROOFS. The conversions of patterns (42_fmove_convert.md R132, R148): to integers by truncation, between the two
formats exactly or to the nearest, NaNs to NaNs, and the round trips. -/

namespace Sys2Proof.Machine

open Sys2Proof.Claims

variable {f : Fmt}

/-! ## Patterns to integers -/

/-- Dropping the fraction of the magnitude is truncation toward zero. -/
theorem Fmt.trunc_eq_tdiv (p : BitVec f.width) : f.trunc p = (f.val p).tdiv (2 ^ f.unit) := by
  rw [Fmt.trunc_eq, Fmt.val_eq]
  cases f.neg p <;> simp [signed]

theorem inSignedRange_iff {N : Nat} {x : Int} : inSignedRange N x = true ↔ -2 ^ (N - 1) ≤ x ∧ x < 2 ^ (N - 1) := by
  simp [inSignedRange]

theorem toInt_ofInt_of_range {N : Nat} (hN : 0 < N) {x : Int} (hlo : -2 ^ (N - 1) ≤ x) (hhi : x < 2 ^ (N - 1)) :
    (BitVec.ofInt N x).toInt = x := BitVec.toInt_ofInt_eq_self hN hlo hhi

theorem s2i_of_isIntValue {N : Nat} {p : BitVec 32} (h : Fmt.isIntValue .single N p = true) (nm : Numerics) :
    s2i nm N p = BitVec.ofInt N (Fmt.trunc .single p) := by
  cases nm with
  | ref => exact if_pos (Bool.and_eq_true_iff.mp h).1
  | other id => exact if_pos h

theorem d2i_of_isIntValue {N : Nat} {p : BitVec 64} (h : Fmt.isIntValue .double N p = true) (nm : Numerics) :
    d2i nm N p = BitVec.ofInt N (Fmt.trunc .double p) := by
  cases nm with
  | ref => exact if_pos (Bool.and_eq_true_iff.mp h).1
  | other id => exact if_pos h

/-- A finite pattern that denotes an integer in range is one R148 (e) speaks of, and truncates to that integer. -/
theorem Fmt.isIntValue_of_val {N : Nat} {x : Int} {p : BitVec f.width} (hlo : -2 ^ (N - 1) ≤ x) (hhi : x < 2 ^ (N - 1))
    (hp : f.isFinite p = true) (hval : f.val p = x * 2 ^ f.unit) : f.isIntValue N p = true ∧ f.trunc p = x := by
  have htrunc : f.trunc p = x := by
    rw [Fmt.trunc_eq_tdiv, hval, Int.mul_tdiv_cancel _ (by positivity)]
  have hmod : f.mag p % 2 ^ f.unit = 0 := by rw [f.natAbs_of_val hval, Nat.mul_mod_left]
  exact ⟨by simp [Fmt.isIntValue, Fmt.truncFits, hp, htrunc, inSignedRange_iff.mpr ⟨hlo, hhi⟩, hmod], htrunc⟩

/-- Settles O44: such a pattern's truncation is the integer, and every numerics gives it. -/
theorem integerValuedFloatConvertsExactly : Obligations.IntegerValuedFloatConvertsExactly := by
  intro nm N x hN hlo hhi
  have hpos : 0 < N := by omega
  refine ⟨fun p hp hval => ?_, fun p hp hval => ?_⟩
  · obtain ⟨hint, htrunc⟩ := Fmt.isIntValue_of_val (f := .single) hlo hhi hp hval
    rw [s2i_of_isIntValue hint, htrunc, toInt_ofInt_of_range hpos hlo hhi]
  · obtain ⟨hint, htrunc⟩ := Fmt.isIntValue_of_val (f := .double) hlo hhi hp hval
    rw [d2i_of_isIntValue hint, htrunc, toInt_ofInt_of_range hpos hlo hhi]

theorem Fmt.truncFits_of_tdiv {N : Nat} {p : BitVec f.width} (hp : f.isFinite p = true)
    (hlo : -2 ^ (N - 1) ≤ (f.val p).tdiv (2 ^ f.unit)) (hhi : (f.val p).tdiv (2 ^ f.unit) < 2 ^ (N - 1)) :
    f.truncFits N p = true := by
  rw [← Fmt.trunc_eq_tdiv] at hlo hhi
  exact Bool.and_eq_true_iff.mpr ⟨hp, inSignedRange_iff.mpr ⟨hlo, hhi⟩⟩

/-- Settles O46: the value is the truncation where that fits. -/
theorem referenceFloatToIntegerTruncates : Obligations.ReferenceFloatToIntegerTruncates := by
  intro N hN
  have hpos : 0 < N := by omega
  refine ⟨fun p hp hlo hhi => ?_, fun p hp hlo hhi => ?_⟩
  · rw [s2i, if_pos (Fmt.truncFits_of_tdiv (f := .single) hp hlo hhi), Fmt.trunc_eq_tdiv,
      toInt_ofInt_of_range hpos hlo hhi]
  · rw [d2i, if_pos (Fmt.truncFits_of_tdiv (f := .double) hp hlo hhi), Fmt.trunc_eq_tdiv,
      toInt_ofInt_of_range hpos hlo hhi]

/-! ## Infinities and NaNs -/

theorem Fmt.not_isNaN_of_isInf {p : BitVec f.width} (h : f.isInf p = true) : f.isNaN p = false := by
  rw [Fmt.isInf_iff] at h
  rw [← Bool.not_eq_true, Fmt.isNaN_iff]
  omega

theorem Fmt.not_isNaN_of_isFinite {p : BitVec f.width} (h : f.isFinite p = true) : f.isNaN p = false := by
  rw [Fmt.isFinite_iff] at h
  rw [← Bool.not_eq_true, Fmt.isNaN_iff]
  omega

theorem Fmt.not_isInf_of_isFinite {p : BitVec f.width} (h : f.isFinite p = true) : f.isInf p = false := by
  rw [Fmt.isFinite_iff] at h
  rw [← Bool.not_eq_true, Fmt.isInf_iff]
  omega

theorem Fmt.isInf_or_isFinite {p : BitVec f.width} (h : f.isNaN p = false) :
    f.isInf p = true ∨ f.isFinite p = true := by
  rw [← Bool.not_eq_true, Fmt.isNaN_iff] at h
  rw [Fmt.isInf_iff, Fmt.isFinite_iff]
  omega

@[simp] theorem Fmt.isInf_infinity (f : Fmt) (neg : Bool) : f.isInf (f.infinity neg) = true :=
  (f.isInf_iff _).mpr (f.bits_pattern neg f.infBits_lt)

@[simp] theorem Fmt.neg_infinity (f : Fmt) (neg : Bool) : f.neg (f.infinity neg) = neg :=
  f.neg_pattern neg f.infBits_lt

/-- An infinity is the infinity of its sign. -/
theorem Fmt.eq_infinity {p : BitVec f.width} (h : f.isInf p = true) : p = f.infinity (f.neg p) := by
  rw [Fmt.isInf_iff] at h
  rw [← f.pattern_neg_bits p, h, f.neg_pattern _ f.infBits_lt]
  rfl

/-- A pattern that exceeds infinity by a fraction is a NaN. -/
theorem Fmt.isNaN_pattern {neg : Bool} {frac : Nat} (hpos : 0 < frac) (hlt : frac < 2 ^ f.fracBits) :
    f.isNaN (f.pattern neg (f.infBits + frac)) = true := by
  have hbound : f.infBits + frac < 2 ^ (f.width - 1) := by
    rw [f.two_pow_width.1, Nat.succ_mul, Fmt.infBits]
    omega
  rw [Fmt.isNaN_iff, f.bits_pattern neg hbound]
  omega

/-- Settles O49: the free fraction is at least 1. -/
theorem nanConvertsToNan : Obligations.NanConvertsToNan := by
  refine ⟨fun p hp => ?_, fun d hd => ?_⟩
  · rw [s2d, if_pos hp]
    exact Fmt.isNaN_pattern (f := .double) (by omega) (Nat.max_lt.mpr ⟨by decide, BitVec.isLt _⟩)
  · rw [d2s, if_pos hd]
    exact Fmt.isNaN_pattern (f := .single) (by omega) (Nat.max_lt.mpr ⟨by decide, BitVec.isLt _⟩)

/-! ## Single to double -/

theorem s2d_of_not_isNaN {p : BitVec 32} (h : Fmt.isNaN .single p = false) (nm : Numerics) :
    s2d nm p = exactSingleToDouble p := by
  cases nm <;> simp [s2d, h]

theorem exactSingleToDouble_of_isInf {p : BitVec 32} (h : Fmt.isInf .single p = true) :
    exactSingleToDouble p = Fmt.infinity .double (Fmt.neg .single p) := if_pos h

theorem exactSingleToDouble_of_isFinite {p : BitVec 32} (h : Fmt.isFinite .single p = true) :
    exactSingleToDouble p = Fmt.rounded .double (Fmt.neg .single p) (Fmt.mag .single p * 2 ^ 925) 0 := by
  rw [exactSingleToDouble, if_neg (by simp [Fmt.not_isInf_of_isFinite h])]
  rfl

/-- The number of a single is that of some double. -/
theorem exists_double_mag {p : BitVec 32} (h : Fmt.isFinite .single p = true) :
    ∃ q, Fmt.isFinite .double q = true ∧ Fmt.mag .double q = Fmt.mag .single p * 2 ^ 925 := by
  obtain ⟨e, q, hbits, hq, hlead⟩ := exists_scaled 23 (Fmt.bits .single p)
  have hmag : Fmt.mag .single p = q * 2 ^ e := by rw [Fmt.mag_eq, hbits, magBits_scaled 23 hq.le hlead]
  have hfin : e * 2 ^ 23 + q < 255 * 2 ^ 23 := hbits ▸ (Fmt.isFinite_iff (f := .single) p).mp h
  obtain ⟨d, hd, hdmag⟩ := Fmt.exists_mag (f := .double) (c := q) (j := e + 925) (hq.trans (by decide))
    (show e + 925 + 2 ≤ 2047 by omega)
  exact ⟨d, hd, by rw [hdmag, hmag, Nat.mul_assoc, ← Nat.pow_add]⟩

/-- A finite single converts to a finite double of its sign and 2^925 times its magnitude in the double's units. -/
theorem exactSingleToDouble_exact {p : BitVec 32} (h : Fmt.isFinite .single p = true) :
    Fmt.isFinite .double (exactSingleToDouble p) = true ∧
      Fmt.neg .double (exactSingleToDouble p) = Fmt.neg .single p ∧
      Fmt.mag .double (exactSingleToDouble p) = Fmt.mag .single p * 2 ^ 925 := by
  obtain ⟨q, hq, hmag⟩ := exists_double_mag h
  obtain ⟨hfin, hexact⟩ := Fmt.rounded_mag (f := .double) (Fmt.neg .single p) (k := 0) hq
  rw [Nat.pow_zero, Nat.mul_one, hmag] at hfin hexact
  rw [exactSingleToDouble_of_isFinite h]
  exact ⟨hfin, Fmt.neg_rounded _, hexact⟩

/-- Settles O43: an infinity keeps its sign, and a finite single's number is some double's. -/
theorem singleToDoubleIsExact : Obligations.SingleToDoubleIsExact := by
  intro nm p
  refine ⟨fun h => ?_, fun h => ?_⟩
  · rw [s2d_of_not_isNaN (Fmt.not_isNaN_of_isInf h), exactSingleToDouble_of_isInf h]
  · obtain ⟨hfin, hneg, hmag⟩ := exactSingleToDouble_exact h
    rw [s2d_of_not_isNaN (Fmt.not_isNaN_of_isFinite h)]
    refine ⟨hfin, hneg, ?_⟩
    rw [Fmt.val_eq, Fmt.val_eq, hneg, hmag, signed_mul_two_pow]

/-! ## Double to single -/

theorem nearestDoubleToSingle_of_isInf {d : BitVec 64} (h : Fmt.isInf .double d = true) :
    nearestDoubleToSingle d = Fmt.infinity .single (Fmt.neg .double d) := if_pos h

theorem nearestDoubleToSingle_of_isFinite {d : BitVec 64} (h : Fmt.isFinite .double d = true) :
    nearestDoubleToSingle d = Fmt.rounded .single (Fmt.neg .double d) (Fmt.mag .double d) 925 := by
  rw [nearestDoubleToSingle, if_neg (by simp [Fmt.not_isInf_of_isFinite h])]
  rfl

theorem isSingleValue_of_isInf {d : BitVec 64} (h : Fmt.isInf .double d = true) : isSingleValue d = true :=
  Bool.or_eq_true_iff.mpr (.inl h)

theorem d2s_of_isSingleValue {d : BitVec 64} (h : isSingleValue d = true) (nm : Numerics) :
    d2s nm d = nearestDoubleToSingle d := by
  cases nm with
  | ref =>
    have hnan : Fmt.isNaN .double d = false := by
      rw [isSingleValue, Bool.or_eq_true_iff, Bool.and_eq_true_iff, Bool.and_eq_true_iff] at h
      obtain hinf | ⟨⟨hfin, _⟩, _⟩ := h
      · exact Fmt.not_isNaN_of_isInf hinf
      · exact Fmt.not_isNaN_of_isFinite hfin
    simp [d2s, hnan]
  | other id => exact if_pos h

/-- A finite double of a finite single's magnitude converts to a finite single of its sign and that magnitude, and is
one R148 (f) speaks of. -/
theorem nearestDoubleToSingle_exact {d : BitVec 64} {p : BitVec 32} (hd : Fmt.isFinite .double d = true)
    (hp : Fmt.isFinite .single p = true) (hmag : Fmt.mag .double d = Fmt.mag .single p * 2 ^ 925) :
    isSingleValue d = true ∧ Fmt.isFinite .single (nearestDoubleToSingle d) = true ∧
      Fmt.neg .single (nearestDoubleToSingle d) = Fmt.neg .double d ∧
      Fmt.mag .single (nearestDoubleToSingle d) = Fmt.mag .single p := by
  have hround := Fmt.rounded_mag (f := .single) (Fmt.neg .double d) (k := 925) hp
  rw [← hmag, ← nearestDoubleToSingle_of_isFinite hd] at hround
  obtain ⟨hfin, hexact⟩ := hround
  refine ⟨?_, hfin, ?_, hexact⟩
  · rw [isSingleValue, hd, hfin, hexact, hmag, beq_self_eq_true]
    exact Bool.or_true _
  · rw [nearestDoubleToSingle_of_isFinite hd, Fmt.neg_rounded]

/-- Settles O45: an infinity keeps its sign, and a finite double of a single's number converts to that number. -/
theorem doubleToSingleIsExactWhenRepresentable : Obligations.DoubleToSingleIsExactWhenRepresentable := by
  intro nm d
  refine ⟨fun h => ?_, fun p hd hp hval => ?_⟩
  · rw [d2s_of_isSingleValue (isSingleValue_of_isInf h), nearestDoubleToSingle_of_isInf h]
  · have hmag : Fmt.mag .double d = Fmt.mag .single p * 2 ^ 925 := by
      rw [Fmt.natAbs_of_val hval.symm, Fmt.natAbs_val]
    obtain ⟨hsingle, hfin, hneg, hexact⟩ := nearestDoubleToSingle_exact hd hp hmag
    rw [d2s_of_isSingleValue hsingle]
    refine ⟨hfin, hneg, ?_⟩
    rw [Fmt.val_eq, Fmt.val_eq, hneg, hexact, hmag, signed_mul_two_pow]

/-- The magnitude from which on a double is nearer to where the singles end than to the largest of them. -/
theorem mag_overflow : 2 * Fmt.mag .double 0x47EFFFFFF0000000#64 = (2 ^ (23 + 2) - 1) * 2 ^ (925 + 253) := by
  have hexp : Fmt.exp .double 0x47EFFFFFF0000000#64 = 1149 + 1 := by decide
  have hfrac : 2 ^ 52 + Fmt.frac .double 0x47EFFFFFF0000000#64 = (2 ^ (23 + 2) - 1) * 2 ^ 28 := by decide
  have hscale : ∀ c i j : Nat, i = j + 29 → 2 * (c * 2 ^ 28 * 2 ^ j) = c * 2 ^ i := fun c i j h => by rw [h]; ring
  rw [Fmt.mag, hexp, if_neg (Nat.succ_ne_zero _), Nat.add_sub_cancel, hfrac]
  exact hscale _ (925 + 253) 1149 rfl

/-- Settles O48: the sign is kept, and the magnitude is rounded, to infinity from half a place below it on. -/
theorem referenceDoubleToSingleIsNearestEven : Obligations.ReferenceDoubleToSingleIsNearestEven := by
  intro d hd
  have hround : d2s .ref d = Fmt.rounded .single (Fmt.neg .double d) (Fmt.mag .double d) 925 := by
    simp [d2s, Fmt.not_isNaN_of_isFinite hd, nearestDoubleToSingle_of_isFinite hd]
  have hoverflow : Fmt.infBits .single ≤ roundPlace 23 (Fmt.mag .double d) 925 ↔
      Fmt.mag .double 0x47EFFFFFF0000000#64 ≤ Fmt.mag .double d := by
    have hiff := le_roundPlace_iff (w := 23) (m := Fmt.mag .double d) (k := 925) (by decide) 253
    rw [← mag_overflow, Nat.mul_le_mul_left_iff (by decide)] at hiff
    exact hiff
  rw [hround]
  refine ⟨Fmt.neg_rounded _, fun h => ?_, fun h => Fmt.rounded_eq_infinity _ (hoverflow.mpr h)⟩
  exact Fmt.rounded_nearest (f := .single) _ (not_le.mp fun hle => absurd (hoverflow.mp hle) (not_le.mpr h))

/-! ## Round trips -/

/-- A value whose conversion reads back as its number is its sign extension. -/
theorem eq_signExtend_of_toInt {k N : Nat} {v : BitVec k} {u : BitVec N} (hkN : k ≤ N) (h : u.toInt = v.toInt) :
    u = v.signExtend N :=
  BitVec.eq_of_toInt_eq (h.trans (BitVec.toInt_signExtend_of_le hkN).symm)

/-- A `k`-bit integer in the range of `N` bits. -/
theorem toInt_range {k N : Nat} (v : BitVec k) (hkN : k ≤ N) : -2 ^ (N - 1) ≤ v.toInt ∧ v.toInt < 2 ^ (N - 1) := by
  have hpow : (2 : Int) ^ (k - 1) ≤ 2 ^ (N - 1) := pow_le_pow_right₀ (by decide) (by omega)
  have hlo := BitVec.le_toInt v
  have hhi := BitVec.toInt_lt (x := v)
  omega

/-- An integer goes through a single and back where a single's significand holds it. -/
theorem s2i_i2s (nm : Numerics) {k N : Nat} (v : BitVec k) (hk : k ≤ 25) (hN : N = 32 ∨ N = 64) :
    s2i nm N (i2s nm v.toInt) = v.signExtend N := by
  obtain ⟨hlo, hhi⟩ := toInt_range v (N := N) (by omega)
  obtain ⟨hsmallLo, hsmallHi⟩ := toInt_range v hk
  obtain ⟨hexact, _⟩ := integerConversionIsExactWhenRepresentable nm v.toInt (by omega) (by omega)
  obtain ⟨hfin, hval⟩ := hexact (.inr (.inl (by omega)))
  obtain ⟨hback, _⟩ := integerValuedFloatConvertsExactly nm N v.toInt hN hlo hhi
  exact eq_signExtend_of_toInt (by omega) (hback _ hfin hval)

/-- An integer goes through a double and back where a double's significand holds it. -/
theorem d2i_i2d (nm : Numerics) {k N : Nat} (v : BitVec k) (hk : k ≤ 54) (hkN : k ≤ N) (hN : N = 32 ∨ N = 64) :
    d2i nm N (i2d nm v.toInt) = v.signExtend N := by
  obtain ⟨hlo, hhi⟩ := toInt_range v hkN
  obtain ⟨hsmallLo, hsmallHi⟩ := toInt_range v hk
  obtain ⟨_, hexact, _⟩ := integerConversionIsExactWhenRepresentable nm v.toInt (by omega) (by omega)
  obtain ⟨hfin, hval⟩ := hexact (.inr (.inl (by omega)))
  obtain ⟨_, hback⟩ := integerValuedFloatConvertsExactly nm N v.toInt hN hlo hhi
  exact eq_signExtend_of_toInt hkN (hback _ hfin hval)

/-- A single that is no NaN goes through a double and back. -/
theorem d2s_s2d (nm : Numerics) {p : BitVec 32} (h : Fmt.isNaN .single p = false) : d2s nm (s2d nm p) = p := by
  rw [s2d_of_not_isNaN h]
  obtain hinf | hp := Fmt.isInf_or_isFinite h
  · have hd := Fmt.isInf_infinity .double (Fmt.neg .single p)
    rw [exactSingleToDouble_of_isInf hinf, d2s_of_isSingleValue (isSingleValue_of_isInf hd),
      nearestDoubleToSingle_of_isInf hd, Fmt.neg_infinity, ← Fmt.eq_infinity hinf]
  · obtain ⟨hd, hneg, hmag⟩ := exactSingleToDouble_exact hp
    obtain ⟨hsingle, _, hnegBack, hmagBack⟩ := nearestDoubleToSingle_exact hd hp hmag
    rw [d2s_of_isSingleValue hsingle]
    exact Fmt.eq_of_neg_of_mag (hnegBack.trans hneg) hmagBack

/-- Settles O50: each integer is exact in the format it goes through, and so is each single as a double. -/
theorem exactConversionsRoundTrip : Obligations.ExactConversionsRoundTrip := by
  intro nm
  refine ⟨fun v => ⟨?_, ?_, ?_, ?_⟩, fun v => ⟨?_, ?_, ?_, ?_⟩, fun v => ⟨?_, ?_⟩, fun p => d2s_s2d nm⟩
  case refine_1 | refine_2 | refine_5 | refine_6 => exact s2i_i2s nm v (by decide) (by decide)
  case refine_3 | refine_4 | refine_7 | refine_8 | refine_10 => exact d2i_i2d nm v (by decide) (by decide) (by decide)
  case refine_9 => rw [d2i_i2d nm v (by decide) le_rfl (by decide), BitVec.signExtend_eq]

end Sys2Proof.Machine
end
